-- ==== Sys2Proof/Word.lean ====
section
/-!
DEFINITION. The word types of ZAFE: every register, every buffer element and every command is one
32-bit word (10_state.md R40, 30_encoding.md R100); the bus is byte addressed (20_memory.md R70).
-/
namespace Sys2Proof

/-- A 32-bit word; bit 0 is the least significant (00_scope.md R10). -/
abbrev Word := BitVec 32

/-- A byte of the little-endian window (20_memory.md R71). -/
abbrev Byte := BitVec 8

end Sys2Proof
end

