-- ==== Sys2Proof/Syntax.lean ====
section
/-!
DEFINITION. The nine commands of the ZAFE command set, version 1 (30_encoding.md R106), one constructor
per row of spec/opcode_table.json.
-/
namespace Sys2Proof

/-- A decoded command. Its operands are lengths, taken as naturals (R105, R27). -/
inductive Instr where
  /-- SYS.RESET, format Z (R230). -/
  | sysReset
  /-- FFT.INIT M, format A1 (R131). -/
  | fftInit (m : Nat)
  /-- FFT RLEN, ILEN, format A2 (R137). -/
  | fft (rlen ilen : Nat)
  /-- FFTR RLEN, ILEN, format A2 (R141). -/
  | fftr (rlen ilen : Nat)
  /-- DCT.INIT N, format A1 (R171). -/
  | dctInit (n : Nat)
  /-- DCT.APPLY DLEN, format A1 (R175). -/
  | dctApply (dlen : Nat)
  /-- MEL.INIT NB, LEN, format A2 (R201). -/
  | melInit (nb len : Nat)
  /-- MEL.MAG, format Z (R205). -/
  | melMag
  /-- MEL.ACC, format Z (R210). -/
  | melAcc
  deriving DecidableEq, Repr

end Sys2Proof
end

