-- ==== Sys2Proof/WellFormed.lean ====
section
/-!
DEFINITION. Well-formed commands: every operand fits its 13-bit length field (30_encoding.md R101, R105;
"An operand above 8191 is an assembly error", R110).
-/
namespace Sys2Proof

/-- The largest length a field of the command word holds (R101). -/
def maxLength : Nat := 8191

/-- A length that a 13-bit field holds (R27, R101). -/
def lengthFits (n : Nat) : Bool := n ≤ maxLength

/-- Every operand of the command fits its field. -/
def Instr.wellFormed : Instr → Bool
  | .sysReset => true
  | .fftInit m => lengthFits m
  | .fft rlen ilen => lengthFits rlen && lengthFits ilen
  | .fftr rlen ilen => lengthFits rlen && lengthFits ilen
  | .dctInit n => lengthFits n
  | .dctApply dlen => lengthFits dlen
  | .melInit nb len => lengthFits nb && lengthFits len
  | .melMag => true
  | .melAcc => true

/-- `wellFormed` as a proposition. -/
abbrev Instr.WellFormed (i : Instr) : Prop := i.wellFormed = true

end Sys2Proof
end

