-- ==== Sys2Proof/Decode.lean ====
section
/-!
DEFINITION. Decoding of command words, total on all 2^32 words and rejecting by name
(30_encoding.md R101 to R108), and after it the encoder (R106, R110).
-/
namespace Sys2Proof

/-- Why a word is no command (R107, R108). -/
inductive IllegalWord where
  /-- OP is none of the nine assigned values. -/
  | unassignedOp (op : Nat)
  /-- A format Z word whose A or B field is not zero. -/
  | formatZFieldNotZero (op : Nat)
  /-- A format A1 word whose B field is not zero. -/
  | formatA1FieldNotZero (op : Nat)
  deriving DecidableEq, Repr

/-- OP = w[31:26] (R101). -/
def fieldOp (w : Word) : Nat := (w.extractLsb' 26 6).toNat

/-- B = w[25:13], unsigned (R101, R105). -/
def fieldB (w : Word) : Nat := (w.extractLsb' 13 13).toNat

/-- A = w[12:0], unsigned (R101, R105). -/
def fieldA (w : Word) : Nat := (w.extractLsb' 0 13).toNat

/-- Format Z: A and B must both be 0 (R102). -/
def decodeFormatZ (w : Word) (i : Instr) : Except IllegalWord Instr :=
  if fieldA w = 0 ∧ fieldB w = 0 then .ok i else .error (.formatZFieldNotZero (fieldOp w))

/-- Format A1: A is the operand and B must be 0 (R103). -/
def decodeFormatA1 (w : Word) (i : Nat → Instr) : Except IllegalWord Instr :=
  if fieldB w = 0 then .ok (i (fieldA w)) else .error (.formatA1FieldNotZero (fieldOp w))

/-- Format A2: A and B are both operands, every value legal (R104). -/
def decodeFormatA2 (w : Word) (i : Nat → Nat → Instr) : Except IllegalWord Instr :=
  .ok (i (fieldA w) (fieldB w))

/-- decode(w) of R107. -/
def decode (w : Word) : Except IllegalWord Instr :=
  match fieldOp w with
  | 0x01 => decodeFormatZ w .sysReset
  | 0x10 => decodeFormatA1 w .fftInit
  | 0x11 => decodeFormatA2 w .fft
  | 0x12 => decodeFormatA2 w .fftr
  | 0x20 => decodeFormatA1 w .dctInit
  | 0x21 => decodeFormatA1 w .dctApply
  | 0x30 => decodeFormatA2 w .melInit
  | 0x31 => decodeFormatZ w .melMag
  | 0x32 => decodeFormatZ w .melAcc
  | op => .error (.unassignedOp op)

/-- One row of the opcode map of R106; `pattern` is its column "match". -/
structure OpcodeRow where
  mnemonic : String
  op : Nat
  pattern : Word
  mask : Word
  deriving DecidableEq, Repr

/-- The opcode map of R106. -/
def opcodeRows : List OpcodeRow :=
  [ ⟨"SYS.RESET", 0x01, 0x04000000#32, 0xFFFFFFFF#32⟩,
    ⟨"FFT.INIT", 0x10, 0x40000000#32, 0xFFFFE000#32⟩,
    ⟨"FFT", 0x11, 0x44000000#32, 0xFC000000#32⟩,
    ⟨"FFTR", 0x12, 0x48000000#32, 0xFC000000#32⟩,
    ⟨"DCT.INIT", 0x20, 0x80000000#32, 0xFFFFE000#32⟩,
    ⟨"DCT.APPLY", 0x21, 0x84000000#32, 0xFFFFE000#32⟩,
    ⟨"MEL.INIT", 0x30, 0xC0000000#32, 0xFC000000#32⟩,
    ⟨"MEL.MAG", 0x31, 0xC4000000#32, 0xFFFFFFFF#32⟩,
    ⟨"MEL.ACC", 0x32, 0xC8000000#32, 0xFFFFFFFF#32⟩ ]

/-- Word w selects the row iff (w AND mask) = match (R106). -/
def OpcodeRow.selects (r : OpcodeRow) (w : Word) : Bool := w &&& r.mask == r.pattern

/-- The mnemonic of a command, as the opcode map spells it. -/
def Instr.mnemonic : Instr → String
  | .sysReset => "SYS.RESET"
  | .fftInit _ => "FFT.INIT"
  | .fft _ _ => "FFT"
  | .fftr _ _ => "FFTR"
  | .dctInit _ => "DCT.INIT"
  | .dctApply _ => "DCT.APPLY"
  | .melInit _ _ => "MEL.INIT"
  | .melMag => "MEL.MAG"
  | .melAcc => "MEL.ACC"

/-- "The command word is (OP · 2^26) + (B · 2^13) + A" (R106). -/
def commandWord (op b a : Nat) : Word := BitVec.ofNat 32 (op * 2 ^ 26 + b * 2 ^ 13 + a)

/-- The word of a command (R106, R110). On operands above 8191, which R110 calls an assembly error, the
word is that of the formula and decodes to something else (log 12). -/
def encode : Instr → Word
  | .sysReset => commandWord 0x01 0 0
  | .fftInit m => commandWord 0x10 0 m
  | .fft rlen ilen => commandWord 0x11 ilen rlen
  | .fftr rlen ilen => commandWord 0x12 ilen rlen
  | .dctInit n => commandWord 0x20 0 n
  | .dctApply dlen => commandWord 0x21 0 dlen
  | .melInit nb len => commandWord 0x30 len nb
  | .melMag => commandWord 0x31 0 0
  | .melAcc => commandWord 0x32 0 0

/-- The command word that a table row's bits stand for: the bits above `nbits` are 0. -/
def tableWord (nbits w : Nat) : Word := BitVec.ofNat 32 (w % 2 ^ nbits)

/-- The command the decoder reads from the bits of an opcode-table row. -/
def decodeTableWord (nbits w : Nat) : Option Instr := (decode (tableWord nbits w)).toOption

end Sys2Proof
end

