-- ==== Sys2Proof/Config.lean ====
section
/-!
DEFINITION. What an implementation fixes (00_scope.md R5 to R8) and the free values
(93_implementation_defined.md U1 to U3).
-/
namespace Sys2Proof

/-- The parameters of an implementation, fixed for the life of the hardware (10_state.md R67).
DESIGN CHOICE (log 1): the machine's state carries them in one field that no step changes, so that a
statement about every state is a statement about every choice of parameters. -/
structure Config where
  /-- MMAX, the largest M that FFT.INIT accepts (R5). -/
  mmax : Nat
  /-- NBMAX, the largest number of channels that MEL.INIT accepts (R6). -/
  nbmax : Nat
  /-- NDMAX, the largest N that DCT.INIT accepts (R7). -/
  ndmax : Nat
  /-- BASE, the byte address of the block on the host bus (R8). -/
  base : Nat
  deriving DecidableEq, Repr

/-- The spec's default capacities (R5, R6, R7). DESIGN CHOICE (log 1): BASE, which R8 leaves open, is 0. -/
def Config.default : Config := { mmax := 512, nbmax := 126, ndmax := 128, base := 0 }

/-- The legal ranges of the parameters: MMAX a power of two from 4 to 4096 (R5), NBMAX from 1 to 1022
(R6), NDMAX from 1 to 1024 (R7), BASE a multiple of 0x40000 (R8). -/
abbrev Config.Legal (c : Config) : Prop :=
  c.mmax ∈ [4, 8, 16, 32, 64, 128, 256, 512, 1024, 2048, 4096] ∧
  (1 ≤ c.nbmax ∧ c.nbmax ≤ 1022) ∧ (1 ≤ c.ndmax ∧ c.ndmax ≤ 1024) ∧ c.base % 0x40000 = 0

/-- The bus address of an offset of the window (R8): every address of the spec is an offset from BASE. -/
def Config.busAddress (c : Config) (off : Nat) : Nat := c.base + off

/-- The free values: what the n-th observation of an unspecified word gives (10_state.md R66, 93 U1, U2, U3).
Nothing constrains it, and two observations need not agree (log 3). -/
opaque Config.freeWord : Nat → Word

end Sys2Proof
end

