-- ==== Sys2Proof/Machine/State.lean ====
section
/-!
DEFINITION. The state of the block (10_state.md R65), the inputs the host and the platform give it, and
the state after reset (70_reset_and_hazards.md R281, R282).
-/
namespace Sys2Proof.Machine

/-- The units 1, 2, 3 (10_state.md R32). Unit 0, the system, has no object and no flag. -/
inductive EngineUnit where
  | fft
  | dct
  | mel
  deriving DecidableEq, Repr

/-- The error kinds a command can end with (60_exceptions.md R240). -/
inductive ErrorKind where
  | dataSizeMismatch
  | invalidSize
  | badState
  | illegalCommand
  | badTable
  deriving DecidableEq, Repr

/-- The buffers and tables of 10_state.md R55 to R62. -/
inductive Buffer where
  | sintab
  | real
  | imag
  | spec
  | bin
  | wgt
  | chan
  | dctwr
  | dctwi
  | dctd
  deriving DecidableEq, Repr

/-- The registers of the map (10_state.md R40). -/
inductive Register where
  | id
  | cmd
  | result
  | status
  | fftM
  | dctN
  | melNb
  | melLen
  | melFloor
  | cap0
  | cap1
  deriving DecidableEq, Repr

/-- What the outside world does to the block, one at a time: a host read or write of `size` bytes at byte
offset `off` from BASE (00_scope.md R12, 20_memory.md R72), or the hardware reset input
(70_reset_and_hazards.md R280). A write of another size than 4 is refused whatever its data, so the data is
given as one word. -/
inductive HostEvent where
  | read (off size : Nat)
  | write (off size : Nat) (data : Word)
  | hardwareReset
  deriving DecidableEq, Repr

/-- The response to a host access (20_memory.md R74, R75, R80). -/
inductive BusResponse where
  | readOk (value : Word)
  | writeOk
  | busError
  deriving DecidableEq, Repr

/-- The memory behind the window: bytes by their offset from BASE, at strictly rising offsets. A byte that
is not listed has been written by nothing since hardware reset (10_state.md R66); what reading it gives is a
free value, so no entry can equal it (log 3). -/
abbrev Memory := List Host.Cell

/-- The canonical form: the offsets rise strictly. -/
abbrev Memory.wf (m : Memory) : Prop := m.Pairwise fun c d => c.1 < d.1

/-- The state of the block, its parameters, and the model's own fields `draws`, `host`, `response`. -/
structure State where
  /-- The parameters of R5 to R8; no step changes them (log 1). -/
  cfg : Config
  /-- RESULT (10_state.md R43). -/
  result : Word
  /-- STATUS (R44). -/
  status : Word
  /-- FFT_M (R45). -/
  fftM : Word
  /-- DCT_N (R46). -/
  dctN : Word
  /-- MEL_NB (R47). -/
  melNb : Word
  /-- MEL_LEN (R48). -/
  melLen : Word
  /-- MEL_FLOOR (R49). -/
  melFloor : Word
  /-- The contents of SINTAB, REAL, IMAG, SPEC, BIN, WGT, CHAN, DCTWR, DCTWI and DCTD (R55 to R62). -/
  mem : Memory
  /-- The model's own: how many free values have been used up (log 3). -/
  draws : Nat
  /-- The model's own: the host accesses and hardware resets still to come, the next one first (log 2). -/
  host : List HostEvent
  /-- The model's own: the response to the last host access (log 5). -/
  response : Option BusResponse
  deriving DecidableEq, Repr

/-- Why the machine stops with a fault. It never does: a failing command records its kind in RESULT and
STATUS and the block goes on (60_exceptions.md R247, R250), and BusError is a response (R256). -/
inductive Fault where
  deriving DecidableEq, Repr

/-- Why an instruction has no meaning. -/
inductive Refusal where
  /-- Raised by an arm of `exec` for an instruction without a meaning; safe: no claim about the instruction
  can be proved. No arm of this model raises it. -/
  | notModelled (mnemonic : String)
  deriving DecidableEq, Repr

/-- The state after hardware reset of a block with the parameters `c`: the registers of R281, no byte of any
buffer specified (R282). DESIGN CHOICE (log 2, 3, 5): `draws`, `host` and `response`, which the spec does not
have, start at 0, empty and none. -/
def State.resetWith (c : Config) : State where
  cfg := c
  result := 0#32
  status := 0#32
  fftM := 0#32
  dctN := 0#32
  melNb := 0#32
  melLen := 0#32
  melFloor := 0x3F800000#32
  mem := []
  draws := 0
  host := []
  response := none

/-- The state after hardware reset of a block with the default parameters (log 1). -/
def State.reset : State := State.resetWith Config.default

end Sys2Proof.Machine
end

