-- ==== Sys2Proof/Machine/Numerics.lean ====
section
/-!
DEFINITION. The numerics record NUM (00_scope.md R9) as a parameter of the three kernels, the access of a
kernel to a buffer, and the loops of the pseudocode (R14). The machine uses the kernels with binary32 words
and its own buffers; the ideal machine of the contract rules uses the same kernels with real numbers.
-/
namespace Sys2Proof.Machine

/-- The numerics record NUM over an element format F (R9): the primitives of R15 to R23 and the constants of
R20 and 41_dct.md R172. -/
structure Numerics (F : Type) where
  add : F → F → F
  sub : F → F → F
  mul : F → F → F
  div : F → F → F
  sqrt : F → F
  neg : F → F
  lt : F → F → Bool
  ln : F → F
  /-- SINQ(p, q), the sine of 2π·p/q (R21). -/
  sinq : Nat → Nat → F
  /-- COSQ(p, q), the cosine of 2π·p/q (R22). -/
  cosq : Nat → Nat → F
  /-- I2F(n) (R20). -/
  ofNat : Nat → F
  zero : F
  one : F
  half : F
  /-- INVSQRT2, 1/√2 (41_dct.md R172). -/
  invSqrt2 : F

/-- The access of a kernel to one buffer of a store σ: `BUF[i]` and `BUF[i] <- v` (R11). -/
structure Port (σ F : Type) where
  rd : Nat → StateM σ F
  wr : Nat → F → StateM σ Unit

/-- `k` rounds of a loop, at a, a+1, …, a+k−1 in ascending order. `for i in a..b` of R14 is
`loop a (b + 1 - a)`, which runs zero times when b < a. -/
def loop {σ : Type} : Nat → Nat → (Nat → StateM σ Unit) → StateM σ Unit
  | _, 0, _ => pure ()
  | a, k + 1, f => do
    f a
    loop (a + 1) k f

/-- A loop that collects what its rounds give, in order. -/
def collect {σ α : Type} : Nat → Nat → (Nat → StateM σ α) → StateM σ (List α)
  | _, 0, _ => pure []
  | a, k + 1, f => do
    let x ← f a
    let xs ← collect (a + 1) k f
    pure (x :: xs)

/-- A loop over a list, beside the index a, a+1, … of its rounds. -/
def loopList {σ α : Type} : Nat → List α → (Nat → α → StateM σ Unit) → StateM σ Unit
  | _, [], _ => pure ()
  | a, x :: xs, f => do
    f a x
    loopList (a + 1) xs f

end Sys2Proof.Machine
end

