-- ==== Sys2Proof/Machine/DctKernel.lean ====
section
/-!
DEFINITION. The pseudocode of the DCT unit (41_dct.md R172, R173, R177 to R179), over a numerics record and
the accesses to DCTWR, DCTWI and DCTD. The DFT matrix is computed entry by entry (10_state.md R63; log 8).
-/
namespace Sys2Proof.Machine

/-- The accesses of the DCT unit: DCTWR, DCTWI, DCTD (R170). -/
structure DctPorts (σ F : Type) where
  wr : Port σ F
  wi : Port σ F
  data : Port σ F

variable {σ F : Type}

/-- The twiddle of R172 for size n: the tables, then the two scalings of entry 0. -/
def buildTwiddle (N : Numerics F) (P : DctPorts σ F) (n : Nat) : StateM σ Unit := do
  let r := N.sqrt (N.ofNat (2 * n))
  loop 0 n fun k => do
    P.wr.wr k (N.div (N.cosq k (4 * n)) r)
    P.wi.wr k (N.div (N.neg (N.sinq k (4 * n))) r)
  P.wr.wr 0 (N.mul (← P.wr.rd 0) N.invSqrt2)
  P.wi.wr 0 (N.mul (← P.wi.rd 0) N.invSqrt2)

/-- C[k][q] of the DFT matrix for size n (R173). -/
def dftCos (N : Numerics F) (n k q : Nat) : F := N.cosq (k * q % (2 * n)) (2 * n)

/-- S[k][q] of the DFT matrix for size n (R173). -/
def dftSin (N : Numerics F) (n k q : Nat) : F := N.sinq (k * q % (2 * n)) (2 * n)

/-- One round of R177: what lr[i], li[i], lr[i+n], li[i+n] are, in the order of the text. -/
def extensionRound (P : DctPorts σ F) (n i : Nat) : StateM σ ((F × F) × (F × F)) := do
  let a ← P.data.rd i
  let b ← P.data.rd (i + n)
  let c ← P.data.rd (n - 1 - i)
  let d ← P.data.rd (2 * n - 1 - i)
  pure ((a, b), (c, d))

/-- The symmetric extension of R177: the 2n pairs (lr[q], li[q]). -/
def extension (P : DctPorts σ F) (n : Nat) : StateM σ (List (F × F)) := do
  let rounds ← collect 0 n (extensionRound P n)
  pure (rounds.map Prod.fst ++ rounds.map Prod.snd)

/-- The inner loop of R178 for row k from column q on: the accumulators ar, ai over the pairs still to come. -/
def dftRow (N : Numerics F) (n k : Nat) : Nat → List (F × F) → F → F → F × F
  | _, [], ar, ai => (ar, ai)
  | q, (lr, li) :: rest, ar, ai =>
    dftRow N n k (q + 1) rest
      (N.add (N.add ar (N.mul lr (dftCos N n k q))) (N.mul li (dftSin N n k q)))
      (N.sub (N.add ai (N.mul li (dftCos N n k q))) (N.mul lr (dftSin N n k q)))

/-- The DFT of R178: the pairs (tr[k], ti[k]) for k in 0..n−1, accumulated from +0 in ascending q. -/
def dftRows (N : Numerics F) (n : Nat) (ext : List (F × F)) : List (F × F) :=
  (List.range n).map fun k => dftRow N n k 0 ext N.zero N.zero

/-- The scaling and write-back of R179 for row k. -/
def scaleRow (N : Numerics F) (P : DctPorts σ F) (n k : Nat) (t : F × F) : StateM σ Unit := do
  P.data.wr k (N.sub (N.mul t.1 (← P.wr.rd k)) (N.mul t.2 (← P.wi.rd k)))
  P.data.wr (k + n) (N.add (N.mul t.1 (← P.wi.rd k)) (N.mul t.2 (← P.wr.rd k)))

/-- The effect of DCT.APPLY (R175): extension, DFT, scaling. -/
def dctCore (N : Numerics F) (P : DctPorts σ F) (n : Nat) : StateM σ Unit := do
  let ext ← extension P n
  loopList 0 (dftRows N n ext) fun k t => scaleRow N P n k t

end Sys2Proof.Machine
end

