-- ==== Sys2Proof/Machine/Binary32.lean ====
section
/-!
DEFINITION. IEEE-754 binary32, round to nearest, ties to even, one rounding per operation
(00_scope.md R15 to R20). Every finite binary32 number is a whole multiple of 2^−149, so a finite number is
held as its sign and that multiple; results are computed exactly on naturals and rounded once at the end.
-/
namespace Sys2Proof.Machine

/-- A binary32 word read as a number (R15). A finite one is ±mag·2^−149; zero keeps its sign. -/
inductive Datum where
  | nan
  | infinite (neg : Bool)
  | finite (neg : Bool) (mag : Nat)
  deriving DecidableEq, Repr

/-- Bit 31 (R15). -/
def signBit (w : Word) : Bool := w.getLsbD 31

/-- Bits 30:23 (R15). -/
def exponentField (w : Word) : Nat := (w.extractLsb' 23 8).toNat

/-- Bits 22:0 (R15). -/
def fractionField (w : Word) : Nat := (w.extractLsb' 0 23).toNat

/-- The number a word encodes (R15): subnormals in full, two zeros, two infinities, NaNs. -/
def unpack (w : Word) : Datum :=
  let e := exponentField w
  let f := fractionField w
  if e = 255 then (if f = 0 then .infinite (signBit w) else .nan)
  else if e = 0 then .finite (signBit w) f
  else .finite (signBit w) ((f + 2 ^ 23) * 2 ^ (e - 1))

/-- The canonical quiet NaN (R17). -/
def canonicalNaN : Word := 0x7FC00000#32

/-- Bits 30:0 of an infinity. -/
def infinityMagnitude : Nat := 0x7F800000

/-- The word with a sign and bits 30:0. -/
def packSigned (neg : Bool) (magnitude : Nat) : Word :=
  BitVec.ofNat 32 (if neg then magnitude + 2 ^ 31 else magnitude)

/-- ±∞. -/
def packInfinity (neg : Bool) : Word := packSigned neg infinityMagnitude

/-- The natural nearest to num/den, ties to even (R16). -/
def roundDiv (num den : Nat) : Nat :=
  let q := num / den
  let r := num % den
  if 2 * r > den ∨ (2 * r = den ∧ q % 2 = 1) then q + 1 else q

/-- Bits 30:0 of the binary32 nearest to (num/den)·2^−149, ties to even (R16): below 2^24 units the numbers
are the whole units; above, with k the excess of the leading bit over 23, the multiples of 2^k. The encoding
is k·2^23 plus the rounded multiple, a carry out of which moves to the next exponent, and one at or past the
exponent 255 is an infinity. -/
def roundMagnitude (num den : Nat) : Nat :=
  let k := (num / den).log2 - 23
  min (k * 2 ^ 23 + roundDiv num (den * 2 ^ k)) infinityMagnitude

/-- The word of ±(num/den)·2^−149 rounded once. -/
def roundSigned (neg : Bool) (num den : Nat) : Word := packSigned neg (roundMagnitude num den)

/-- NEG: bit 31 flipped and nothing else (R18). -/
def fNeg (a : Word) : Word := a ^^^ 0x80000000#32

/-- The exact sum of two signed naturals, with the sign of an exact zero that R16 gives: −0 only for
(−0) + (−0), +0 otherwise. -/
def addSigned (na : Bool) (ma : Nat) (nb : Bool) (mb : Nat) : Bool × Nat :=
  if na = nb then (na, ma + mb)
  else if ma = mb then (false, 0)
  else if ma < mb then (nb, mb - ma)
  else (na, ma - mb)

/-- ADD (R16, R17). -/
def fAdd (a b : Word) : Word :=
  match unpack a, unpack b with
  | .nan, _ => canonicalNaN
  | _, .nan => canonicalNaN
  | .infinite na, .infinite nb => if na = nb then packInfinity na else canonicalNaN
  | .infinite na, .finite _ _ => packInfinity na
  | .finite _ _, .infinite nb => packInfinity nb
  | .finite na ma, .finite nb mb =>
    let r := addSigned na ma nb mb
    roundSigned r.1 r.2 1

/-- SUB: the sum of a and the negative of b (R16). -/
def fSub (a b : Word) : Word := fAdd a (fNeg b)

/-- MUL (R16, R17): the product of the multiples is in units of 2^−298. -/
def fMul (a b : Word) : Word :=
  match unpack a, unpack b with
  | .nan, _ => canonicalNaN
  | _, .nan => canonicalNaN
  | .infinite na, .infinite nb => packInfinity (na != nb)
  | .infinite na, .finite nb mb => if mb = 0 then canonicalNaN else packInfinity (na != nb)
  | .finite na ma, .infinite nb => if ma = 0 then canonicalNaN else packInfinity (na != nb)
  | .finite na ma, .finite nb mb => roundSigned (na != nb) (ma * mb) (2 ^ 149)

/-- DIV (R16, R17): by a zero an infinity of the XOR sign, but 0/0 and inf/inf are NaN. -/
def fDiv (a b : Word) : Word :=
  match unpack a, unpack b with
  | .nan, _ => canonicalNaN
  | _, .nan => canonicalNaN
  | .infinite _, .infinite _ => canonicalNaN
  | .infinite na, .finite nb _ => packInfinity (na != nb)
  | .finite na _, .infinite nb => packSigned (na != nb) 0
  | .finite na ma, .finite nb mb =>
    if mb = 0 then (if ma = 0 then canonicalNaN else packInfinity (na != nb))
    else roundSigned (na != nb) (ma * 2 ^ 149) mb

/-- The whole square root of `x`, from the root `r` of its high part and `b` low bits still to settle. -/
def isqrtFrom (x : Nat) : Nat → Nat → Nat
  | 0, r => r
  | b + 1, r =>
    let c := r + 2 ^ b
    isqrtFrom x b (if c * c ≤ x then c else r)

/-- The largest natural whose square is at most `x`. -/
def isqrt (x : Nat) : Nat := isqrtFrom x (x.log2 / 2 + 1) 0

/-- SQRT (R20): the root of mag·2^−149 is √(mag·2^149) units of 2^−149. Where the whole root `r` is not
exact, r + 1/2 stands for it: the root lies strictly between r and r + 1 and the rounding step is at least
2, so both round alike. -/
def fSqrt (a : Word) : Word :=
  match unpack a with
  | .nan => canonicalNaN
  | .infinite neg => if neg then canonicalNaN else packInfinity false
  | .finite neg mag =>
    if mag = 0 then a
    else if neg then canonicalNaN
    else
      let x := mag * 2 ^ 149
      let r := isqrt x
      roundSigned false (2 * r + (if r * r = x then 0 else 1)) 2

/-- Whether ±ma < ±mb, the two zeros being equal. -/
def ltSigned (na : Bool) (ma : Nat) (nb : Bool) (mb : Nat) : Bool :=
  match na, nb with
  | false, false => ma < mb
  | true, true => mb < ma
  | true, false => ma != 0 || mb != 0
  | false, true => false

/-- LT, the quiet less-than (R19). -/
def fLt (a b : Word) : Bool :=
  match unpack a, unpack b with
  | .nan, _ => false
  | _, .nan => false
  | .infinite na, .infinite nb => na && !nb
  | .infinite na, .finite _ _ => na
  | .finite _ _, .infinite nb => !nb
  | .finite na ma, .finite nb mb => ltSigned na ma nb mb

/-- I2F(n) (R20): exact for n ≤ 2^24. -/
def fOfNat (n : Nat) : Word := roundSigned false (n * 2 ^ 149) 1

/-- ZERO, +0 (R20). -/
def fZero : Word := 0x00000000#32

/-- ONE, 1.0 (R20). -/
def fOne : Word := 0x3F800000#32

/-- HALF, 0.5 (R20). -/
def fHalf : Word := 0x3F000000#32

/-- INVSQRT2, the binary32 nearest to 1/√2 (41_dct.md R172). -/
def fInvSqrt2 : Word := 0x3F3504F3#32

end Sys2Proof.Machine
end

