-- ==== Sys2Proof/Machine/Elementary.lean ====
section
/-!
DEFINITION. The correctly rounded SINQ, COSQ and LN (00_scope.md R21 to R23) and the numerics record of this
hardware (R9). A value is enclosed between two fixed-point numbers; where both ends round to the same
binary32, that is the nearest one. The precision grows until they do (log 10).
-/
namespace Sys2Proof.Machine

/-- ⌊π·2^1024⌋. -/
def piFixed1024 : Nat :=
  0x3243f6a8885a308d313198a2e03707344a4093822299f31d0082efa98ec4e6c89452821e638d01377be5466cf34e90c6cc0ac29b7c97c50dd3f84d5b5b54709179216d5d98979fb1bd1310ba698dfb5ac2ffd72dbd01adfb7b8e1afed6a267e96ba7c9045f12c7f9924a19947b3916cf70801f2e2858efc16636920d871574e69

/-- ⌊ln 2·2^1024⌋. -/
def ln2Fixed1024 : Nat :=
  0xb17217f7d1cf79abc9e3b39803f2f6af40f343267298b62d8a0d175b8baafa2be7b876206debac98559552fb4afa1b10ed2eae35c138214427573b291169b8253e96ca16224ae8c51acbda11317c387eb9ea9bc3b136603b256fa0ec7657f74b72ce87b19d6548caf5dfa6bd38303248655fa1872f20e3a2da2d97c50f3fd5c6

/-- ⌊π·2^w⌋ for w ≤ 1024. -/
def piFixed (w : Nat) : Nat := piFixed1024 / 2 ^ (1024 - w)

/-- ⌊ln 2·2^w⌋ for w ≤ 1024. -/
def ln2Fixed (w : Nat) : Nat := ln2Fixed1024 / 2 ^ (1024 - w)

/-- How far, in units of 2^−w, a computed value may be from the exact one: more than the truncations of the
series below add up to at any of the precisions used. -/
def enclosureRadius : Nat := 4096

/-- The fixed-point precisions tried, one after the other (log 10). -/
def precisions : List Nat := [128, 256, 512, 1024]

/-- Bits 30:0 of the binary32 nearest to the value that `value w` approximates within the radius, in units of
2^−w. The first precision whose two ends round alike decides; past the last one, the last lower end. -/
def nearestFrom (value : Nat → Nat) : List Nat → Nat → Nat
  | [], last => last
  | w :: ws, _ =>
    let v := value w
    let lo := roundMagnitude ((v - enclosureRadius) * 2 ^ 149) (2 ^ w)
    let hi := roundMagnitude ((v + enclosureRadius) * 2 ^ 149) (2 ^ w)
    if lo = hi then lo else nearestFrom value ws lo

/-- Bits 30:0 of the binary32 nearest to the approximated value. -/
def nearest (value : Nat → Nat) : Nat := nearestFrom value precisions 0

/-! ### Sine and cosine -/

/-- The alternating Taylor tail t − t·x²/(j(j+1)) + …, where `x2` is x²·2^w and `t` the first term. -/
def sinTail (w x2 : Nat) : Nat → Nat → Nat → Nat
  | 0, _, _ => 0
  | fuel + 1, j, t => t - sinTail w x2 fuel (j + 2) (t * x2 / 2 ^ w / (j * (j + 1)))

/-- sin(π·a/b) in units of 2^−w, for 0 < a/b ≤ 1/2. -/
def sinValue (a b w : Nat) : Nat :=
  let x := piFixed w * a / b
  sinTail w (x * x / 2 ^ w) (w / 6 + 4) 2 x

/-- Bits 30:0 of the binary32 nearest to sin(π·a/b), for 0 < a < b. The angle is folded into the first
quadrant and the fraction reduced, so that the result depends on a/b only; sin(π/2) = 1.0 exactly. -/
def sinMagnitude (a b : Nat) : Nat :=
  let a' := min a (b - a)
  let g := Nat.gcd a' b
  if 2 * a' = b then 0x3F800000 else nearest (sinValue (a' / g) (b / g))

/-- SINQ(p, q): the binary32 nearest to sin(2π·p/q), +0 where the exact value is 0 (R21). -/
def fSinq (p q : Nat) : Word :=
  let r := p % q
  if r = 0 ∨ 2 * r = q then 0#32
  else if 2 * r < q then packSigned false (sinMagnitude (2 * r) q)
  else packSigned true (sinMagnitude (2 * r - q) q)

/-- COSQ(p, q): the binary32 nearest to cos(2π·p/q) = sin(2π·(4p + q)/(4q)), +0 where the exact value is 0
(R22). -/
def fCosq (p q : Nat) : Word := fSinq (4 * p + q) (4 * q)

/-! ### Natural logarithm -/

/-- The tail p/j + p·z²/(j+2) + … of the series of artanh, where `z2` is z²·2^w and `p` a power of z. -/
def artanhTail (w z2 : Nat) : Nat → Nat → Nat → Nat
  | 0, _, _ => 0
  | fuel + 1, j, p => p / j + artanhTail w z2 fuel (j + 2) (p * z2 / 2 ^ w)

/-- The power of two nearest in ratio to mag: the exponent L with mag/2^L in [1/√2, √2). -/
def centredLog2 (mag : Nat) : Nat :=
  let l := mag.log2
  if 2 ^ (2 * l + 1) ≤ mag * mag then l + 1 else l

/-- ln(mag·2^−149) in units of 2^−w: with z = (mag − 2^L)/(mag + 2^L) it is 2·artanh z + (L − 149)·ln 2. -/
def lnValue (mag w : Nat) : Int :=
  let l := centredLog2 mag
  let c := 2 ^ l
  let z := (max mag c - min mag c) * 2 ^ w / (mag + c)
  let s : Int := 2 * artanhTail w (z * z / 2 ^ w) (w / 5 + 2) 1 z
  (if c ≤ mag then s else -s) + ((l : Int) - 149) * (ln2Fixed w : Int)

/-- LN (R23): −inf at either zero, NaN below zero, LN(1.0) = +0. -/
def fLn (a : Word) : Word :=
  match unpack a with
  | .nan => canonicalNaN
  | .infinite neg => if neg then canonicalNaN else packInfinity false
  | .finite neg mag =>
    if mag = 0 then packInfinity true
    else if neg then canonicalNaN
    else if mag = 2 ^ 149 then 0#32
    else packSigned (mag < 2 ^ 149) (nearest fun w => (lnValue mag w).natAbs)

/-- The numerics record of this hardware: binary32 with the operations of R15 to R23 (R9). -/
def binary32 : Numerics Word where
  add := fAdd
  sub := fSub
  mul := fMul
  div := fDiv
  sqrt := fSqrt
  neg := fNeg
  lt := fLt
  ln := fLn
  sinq := fSinq
  cosq := fCosq
  ofNat := fOfNat
  zero := fZero
  one := fOne
  half := fHalf
  invSqrt2 := fInvSqrt2

end Sys2Proof.Machine
end

