-- ==== Sys2Proof/Machine/Flags.lean ====
section
/-!
DEFINITION. The four sticky bits of STATUS (10_state.md R33, R44) and the codes of RESULT
(60_exceptions.md R240). ZAFE has no other flag (R33).
-/
namespace Sys2Proof.Machine

/-- The bit of STATUS that is the unit's BAD flag: bit u − 1 (R44, R247). -/
def EngineUnit.badBit : EngineUnit → Word
  | .fft => 0x1#32
  | .dct => 0x2#32
  | .mel => 0x4#32

/-- The bit of STATUS that is ILL: bit 3 (R44). -/
def illBit : Word := 0x8#32

/-- STATUS.BAD[u] = 1. -/
def State.isBad (s : State) (u : EngineUnit) : Bool := s.status &&& u.badBit != 0#32

/-- STATUS.ILL = 1. -/
def State.isIll (s : State) : Bool := s.status &&& illBit != 0#32

/-- STATUS.BAD[u] <- 1. -/
def State.setBad (s : State) (u : EngineUnit) : State := { s with status := s.status ||| u.badBit }

/-- STATUS.BAD[u] <- 0. -/
def State.clearBad (s : State) (u : EngineUnit) : State := { s with status := s.status &&& ~~~u.badBit }

/-- STATUS.ILL <- 1. -/
def State.setIll (s : State) : State := { s with status := s.status ||| illBit }

/-- code(K) (R240). -/
def ErrorKind.code : ErrorKind → Word
  | .dataSizeMismatch => 1#32
  | .invalidSize => 2#32
  | .badState => 3#32
  | .illegalCommand => 4#32
  | .badTable => 5#32

/-- The code of Ok (R240). -/
def okCode : Word := 0#32

end Sys2Proof.Machine
end

