-- ==== Sys2Proof/Machine/Operands.lean ====
section
/-!
DEFINITION. The operands of commands: the integer functions of the length checks (00_scope.md R25, R26)
and the buffers with their place in the window (20_memory.md R73, R76, R78).
-/
namespace Sys2Proof.Machine

/-- ispow2(n) of R25: n = 2^k for a natural k; true of 1, false of 0. -/
def isPow2 (n : Nat) : Bool := n != 0 && 2 ^ n.log2 == n

/-- The sum of R26: the `L` low bits of `i`, of which the first `b` have been passed, in reverse. -/
def bitrevFrom (i L : Nat) : Nat → Nat
  | 0 => 0
  | b + 1 => bitrevFrom i L b + (i / 2 ^ b % 2) * 2 ^ (L - 1 - b)

/-- bitrev(i, L) of R26. -/
def bitrev (i L : Nat) : Nat := bitrevFrom i L L

/-- All buffers, in the order of the map (R73). -/
def allBuffers : List Buffer :=
  [.sintab, .real, .imag, .spec, .bin, .wgt, .chan, .dctwr, .dctwi, .dctd]

/-- The window base of a buffer, a byte offset from BASE (R73). -/
def Buffer.base : Buffer → Nat
  | .sintab => 0x04000
  | .real => 0x08000
  | .imag => 0x0C000
  | .spec => 0x10000
  | .bin => 0x14000
  | .wgt => 0x18000
  | .chan => 0x1C000
  | .dctwr => 0x1D000
  | .dctwi => 0x1E000
  | .dctd => 0x20000

/-- The window size of a buffer, in bytes (R73). -/
def Buffer.windowSize : Buffer → Nat
  | .sintab | .real | .imag | .spec | .bin | .wgt => 0x04000
  | .chan | .dctwr | .dctwi => 0x01000
  | .dctd => 0x02000

/-- The number of implemented elements of a buffer (R73; 10_state.md R55 to R62). -/
def Buffer.elements (c : Config) : Buffer → Nat
  | .sintab => c.mmax - c.mmax / 4 + 1
  | .real | .imag => c.mmax
  | .spec => c.mmax / 2 + 1
  | .bin | .wgt => c.mmax / 2
  | .chan => c.nbmax + 2
  | .dctwr | .dctwi => c.ndmax
  | .dctd => 2 * c.ndmax

/-- Whether the host may write a buffer: the column "Host access" is RW (R73, R78). -/
def Buffer.hostWritable : Buffer → Bool
  | .sintab | .dctwr | .dctwi => false
  | .real | .imag | .spec | .bin | .wgt | .chan | .dctd => true

/-- The offset of element i: window base + 4·i (R76). -/
def Buffer.elemOffset (b : Buffer) (i : Nat) : Nat := b.base + 4 * i

/-- Whether a word-aligned offset is an implemented element of `b` (R74, R77). -/
def Buffer.covers (c : Config) (off : Nat) (b : Buffer) : Bool :=
  b.base ≤ off && off < b.elemOffset (b.elements c)

/-- The buffer and the element number at a word-aligned offset, if an element is implemented there. -/
def locate (c : Config) (off : Nat) : Option (Buffer × Nat) :=
  (allBuffers.find? (Buffer.covers c off)).map fun b => (b, (off - b.base) / 4)

/-- All registers, in the order of the map (10_state.md R40). -/
def allRegisters : List Register :=
  [.id, .cmd, .result, .status, .fftM, .dctN, .melNb, .melLen, .melFloor, .cap0, .cap1]

/-- The offset of a register (10_state.md R40). -/
def Register.offset : Register → Nat
  | .id => 0x00000
  | .cmd => 0x00004
  | .result => 0x00008
  | .status => 0x0000C
  | .fftM => 0x00010
  | .dctN => 0x00014
  | .melNb => 0x00018
  | .melLen => 0x0001C
  | .melFloor => 0x00020
  | .cap0 => 0x00024
  | .cap1 => 0x00028

/-- The register at an offset; every other offset below the first window is reserved (R40, R52). -/
def registerAt (off : Nat) : Option Register := allRegisters.find? fun r => r.offset == off

/-- FFT_M, DCT_N, MEL_NB and MEL_LEN as the naturals the rules compute with (R27). -/
def State.fftSize (s : State) : Nat := s.fftM.toNat
@[inherit_doc State.fftSize] def State.dctSize (s : State) : Nat := s.dctN.toNat
@[inherit_doc State.fftSize] def State.melChannels (s : State) : Nat := s.melNb.toNat
@[inherit_doc State.fftSize] def State.melLength (s : State) : Nat := s.melLen.toNat

/-- Whether the spec says what element `i` of `b` holds once it is written: SINTAB only up to 3·FFT_M/4 and
only while FFT_M is not 0 (10_state.md R55), DCTWR and DCTWI only below DCT_N (R62), every other element
always (R66). -/
def State.elemSpecified (s : State) (b : Buffer) (i : Nat) : Bool :=
  match b with
  | .sintab => s.fftSize != 0 && i ≤ s.fftSize - s.fftSize / 4
  | .dctwr | .dctwi => i < s.dctSize
  | .real | .imag | .spec | .bin | .wgt | .chan | .dctd => true

end Sys2Proof.Machine
end

