-- ==== Sys2Proof/Machine/Ops.lean ====
section
/-!
DEFINITION. The named operations over memory and registers that the commands and the host accesses share:
little-endian words in byte memory (20_memory.md R71), elements of buffers (R76, R88), the registers
(10_state.md R40 to R51), raising an error (60_exceptions.md R247), returning Ok (00_scope.md R13), the
dispatch of a decoded command (30_encoding.md R114) and both resets (70_reset_and_hazards.md R281, R282).
-/
namespace Sys2Proof.Machine

/-! ### Bytes and words -/

/-- The byte at an offset, `none` where nothing has written it since hardware reset. -/
def Memory.byte? : Memory → Nat → Option Byte
  | [], _ => none
  | (k, v) :: m, a => if a = k then some v else Memory.byte? m a

/-- The memory with one byte written. -/
def Memory.setByte : Memory → Nat → Byte → Memory
  | [], a, v => [(a, v)]
  | (k, w) :: m, a, v =>
    if a < k then (a, v) :: (k, w) :: m
    else if a = k then (a, v) :: m
    else (k, w) :: Memory.setByte m a v

/-- Byte `j` of a word: byte 0 holds bits 7:0 (R71). -/
def byteOfWord (w : Word) (j : Nat) : Byte := w.extractLsb' (8 * j) 8

/-- The word whose bytes 0 to 3 are given (R71). -/
def wordOfBytes (b0 b1 b2 b3 : Byte) : Word :=
  BitVec.ofNat 32 (b0.toNat + b1.toNat * 2 ^ 8 + b2.toNat * 2 ^ 16 + b3.toNat * 2 ^ 24)

/-- The word at an offset, `none` where one of its bytes has not been written. -/
def Memory.word? (m : Memory) (off : Nat) : Option Word :=
  match m.byte? off, m.byte? (off + 1), m.byte? (off + 2), m.byte? (off + 3) with
  | some b0, some b1, some b2, some b3 => some (wordOfBytes b0 b1 b2 b3)
  | _, _, _, _ => none

/-- The memory with one word written (R71). -/
def Memory.setWord (m : Memory) (off : Nat) (w : Word) : Memory :=
  (((m.setByte off (byteOfWord w 0)).setByte (off + 1) (byteOfWord w 1)).setByte
    (off + 2) (byteOfWord w 2)).setByte (off + 3) (byteOfWord w 3)

/-! ### Elements of buffers -/

/-- What element `i` of `b` holds, `none` where nothing has written it. -/
def State.elem? (s : State) (b : Buffer) (i : Nat) : Option Word := s.mem.word? (b.elemOffset i)

/-- One observation of an unspecified word: the next free value (10_state.md R66, 93 U1; log 3). -/
def drawWord : StateM State Word := fun s =>
  (Config.freeWord s.draws, { s with draws := s.draws + 1 })

/-- The engine's read of `BUF[i]` (00_scope.md R11, 20_memory.md R88). A word that nothing has written is an
unspecified operand (70_reset_and_hazards.md R297). -/
def readElem (b : Buffer) (i : Nat) : StateM State Word := fun s =>
  match s.elem? b i with
  | some w => (w, s)
  | none => drawWord s

/-- `BUF[i] <- w` (00_scope.md R11). -/
def writeElem (b : Buffer) (i : Nat) (w : Word) : StateM State Unit := fun s =>
  ((), { s with mem := s.mem.setWord (b.elemOffset i) w })

/-! ### Registers -/

/-- What a host read of a register gives (10_state.md R41 to R51); `none` for the write-only CMD (R42).
RESULT gives bits 7:0 and STATUS bits 3:0, their upper bits read 0 (R43, R44). -/
def State.register? (s : State) : Register → Option Word
  | .id => some 0x5A414645#32
  | .cmd => none
  | .result => some (s.result &&& 0xFF#32)
  | .status => some (s.status &&& 0xF#32)
  | .fftM => some s.fftM
  | .dctN => some s.dctN
  | .melNb => some s.melNb
  | .melLen => some s.melLen
  | .melFloor => some s.melFloor
  | .cap0 => some (BitVec.ofNat 32 s.cfg.mmax)
  | .cap1 => some (BitVec.ofNat 32 (s.cfg.ndmax * 65536 + s.cfg.nbmax))

/-! ### The end of a command -/

/-- `raise K` in a command of unit `u`, or of no unit for IllegalCommand (60_exceptions.md R247): RESULT gets
the code, one flag is set (none by BadState), nothing else is written. -/
def State.raise (s : State) (u : Option EngineUnit) (k : ErrorKind) : State :=
  let t := { s with result := k.code }
  match k, u with
  | .illegalCommand, _ => t.setIll
  | .badState, _ => t
  | _, some u => t.setBad u
  | _, none => t

/-- `return Ok`: RESULT <- 0 (00_scope.md R13). -/
def State.returnOk (s : State) : State := { s with result := okCode }

/-! ### Dispatch of a decoded command, steps 3 to 6 of R114 -/

/-- A command's own rule: its checks, of which the first that fails gives an error kind, then its effect. -/
abbrev CommandBody := StateM State (Option ErrorKind)

/-- Steps 5 and 6: run the rule; a raise ends the command, otherwise it returns Ok. -/
def runBody (u : EngineUnit) (body : CommandBody) (s : State) : State :=
  match body s with
  | (none, t) => t.returnOk
  | (some k, t) => t.raise (some u) k

/-- Step 3 and then steps 5 and 6: a command that is not an INIT command raises BadState on a bad unit,
before its own checks (R114, R243). -/
def runCommand (u : EngineUnit) (body : CommandBody) (s : State) : State :=
  if s.isBad u then s.raise (some u) .badState else runBody u body s

/-- Step 4's `size registers of unit u <- 0`. -/
def State.clearSizes (s : State) : EngineUnit → State
  | .fft => { s with fftM := 0#32 }
  | .dct => { s with dctN := 0#32 }
  | .mel => { s with melNb := 0#32, melLen := 0#32 }

/-- Step 4: an INIT command discards the old construction before it validates. -/
def State.discard (s : State) (u : EngineUnit) : State := (s.clearBad u).clearSizes u

/-- Steps 4, 5 and 6, for an INIT command; step 3 never refuses one. -/
def runInit (u : EngineUnit) (body : CommandBody) (s : State) : State := runBody u body (s.discard u)

/-! ### Resets -/

/-- The register values after either reset (70_reset_and_hazards.md R281). -/
def State.resetRegisters (s : State) : State :=
  { s with
    result := 0#32, status := 0#32, fftM := 0#32, dctN := 0#32, melNb := 0#32, melLen := 0#32,
    melFloor := 0x3F800000#32 }

/-- Hardware reset between two host accesses (R280): the registers as R281 says, every word of every buffer
unspecified (R282). The free values go on where they were (log 7). -/
def State.hardwareReset (s : State) : State := { s.resetRegisters with mem := [], response := none }

end Sys2Proof.Machine
end

