-- ==== Sys2Proof/Machine/Engine.lean ====
section
/-!
DEFINITION. How the kernels reach the machine's own buffers (00_scope.md R11, 20_memory.md R88).
-/
namespace Sys2Proof.Machine

/-- The engine's access to a buffer of the machine. -/
def elemPort (b : Buffer) : Port State Word where
  rd := readElem b
  wr := writeElem b

/-- The store after a piece of pseudocode. -/
def effect {σ : Type} (m : StateM σ Unit) (s : σ) : σ := (m s).2

end Sys2Proof.Machine
end

