-- ==== Sys2Proof/Machine/Dct.lean ====
section
/-!
DEFINITION. The commands of the DCT unit: DCT.INIT, DCT.APPLY (41_dct.md R171, R175).
-/
namespace Sys2Proof.Machine

/-- The DCT unit's own tables and buffer (R170). -/
def dctPorts : DctPorts State Word where
  wr := elemPort .dctwr
  wi := elemPort .dctwi
  data := elemPort .dctd

/-- The rule of DCT.INIT (R171), after the dispatch has cleared DCT_BAD and DCT_N. -/
def dctInitBody (n : Nat) : CommandBody := fun s =>
  if n < 1 ∨ n > s.cfg.ndmax then (some .invalidSize, s)
  else (none, { effect (buildTwiddle binary32 dctPorts n) s with dctN := BitVec.ofNat 32 n })

/-- The rule of DCT.APPLY (R175). -/
def dctApplyBody (dlen : Nat) : CommandBody := fun s =>
  if s.dctSize = 0 ∨ dlen ≠ 2 * s.dctSize then (some .invalidSize, s)
  else (none, effect (dctCore binary32 dctPorts s.dctSize) s)

/-- DCT.INIT N (R171). -/
def execDctInit (n : Nat) (s : State) : Host.Outcome State Fault Refusal :=
  .next (runInit .dct (dctInitBody n) s)

/-- DCT.APPLY DLEN (R175). -/
def execDctApply (dlen : Nat) (s : State) : Host.Outcome State Fault Refusal :=
  .next (runCommand .dct (dctApplyBody dlen) s)

end Sys2Proof.Machine
end

