-- ==== Sys2Proof/Machine/FftKernel.lean ====
section
/-!
DEFINITION. The pseudocode of the FFT unit (40_fft.md R131, R136 to R139, R142 to R146), over a numerics
record and the accesses to SINTAB, REAL and IMAG. Every mention of `BUF[i]` on the right of an arrow is one
read, made in the order of the text from left to right (log 11).
-/
namespace Sys2Proof.Machine

/-- The accesses of the FFT unit: SINTAB, REAL, IMAG (R130). -/
structure FftPorts (σ F : Type) where
  sin : Port σ F
  re : Port σ F
  im : Port σ F

variable {σ F : Type}

/-- The table of R131: `for i in 0..(M - M/4): SINTAB[i] <- SINQ(i, M)`. -/
def buildSineTable (N : Numerics F) (P : FftPorts σ F) (M : Nat) : StateM σ Unit :=
  loop 0 (M - M / 4 + 1) fun i => P.sin.wr i (N.sinq i M)

/-- The butterfly of R136 on the elements p and q with sine s and cosine c. -/
def butterfly (N : Numerics F) (P : FftPorts σ F) (s c : F) (p q : Nat) : StateM σ Unit := do
  let t1 := N.sub (← P.re.rd p) (← P.re.rd q)
  let t2 := N.sub (← P.im.rd p) (← P.im.rd q)
  P.re.wr p (N.add (← P.re.rd p) (← P.re.rd q))
  P.im.wr p (N.add (← P.im.rd p) (← P.im.rd q))
  P.re.wr q (N.add (N.mul c t1) (N.mul s t2))
  P.im.wr q (N.sub (N.mul c t2) (N.mul s t1))

/-- One pass of R136 with table step lf and block stride lix: for each j the blocks b = 0, lix, …, n − lix. -/
def fftPass (N : Numerics F) (P : FftPorts σ F) (M n lf lix : Nat) : StateM σ Unit :=
  loop 0 (lix / 2) fun j => do
    let s ← P.sin.rd (j * lf)
    let c ← P.sin.rd (j * lf + M / 4)
    loop 0 (n / lix) fun b => butterfly N P s c (b * lix + j) (b * lix + j + lix / 2)

/-- `while lix / 2 > 1` of R136: the passes with half-span 2 or more, lf doubling and lix halving. The first
argument bounds the number of rounds. -/
def fftPasses (N : Numerics F) (P : FftPorts σ F) (M n : Nat) : Nat → Nat → Nat → StateM σ Unit
  | 0, _, _ => pure ()
  | fuel + 1, lf, lix =>
    if lix / 2 > 1 then do
      fftPass N P M n lf lix
      fftPasses N P M n fuel (2 * lf) (lix / 2)
    else pure ()

/-- The final pass of R136 and R138 on the pair p, p+1: sum and difference, no multiplication. -/
def finalPair (N : Numerics F) (P : FftPorts σ F) (p : Nat) : StateM σ Unit := do
  let t1 := N.sub (← P.re.rd p) (← P.re.rd (p + 1))
  let t2 := N.sub (← P.im.rd p) (← P.im.rd (p + 1))
  P.re.wr p (N.add (← P.re.rd p) (← P.re.rd (p + 1)))
  P.im.wr p (N.add (← P.im.rd p) (← P.im.rd (p + 1)))
  P.re.wr (p + 1) t1
  P.im.wr (p + 1) t2

/-- `for p in 0..n-2 step 2` of R136: n/2 pairs. -/
def finalPass (N : Numerics F) (P : FftPorts σ F) (n : Nat) : StateM σ Unit :=
  loop 0 (n / 2) fun h => finalPair N P (2 * h)

/-- The exchange of elements i and j of one buffer; the words move unchanged (R139). -/
def swapElems (B : Port σ F) (i j : Nat) : StateM σ Unit := do
  let x ← B.rd i
  let y ← B.rd j
  B.wr i y
  B.wr j x

/-- The bit reversal of R136 and R139: each pair with i < bitrev(i, L) once. -/
def bitReversal (P : FftPorts σ F) (n : Nat) : StateM σ Unit :=
  loop 0 n fun i =>
    let j := bitrev i n.log2
    if i < j then do
      swapElems P.re i j
      swapElems P.im i j
    else pure ()

/-- fft_core(n) of R136, on a table built for M. -/
def fftCore (N : Numerics F) (P : FftPorts σ F) (M n : Nat) : StateM σ Unit := do
  fftPasses N P M n n.log2 (M / n) n
  finalPass N P n
  bitReversal P n

/-- Step 1 of FFTR (R142): even elements of REAL to REAL, odd ones to IMAG, in place and ascending. -/
def deinterleave (P : FftPorts σ F) (m : Nat) : StateM σ Unit :=
  loop 0 m fun i => do
    let x ← P.re.rd i
    if i % 2 = 0 then P.re.wr (i / 2) x else P.im.wr ((i - 1) / 2) x

/-- One round of step 3 of FFTR (R144), with h = m/2 and table step M/m. -/
def splitRound (N : Numerics F) (P : FftPorts σ F) (M m t : Nat) : StateM σ Unit := do
  let h := m / 2
  let s ← P.sin.rd (t * (M / m))
  let c ← P.sin.rd (t * (M / m) + M / 4)
  let ti := N.add (← P.im.rd (h - t)) (← P.im.rd t)
  let tr := N.sub (← P.re.rd t) (← P.re.rd (h - t))
  P.re.wr (m - t) (N.mul N.half
    (N.sub (N.add (N.add (← P.re.rd t) (← P.re.rd (h - t))) (N.mul c ti)) (N.mul s tr)))
  P.im.wr (m - t) (N.mul N.half
    (N.add (N.add (N.sub (← P.im.rd (h - t)) (← P.im.rd t)) (N.mul s ti)) (N.mul c tr)))

/-- Step 3 of FFTR (R144): `for t in 1..h-1`. -/
def split (N : Numerics F) (P : FftPorts σ F) (M m : Nat) : StateM σ Unit :=
  loop 1 (m / 2 - 1) fun t => splitRound N P M m t

/-- Step 3' of FFTR (R145): indices h and 0, in this order. -/
def splitEnds (N : Numerics F) (P : FftPorts σ F) (h : Nat) : StateM σ Unit := do
  P.re.wr h (N.sub (← P.re.rd 0) (← P.im.rd 0))
  P.im.wr h N.zero
  P.re.wr 0 (N.add (← P.re.rd 0) (← P.im.rd 0))
  P.im.wr 0 N.zero

/-- Step 4 of FFTR (R146): the conjugate-symmetry fill, `for i in 1..h-1`. -/
def conjugateFill (N : Numerics F) (P : FftPorts σ F) (m : Nat) : StateM σ Unit :=
  loop 1 (m / 2 - 1) fun i => do
    P.re.wr i (← P.re.rd (m - i))
    P.im.wr i (N.neg (← P.im.rd (m - i)))

/-- The effect of FFTR (R141): its steps in order. -/
def fftrCore (N : Numerics F) (P : FftPorts σ F) (M m : Nat) : StateM σ Unit := do
  deinterleave P m
  fftCore N P M (m / 2)
  split N P M m
  splitEnds N P (m / 2)
  conjugateFill N P m

end Sys2Proof.Machine
end

