-- ==== Sys2Proof/Machine/Fft.lean ====
section
/-!
DEFINITION. The commands of the FFT unit: FFT.INIT, FFT, FFTR (40_fft.md R131, R137, R141).
-/
namespace Sys2Proof.Machine

/-- The FFT unit's own table and buffers (R130). -/
def fftPorts : FftPorts State Word where
  sin := elemPort .sintab
  re := elemPort .real
  im := elemPort .imag

/-- The rule of FFT.INIT (R131), after the dispatch has cleared FFT_BAD and FFT_M. -/
def fftInitBody (m : Nat) : CommandBody := fun s =>
  if isPow2 m = false ∨ m < 4 ∨ m > s.cfg.mmax then (some .invalidSize, s)
  else (none, { effect (buildSineTable binary32 fftPorts m) s with fftM := BitVec.ofNat 32 m })

/-- The rule of FFT (R137): DataSizeMismatch, then InvalidSize, then the transform in place. -/
def fftBody (rlen ilen : Nat) : CommandBody := fun s =>
  if rlen ≠ ilen then (some .dataSizeMismatch, s)
  else if isPow2 rlen = false ∨ rlen > s.fftSize then (some .invalidSize, s)
  else (none, effect (fftCore binary32 fftPorts s.fftSize rlen) s)

/-- The rule of FFTR (R141): DataSizeMismatch, then InvalidSize, then the steps. -/
def fftrBody (rlen ilen : Nat) : CommandBody := fun s =>
  if rlen ≠ ilen then (some .dataSizeMismatch, s)
  else if isPow2 rlen = false ∨ rlen > s.fftSize ∨ rlen < 2 then (some .invalidSize, s)
  else (none, effect (fftrCore binary32 fftPorts s.fftSize rlen) s)

/-- FFT.INIT M (R131). -/
def execFftInit (m : Nat) (s : State) : Host.Outcome State Fault Refusal :=
  .next (runInit .fft (fftInitBody m) s)

/-- FFT RLEN, ILEN (R137). -/
def execFft (rlen ilen : Nat) (s : State) : Host.Outcome State Fault Refusal :=
  .next (runCommand .fft (fftBody rlen ilen) s)

/-- FFTR RLEN, ILEN (R141). -/
def execFftr (rlen ilen : Nat) (s : State) : Host.Outcome State Fault Refusal :=
  .next (runCommand .fft (fftrBody rlen ilen) s)

end Sys2Proof.Machine
end

