-- ==== Sys2Proof/Machine/MelKernel.lean ====
section
/-!
DEFINITION. The pseudocode of the MEL unit (42_mel.md R205, R212, R214), over a numerics record and the
accesses to REAL, IMAG, SPEC, WGT and CHAN.
-/
namespace Sys2Proof.Machine

/-- The accesses of the MEL unit to its float buffers and to the FFT unit's data (R200). -/
structure MelPorts (σ F : Type) where
  re : Port σ F
  im : Port σ F
  spec : Port σ F
  wgt : Port σ F
  chan : Port σ F

variable {σ F : Type}

/-- The effect of MEL.MAG (R205): `for k in 1..LEN`. -/
def magnitude (N : Numerics F) (P : MelPorts σ F) (len : Nat) : StateM σ Unit :=
  loop 1 len fun k => do
    P.spec.wr k (N.sqrt (N.add (N.mul (← P.re.rd k) (← P.re.rd k)) (N.mul (← P.im.rd k) (← P.im.rd k))))

/-- The clearing of R212: `for c in 0..NB+1: CHAN[c] <- ZERO`. -/
def clearChannels (N : Numerics F) (P : MelPorts σ F) (nb : Nat) : StateM σ Unit :=
  loop 0 (nb + 2) fun c => P.chan.wr c N.zero

/-- The share of bin k that goes to its lower channel, with the guard `fnum > 0` (R212, R213). -/
def lowerShare (N : Numerics F) (P : MelPorts σ F) (k fnum : Nat) : StateM σ Unit :=
  if fnum > 0 then do
    P.chan.wr fnum (N.add (← P.chan.rd fnum) (N.mul (← P.wgt.rd k) (← P.spec.rd k)))
  else pure ()

/-- The share of bin k that goes to its upper channel, with the guard `fnum <= LEN` (R212, R213). -/
def upperShare (N : Numerics F) (P : MelPorts σ F) (len k fnum : Nat) : StateM σ Unit :=
  if fnum ≤ len then do
    P.chan.wr (fnum + 1)
      (N.add (← P.chan.rd (fnum + 1)) (N.mul (N.sub N.one (← P.wgt.rd k)) (← P.spec.rd k)))
  else pure ()

/-- One round k of the accumulation, with fnum = BIN[k] (R212). -/
def accumulateRound (N : Numerics F) (P : MelPorts σ F) (len k fnum : Nat) : StateM σ Unit := do
  lowerShare N P k fnum
  upperShare N P len k fnum

/-- The accumulation of R212: k ascending from 1, `fnums` the words BIN[1], …, BIN[LEN−1]. -/
def accumulate (N : Numerics F) (P : MelPorts σ F) (len : Nat) (fnums : List Nat) : StateM σ Unit :=
  loopList 1 fnums fun k fnum => accumulateRound N P len k fnum

/-- The floor and logarithm of R214: `for c in 1..NB`. DESIGN CHOICE (log 22): where the floor is a zero and the
total is negative the pseudocode of R214 (the floor replaces the total, so −inf) is followed, not its prose
(NaN). -/
def floorLn (N : Numerics F) (P : MelPorts σ F) (floor : F) (nb : Nat) : StateM σ Unit :=
  loop 1 nb fun c => do
    let v ← P.chan.rd c
    P.chan.wr c (N.ln (if N.lt v floor then floor else v))

/-- The effect of MEL.ACC after the table check (R210): clear, accumulate, floor and logarithm. -/
def melCore (N : Numerics F) (P : MelPorts σ F) (floor : F) (nb len : Nat) (fnums : List Nat) :
    StateM σ Unit := do
  clearChannels N P nb
  accumulate N P len fnums
  floorLn N P floor nb

end Sys2Proof.Machine
end

