-- ==== Sys2Proof/Machine/Mel.lean ====
section
/-!
DEFINITION. The commands of the MEL unit: MEL.INIT, MEL.MAG, MEL.ACC (42_mel.md R201, R205, R210).
-/
namespace Sys2Proof.Machine

/-- The buffers the MEL unit reads and writes (R200). -/
def melPorts : MelPorts State Word where
  re := elemPort .real
  im := elemPort .imag
  spec := elemPort .spec
  wgt := elemPort .wgt
  chan := elemPort .chan

/-- The rule of MEL.INIT (R201), after the dispatch has cleared MEL_BAD, MEL_NB and MEL_LEN. -/
def melInitBody (nb len : Nat) : CommandBody := fun s =>
  if nb < 1 ∨ nb > s.cfg.nbmax then (some .invalidSize, s)
  else if isPow2 len = false ∨ len > s.cfg.mmax / 2 then (some .invalidSize, s)
  else (none, { s with melNb := BitVec.ofNat 32 nb, melLen := BitVec.ofNat 32 len })

/-- The rule of MEL.MAG (R205). -/
def melMagBody : CommandBody := fun s =>
  if s.melLength = 0 then (some .invalidSize, s)
  else (none, effect (magnitude binary32 melPorts s.melLength) s)

/-- BIN[1], …, BIN[LEN−1] as naturals (R211, R212). Each word is observed once in the command: the value
checked is the value used, which keeps every index inside CHAN (20_memory.md R88; log 3). -/
def readBins (len : Nat) : StateM State (List Nat) :=
  collect 1 (len - 1) fun k => do
    let w ← readElem .bin k
    pure w.toNat

/-- The rule of MEL.ACC (R210): InvalidSize, then the table check of R211, then the effect. -/
def melAccBody : CommandBody := fun s =>
  if s.melLength = 0 then (some .invalidSize, s)
  else
    let bins := readBins s.melLength s
    if bins.1.any (fun fnum => fnum > s.melChannels) then (some .badTable, bins.2)
    else
      (none,
        effect (melCore binary32 melPorts s.melFloor s.melChannels s.melLength bins.1) bins.2)

/-- MEL.INIT NB, LEN (R201). -/
def execMelInit (nb len : Nat) (s : State) : Host.Outcome State Fault Refusal :=
  .next (runInit .mel (melInitBody nb len) s)

/-- MEL.MAG (R205). -/
def execMelMag (s : State) : Host.Outcome State Fault Refusal :=
  .next (runCommand .mel melMagBody s)

/-- MEL.ACC (R210). -/
def execMelAcc (s : State) : Host.Outcome State Fault Refusal :=
  .next (runCommand .mel melAccBody s)

end Sys2Proof.Machine
end

