-- ==== Sys2Proof/Machine/System.lean ====
section
/-!
DEFINITION. The system command SYS.RESET (43_system.md R230).
-/
namespace Sys2Proof.Machine

/-- SYS.RESET: the registers to their reset values and Ok, at step 2 of R114, before the BadState test; no
buffer word is written (R230, 70_reset_and_hazards.md R283). -/
def execSysReset (s : State) : Host.Outcome State Fault Refusal :=
  .next s.resetRegisters.returnOk

end Sys2Proof.Machine
end

