-- ==== Sys2Proof/Machine/Dispatch.lean ====
section
/-!
DEFINITION. The meaning of each command: steps 2 to 6 of 30_encoding.md R114 for a word that decodes.
-/
namespace Sys2Proof.Machine

def exec (i : Instr) (s : State) : Host.Outcome State Fault Refusal :=
  match i with
  | .sysReset => Sys2Proof.Machine.execSysReset s
  | .fftInit m => Sys2Proof.Machine.execFftInit m s
  | .fft rlen ilen => Sys2Proof.Machine.execFft rlen ilen s
  | .fftr rlen ilen => Sys2Proof.Machine.execFftr rlen ilen s
  | .dctInit n => Sys2Proof.Machine.execDctInit n s
  | .dctApply dlen => Sys2Proof.Machine.execDctApply dlen s
  | .melInit nb len => Sys2Proof.Machine.execMelInit nb len s
  | .melMag => Sys2Proof.Machine.execMelMag s
  | .melAcc => Sys2Proof.Machine.execMelAcc s

end Sys2Proof.Machine
end

