-- ==== Sys2Proof/Machine/HostAccess.lean ====
section
/-!
DEFINITION. What a host access and a hardware reset do (20_memory.md R72 to R80, 30_encoding.md R114,
70_reset_and_hazards.md R280 to R282).
-/
namespace Sys2Proof.Machine

/-- The size of the window, 256 KiB (20_memory.md R70). -/
def windowSize : Nat := 0x40000

/-- The only access: an aligned 32-bit word of the window (R72, R74). -/
def accessAllowed (off size : Nat) : Bool := size == 4 && off % 4 == 0 && off < windowSize

/-- The bus gives a response to the host; the block records nothing of it (R80; log 5). -/
def State.respond (s : State) (r : BusResponse) : State := { s with response := some r }

/-- BusError: no effect (R72, R77, R78, R80). -/
def busErrorAt (s : State) : State := s.respond .busError

/-- A host read of element `i`: what it holds, or a free value where the spec calls it unspecified
(R74; 10_state.md R55, R62, R66). -/
def hostReadElem (b : Buffer) (i : Nat) : StateM State Word := fun s =>
  if s.elemSpecified b i then readElem b i s else drawWord s

/-- The response to a read of a register: its value, or BusError on CMD (R74, R78). -/
def hostReadRegister (r : Register) (s : State) : State :=
  match s.register? r with
  | some w => s.respond (.readOk w)
  | none => busErrorAt s

/-- The response to a read of an offset that is no register: the element implemented there, or BusError
(R74, R77). -/
def hostReadWindow (off : Nat) (s : State) : State :=
  match locate s.cfg off with
  | some (b, i) =>
    let r := hostReadElem b i s
    r.2.respond (.readOk r.1)
  | none => busErrorAt s

/-- MemRead(off, size) (R74). -/
def hostRead (off size : Nat) (s : State) : State :=
  if accessAllowed off size then
    match registerAt off with
    | some r => hostReadRegister r s
    | none => hostReadWindow off s
  else busErrorAt s

/-- A write to a register other than CMD: MEL_FLOOR takes any pattern (10_state.md R49), every other one is
read-only (R78). -/
def hostWriteRegister (r : Register) (v : Word) (s : State) : State :=
  match r with
  | .melFloor => { s with melFloor := v }.respond .writeOk
  | .id | .cmd | .result | .status | .fftM | .dctN | .melNb | .melLen | .cap0 | .cap1 => busErrorAt s

/-- A write to an offset that is no register: the element of a writable buffer implemented there takes all 32
bits, anything else is BusError (R75, R77, R78). -/
def hostWriteWindow (off : Nat) (v : Word) (s : State) : State :=
  match locate s.cfg off with
  | some (b, i) => if b.hostWritable then ((writeElem b i v s).2).respond .writeOk else busErrorAt s
  | none => busErrorAt s

/-- MemWrite(off, size, v) to another offset than CMD (R75). -/
def hostWrite (off size : Nat) (v : Word) (s : State) : State :=
  if accessAllowed off size then
    match registerAt off with
    | some r => hostWriteRegister r v s
    | none => hostWriteWindow off v s
  else busErrorAt s

/-- A write of w to CMD (R79, 30_encoding.md R114): step 1 raises IllegalCommand on a word that does not
decode; a word that decodes runs its command. The bus response is ok whatever the outcome. -/
def command (w : Word) (s : State) : Host.Outcome State Fault Refusal :=
  match decode w with
  | .ok i => exec i (s.respond .writeOk)
  | .error _ => .next ((s.respond .writeOk).raise none .illegalCommand)

/-- Whether a host event is an access that executes a command (R79). -/
def isCommandWrite (off size : Nat) : Bool := size == 4 && off == Register.cmd.offset

/-- One host access or hardware reset, to completion (R85). -/
def perform (e : HostEvent) (s : State) : Host.Outcome State Fault Refusal :=
  match e with
  | .read off size => .next (hostRead off size s)
  | .write off size v => if isCommandWrite off size then command v s else .next (hostWrite off size v s)
  | .hardwareReset => .next s.hardwareReset

/-- The state with the host events still to come replaced. -/
def State.withHost (s : State) (h : List HostEvent) : State := { s with host := h }

/-- The host event that issues a command word (30_encoding.md R112). -/
def commandEvent (w : Word) : HostEvent := .write Register.cmd.offset 4 w

end Sys2Proof.Machine
end

