-- ==== Sys2Proof/Machine/Step.lean ====
section
/-!
DEFINITION. One step: the next host access or hardware reset. ZAFE fetches nothing (10_state.md R31): the
host's accesses are the program (30_encoding.md R112, R113), and the block waits when there is none
(70_reset_and_hazards.md R284; log 6).
-/
namespace Sys2Proof.Machine

/-- One step of the machine. -/
def step (s : State) : Host.Outcome State Fault Refusal :=
  match s.host with
  | [] => .next s
  | e :: rest => perform e (s.withHost rest)

/-- The state in which the host's next access writes the command word of an opcode-table row to CMD; the
accesses that were still to come follow it (log 13). -/
def State.withFetchWord (s : State) (nbits w : Nat) : State :=
  s.withHost (commandEvent (tableWord nbits w) :: s.host)

end Sys2Proof.Machine
end

