-- ==== Sys2Proof/Reference.lean ====
section
/-!
DEFINITION. What the three kernels compute, as plain functions of their inputs with the same roundings: the
recursive decimation in frequency that the iterative passes and the bit reversal of 40_fft.md R136 amount to,
the outputs of FFTR (R142 to R146), the entries of the twiddle tables (41_dct.md R172), the outputs of
DCT.APPLY (R177 to R179) and the channel values of MEL.ACC (42_mel.md R212, R214). Claims compare the kernels,
which work in place on buffers, with these functions.
-/
namespace Sys2Proof.Reference

open Sys2Proof.Machine

variable {F : Type}

/-- The sum half of a butterfly of R136: element j of the even frequencies' input, span h. -/
def butterflySum (N : Numerics F) (h : Nat) (x : Nat → F × F) (j : Nat) : F × F :=
  (N.add (x j).1 (x (j + h)).1, N.add (x j).2 (x (j + h)).2)

/-- The difference half of a butterfly of R136, turned by the twiddle of j/(2h): element j of the odd
frequencies' input. The cosine is the sine a quarter period on (R133). -/
def butterflyDiff (N : Numerics F) (h : Nat) (x : Nat → F × F) (j : Nat) : F × F :=
  let t1 := N.sub (x j).1 (x (j + h)).1
  let t2 := N.sub (x j).2 (x (j + h)).2
  let s := N.sinq j (2 * h)
  let c := N.sinq (j + h / 2) (2 * h)
  (N.add (N.mul c t1) (N.mul s t2), N.sub (N.mul c t2) (N.mul s t1))

/-- Decimation in frequency for length 2^L: output k comes from the sums for even k and from the turned
differences for odd k; length 2 has no multiplication (R138), length 1 is the identity. -/
def dif (N : Numerics F) : Nat → (Nat → F × F) → Nat → F × F
  | 0, x, _ => x 0
  | 1, x, k =>
    if k = 0 then (N.add (x 0).1 (x 1).1, N.add (x 0).2 (x 1).2)
    else (N.sub (x 0).1 (x 1).1, N.sub (x 0).2 (x 1).2)
  | L + 2, x, k =>
    if k % 2 = 0 then dif N (L + 1) (butterflySum N (2 ^ (L + 1)) x) (k / 2)
    else dif N (L + 1) (butterflyDiff N (2 ^ (L + 1)) x) (k / 2)

/-- Element m − t of FFTR's output, 1 ≤ t < h = m/2, from the half-size transform z (R144). -/
def splitValue (N : Numerics F) (m : Nat) (z : Nat → F × F) (t : Nat) : F × F :=
  let h := m / 2
  let s := N.sinq t m
  let c := N.sinq (t + m / 4) m
  let ti := N.add (z (h - t)).2 (z t).2
  let tr := N.sub (z t).1 (z (h - t)).1
  (N.mul N.half (N.sub (N.add (N.add (z t).1 (z (h - t)).1) (N.mul c ti)) (N.mul s tr)),
   N.mul N.half (N.add (N.add (N.sub (z (h - t)).2 (z t).2) (N.mul s ti)) (N.mul c tr)))

/-- Output k of FFTR for length m = 2^(L+1) and input x (R141 to R146). -/
def realFft (N : Numerics F) (L : Nat) (x : Nat → F) (k : Nat) : F × F :=
  let m := 2 ^ (L + 1)
  let h := 2 ^ L
  let z := dif N L fun r => (x (2 * r), x (2 * r + 1))
  if k = 0 then (N.add (z 0).1 (z 0).2, N.zero)
  else if k = h then (N.sub (z 0).1 (z 0).2, N.zero)
  else if h < k then splitValue N m z (m - k)
  else ((splitValue N m z k).1, N.neg (splitValue N m z k).2)

/-- DCTWR[k] after DCT.INIT n (R172). -/
def twiddleRe (N : Numerics F) (n k : Nat) : F :=
  let w := N.div (N.cosq k (4 * n)) (N.sqrt (N.ofNat (2 * n)))
  if k = 0 then N.mul w N.invSqrt2 else w

/-- DCTWI[k] after DCT.INIT n (R172). -/
def twiddleIm (N : Numerics F) (n k : Nat) : F :=
  let w := N.div (N.neg (N.sinq k (4 * n))) (N.sqrt (N.ofNat (2 * n)))
  if k = 0 then N.mul w N.invSqrt2 else w

/-- local[q] of R177: the input followed by its mirror image. -/
def mirrored (n : Nat) (x : Nat → F × F) (q : Nat) : F × F := if q < n then x q else x (2 * n - 1 - q)

/-- tr[k], ti[k] of R178 after the first `q` columns. -/
def dftSum (N : Numerics F) (n k : Nat) (x : Nat → F × F) : Nat → F × F
  | 0 => (N.zero, N.zero)
  | q + 1 =>
    let a := dftSum N n k x q
    let l := mirrored n x q
    let c := N.cosq (k * q % (2 * n)) (2 * n)
    let s := N.sinq (k * q % (2 * n)) (2 * n)
    (N.add (N.add a.1 (N.mul l.1 c)) (N.mul l.2 s), N.sub (N.add a.2 (N.mul l.2 c)) (N.mul l.1 s))

/-- Outputs k and k + n of DCT.APPLY for size n, where x j is the input pair DCTD[j], DCTD[j+n] (R179). -/
def dct (N : Numerics F) (n : Nat) (x : Nat → F × F) (k : Nat) : F × F :=
  let t := dftSum N n k x (2 * n)
  (N.sub (N.mul t.1 (twiddleRe N n k)) (N.mul t.2 (twiddleIm N n k)),
   N.add (N.mul t.1 (twiddleIm N n k)) (N.mul t.2 (twiddleRe N n k)))

/-- The total of channel c over the bins k = 1 to `K` (R212): bin k gives its WGT share to channel fnum(k) if
fnum(k) > 0, and the rest to channel fnum(k) + 1 if fnum(k) ≤ LEN. -/
def channelTotal (N : Numerics F) (len : Nat) (fnum : Nat → Nat) (wgt spec : Nat → F) (c : Nat) : Nat → F
  | 0 => N.zero
  | K + 1 =>
    let k := K + 1
    let a := channelTotal N len fnum wgt spec c K
    if fnum k > 0 ∧ fnum k = c then N.add a (N.mul (wgt k) (spec k))
    else if fnum k ≤ len ∧ fnum k + 1 = c then N.add a (N.mul (N.sub N.one (wgt k)) (spec k))
    else a

/-- A channel value: a total below the floor is replaced by the floor, then the logarithm (R214;
log 22 for a negative total under a zero floor). -/
def flooredLn (N : Numerics F) (floor v : F) : F := N.ln (if N.lt v floor then floor else v)

/-- CHAN[c] after MEL.ACC (R212, R214, R215): channels 1 to NB floored and in logarithm, the others plain. -/
def channelValue (N : Numerics F) (nb len : Nat) (floor : F) (fnum : Nat → Nat) (wgt spec : Nat → F)
    (c : Nat) : F :=
  let v := channelTotal N len fnum wgt spec c (len - 1)
  if 1 ≤ c ∧ c ≤ nb then flooredLn N floor v else v

end Sys2Proof.Reference
end

