-- ==== Sys2Proof/Ideal.lean ====
section
/-!
DEFINITION. Real numbers, for claims only; the machine itself does not use this file. First the ideal machine
of 00_scope.md R9: the same kernels with exact real arithmetic and buffers of real numbers, of which the
contract rules speak (40_fft.md R150, R151, 41_dct.md R182, 42_mel.md R216). Then the real value of a binary32
word and rounding to nearest (00_scope.md R15, R16).
-/
namespace Sys2Proof.Ideal

open Sys2Proof.Machine

open Classical in
/-- NUM with exact real arithmetic (R9). -/
noncomputable def numerics : Numerics ℝ where
  add := fun a b => a + b
  sub := fun a b => a - b
  mul := fun a b => a * b
  div := fun a b => a / b
  sqrt := Real.sqrt
  neg := fun a => -a
  lt := fun a b => decide (a < b)
  ln := Real.log
  sinq := fun p q => Real.sin (2 * Real.pi * p / q)
  cosq := fun p q => Real.cos (2 * Real.pi * p / q)
  ofNat := fun n => n
  zero := 0
  one := 1
  half := 1 / 2
  invSqrt2 := 1 / Real.sqrt 2

/-- The buffers of the ideal machine. -/
abbrev Store := Buffer → Nat → ℝ

/-- The access of a kernel to one buffer of the ideal machine. -/
noncomputable def port (b : Buffer) : Port Store ℝ where
  rd := fun i s => (s b i, s)
  wr := fun i v s => ((), Function.update s b (Function.update (s b) i v))

/-- The FFT unit of the ideal machine. -/
noncomputable def fftPorts : FftPorts Store ℝ where
  sin := port .sintab
  re := port .real
  im := port .imag

/-- The DCT unit of the ideal machine. -/
noncomputable def dctPorts : DctPorts Store ℝ where
  wr := port .dctwr
  wi := port .dctwi
  data := port .dctd

/-- The MEL unit of the ideal machine. -/
noncomputable def melPorts : MelPorts Store ℝ where
  re := port .real
  im := port .imag
  spec := port .spec
  wgt := port .wgt
  chan := port .chan

/-- The sine table built for M, in the ideal machine (40_fft.md R131). -/
def SineTable (M : Nat) (s : Store) : Prop :=
  ∀ i ≤ M - M / 4, s .sintab i = Real.sin (2 * Real.pi * i / M)

/-- Element j of the complex data REAL[j] + i·IMAG[j]. -/
noncomputable def complexAt (s : Store) (j : Nat) : ℂ := ⟨s .real j, s .imag j⟩

/-- The forward DFT of length n, without scaling (40_fft.md R150). -/
noncomputable def forwardDft (n : Nat) (z : Nat → ℂ) (k : Nat) : ℂ :=
  ∑ j ∈ Finset.range n, z j * Complex.exp (-2 * Real.pi * Complex.I * j * k / n)

/-- The orthonormal DCT-II of size n (41_dct.md R182). -/
noncomputable def dctII (n : Nat) (x : Nat → ℝ) (k : Nat) : ℝ :=
  (if k = 0 then Real.sqrt (1 / n) else Real.sqrt (2 / n)) *
    ∑ j ∈ Finset.range n, x j * Real.cos (Real.pi * k * (2 * j + 1) / (2 * n))

/-- T[c][k] of 42_mel.md R216. -/
noncomputable def melWeight (len : Nat) (fnum : Nat → Nat) (wgt : Nat → ℝ) (c k : Nat) : ℝ :=
  if fnum k = c then wgt k else if fnum k + 1 = c ∧ fnum k ≤ len then 1 - wgt k else 0

/-! ### The real value of a binary32 word -/

/-- A binary32 word that is neither an infinity nor a NaN (R15). -/
abbrev FiniteWord (w : Word) : Prop := exponentField w ≠ 255

/-- A NaN (R15). -/
abbrev NaNWord (w : Word) : Prop := exponentField w = 255 ∧ fractionField w ≠ 0

/-- The real number a finite word encodes: sign, exponent and fraction fields as R15 gives them. -/
noncomputable def wordValue (w : Word) : ℝ :=
  (if signBit w then -1 else 1) *
    (if exponentField w = 0 then (fractionField w : ℝ) * 2 ^ (-149 : ℤ)
      else ((2 ^ 23 + fractionField w : ℕ) : ℝ) * 2 ^ ((exponentField w : ℤ) - 150))

/-- The value of a word that is no NaN, infinities included. -/
noncomputable def extendedValue (w : Word) : EReal :=
  if exponentField w = 255 then (if signBit w then ⊥ else ⊤) else (wordValue w : EReal)

/-- `w` is the real number x rounded to nearest, ties to even, with overflow to an infinity and the sign of a
non-zero x (R16). -/
def NearestWord (x : ℝ) (w : Word) : Prop :=
  (x < 0 → signBit w = true) ∧ (0 < x → signBit w = false) ∧
  (2 ^ 128 - 2 ^ 103 ≤ |x| → w = packInfinity (signBit w)) ∧
  (|x| < 2 ^ 128 - 2 ^ 103 →
    FiniteWord w ∧
    (∀ v, FiniteWord v → |wordValue w - x| ≤ |wordValue v - x|) ∧
    (∀ v, FiniteWord v → wordValue v ≠ wordValue w → |wordValue w - x| = |wordValue v - x| →
      fractionField w % 2 = 0))

end Sys2Proof.Ideal
end

