-- ==== Sys2Proof/Machine/Listing.lean ====
section
/-!
DEFINITION. Listings: a ZAFE program is a list of host accesses (30_encoding.md R110 to R112). The lines are
taken as syntax already read; the spelling of mnemonics, numbers and comments is not modelled (log 20).
-/
namespace Sys2Proof.Machine

/-- A value of a listing: a word, or a decimal real ±num/den written `f:…` (R112). -/
inductive ListingValue where
  | word (w : Word)
  | decimal (neg : Bool) (num den : Nat)
  deriving DecidableEq, Repr

/-- A line of a listing (R110 to R112). -/
inductive ListingLine where
  /-- A command line. -/
  | command (i : Instr)
  /-- The pseudo-instruction `fft n`. -/
  | fftOne (n : Nat)
  /-- The pseudo-instruction `fftr m`. -/
  | fftrOne (m : Nat)
  /-- `.word w`. -/
  | word (w : Word)
  /-- `wr BUF[i], v`. -/
  | writeElem (b : Buffer) (i : Nat) (v : ListingValue)
  /-- `wr BUF[a..b], v0, v1, …`. -/
  | writeElems (b : Buffer) (first last : Nat) (vs : List ListingValue)
  /-- `wr REG, v`. -/
  | writeReg (r : Register) (v : ListingValue)
  /-- `rd BUF[i]`. -/
  | readElem (b : Buffer) (i : Nat)
  /-- `rd BUF[a..b]`, as the listings of 95_test_vectors.md section 11 use it (DEDUCED, log 20). -/
  | readElems (b : Buffer) (first last : Nat)
  /-- `rd REG`. -/
  | readReg (r : Register)
  deriving DecidableEq, Repr

/-- The word of a value: a decimal real is rounded to the nearest binary32, ties to even (R112). -/
def ListingValue.toWord : ListingValue → Word
  | .word w => w
  | .decimal neg num den => roundSigned neg (num * 2 ^ 149) den

/-- The host accesses of consecutive elements from i on. -/
def writeFrom (b : Buffer) : Nat → List ListingValue → List HostEvent
  | _, [] => []
  | i, v :: vs => .write (b.elemOffset i) 4 v.toWord :: writeFrom b (i + 1) vs

/-- The host access of a command line; an operand above 8191 is an assembly error (R110). -/
def assembleCommand (i : Instr) : Option (List HostEvent) :=
  if i.wellFormed then some [commandEvent (encode i)] else none

/-- How many elements a range a..b of a listing names; none where b < a. -/
def rangeLength (first last : Nat) : Nat := last + 1 - first

/-- The host accesses a line stands for, `none` where it is an assembly error (R110 to R112). DESIGN CHOICE
(log 20): `wr BUF[a..b]` with another number of values than the range has elements, on which R112 is silent, is
an assembly error. -/
def ListingLine.assemble : ListingLine → Option (List HostEvent)
  | .command i => assembleCommand i
  | .fftOne n => assembleCommand (.fft n n)
  | .fftrOne m => assembleCommand (.fftr m m)
  | .word w => some [commandEvent w]
  | .writeElem b i v => some [.write (b.elemOffset i) 4 v.toWord]
  | .writeElems b first last vs =>
    if vs.length = rangeLength first last then some (writeFrom b first vs) else none
  | .writeReg r v => some [.write r.offset 4 v.toWord]
  | .readElem b i => some [.read (b.elemOffset i) 4]
  | .readElems b first last => some ((List.range (rangeLength first last)).map fun j => .read (b.elemOffset (first + j)) 4)
  | .readReg r => some [.read r.offset 4]

/-- The host accesses of a listing, in the order of its lines. -/
def assemble : List ListingLine → Option (List HostEvent)
  | [] => some []
  | l :: ls =>
    match l.assemble, assemble ls with
    | some es, some rest => some (es ++ rest)
    | _, _ => none

end Sys2Proof.Machine
end

