-- ==== Sys2Proof/Safety.lean ====
section
/-!
DEFINITION. The terms claims use: the invariant of the machine, which buffer bytes an element occupies, and
frames.
-/
namespace Sys2Proof.Machine

/-! ### The invariant -/

/-- What the registers hold in every state the machine reaches: RESULT a code of 60_exceptions.md R240,
STATUS only its four bits (10_state.md R44), FFT_M 0 or a power of two from 4 to MMAX (R45), DCT_N at most
NDMAX (R46), MEL_NB and MEL_LEN both 0, or a channel count and a table length in their ranges (R47, R48). -/
abbrev State.RegistersLegal (s : State) : Prop :=
  s.result.toNat ≤ 5 ∧ s.status.toNat < 16 ∧
  (s.fftSize = 0 ∨ (isPow2 s.fftSize = true ∧ 4 ≤ s.fftSize ∧ s.fftSize ≤ s.cfg.mmax)) ∧
  s.dctSize ≤ s.cfg.ndmax ∧
  ((s.melChannels = 0 ∧ s.melLength = 0) ∨
    (1 ≤ s.melChannels ∧ s.melChannels ≤ s.cfg.nbmax ∧
      isPow2 s.melLength = true ∧ s.melLength ≤ s.cfg.mmax / 2))

/-- A byte offset lies in an implemented element of some buffer (20_memory.md R73, R77). -/
abbrev implementedByte (c : Config) (a : Nat) : Prop :=
  ∃ b ∈ allBuffers, b.base ≤ a ∧ a < b.elemOffset (b.elements c)

/-- The memory is in canonical form, lists no byte outside the implemented elements, and lists whole words
(R72: only whole aligned words are written). -/
abbrev State.MemoryLegal (s : State) : Prop :=
  s.mem.wf ∧ (∀ cell ∈ s.mem, implementedByte s.cfg cell.1) ∧
  (∀ cell ∈ s.mem, (s.mem.word? (cell.1 / 4 * 4)).isSome = true)

/-- While a unit is constructed its tables hold what its INIT command put there: SINTAB (10_state.md R55,
40_fft.md R132, R134), DCTWR and DCTWI (R62, 41_dct.md R172). -/
abbrev State.TablesBuilt (s : State) : Prop :=
  (s.fftSize ≠ 0 → ∀ i < s.fftSize - s.fftSize / 4 + 1, s.elem? .sintab i = some (fSinq i s.fftSize)) ∧
  (∀ k < s.dctSize, s.elem? .dctwr k = some (Reference.twiddleRe binary32 s.dctSize k) ∧
    s.elem? .dctwi k = some (Reference.twiddleIm binary32 s.dctSize k))

/-- The invariant of the machine. -/
abbrev State.Inv (s : State) : Prop :=
  s.cfg.Legal ∧ s.RegistersLegal ∧ s.MemoryLegal ∧ s.TablesBuilt

/-! ### Reset values -/

/-- The registers as a host read gives them after a reset (70_reset_and_hazards.md R281). -/
def resetValues (c : Config) (t : State) : Bool :=
  t.register? .id == some 0x5A414645#32 && t.register? .cmd == none &&
  t.register? .result == some 0#32 && t.register? .status == some 0#32 &&
  t.register? .fftM == some 0#32 && t.register? .dctN == some 0#32 &&
  t.register? .melNb == some 0#32 && t.register? .melLen == some 0#32 &&
  t.register? .melFloor == some 0x3F800000#32 && t.register? .cap0 == some (BitVec.ofNat 32 c.mmax) &&
  t.register? .cap1 == some (BitVec.ofNat 32 (c.ndmax * 65536 + c.nbmax))

/-! ### Frames -/

/-- The bytes of elements lo, …, hi − 1 of a buffer. -/
abbrev Buffer.hasByte (b : Buffer) (lo hi a : Nat) : Prop := b.elemOffset lo ≤ a ∧ a < b.elemOffset hi

/-- Every byte outside a set of offsets reads as before. -/
def BytesKept (written : Nat → Prop) (s t : State) : Prop :=
  ∀ a, ¬ written a → t.mem.byte? a = s.mem.byte? a

/-- Every register other than RESULT is unchanged, and so are the parameters, the host events still to come
and the last bus response. -/
def OnlyResultAndBuffers (s t : State) : Prop :=
  t.cfg = s.cfg ∧ t.status = s.status ∧ t.fftM = s.fftM ∧ t.dctN = s.dctN ∧ t.melNb = s.melNb ∧
  t.melLen = s.melLen ∧ t.melFloor = s.melFloor ∧ t.host = s.host ∧ t.response = s.response

/-- Elements lo, …, hi − 1 of a buffer have been written since hardware reset. -/
def State.Written (s : State) (b : Buffer) (lo hi : Nat) : Prop :=
  ∀ i, lo ≤ i → i < hi → (s.elem? b i).isSome = true

/-- What an element holds, for use where it has been written. -/
def State.elem (s : State) (b : Buffer) (i : Nat) : Word := (s.elem? b i).getD 0#32

/-! ### Commands and units -/

/-- The unit of a command that is not an INIT command and not SYS.RESET (30_encoding.md R114 step 3). -/
def commandUnit : Instr → Option EngineUnit
  | .fft _ _ | .fftr _ _ => some .fft
  | .dctApply _ => some .dct
  | .melMag | .melAcc => some .mel
  | .sysReset | .fftInit _ | .dctInit _ | .melInit _ _ => none

/-- The unit of an INIT command (30_encoding.md R106). -/
def initUnit : Instr → Option EngineUnit
  | .fftInit _ => some .fft
  | .dctInit _ => some .dct
  | .melInit _ _ => some .mel
  | .sysReset | .fft _ _ | .fftr _ _ | .dctApply _ | .melMag | .melAcc => none

/-- The command that the next host event executes, if it is a CMD write of a word that decodes. -/
def nextCommand (s : State) : Option Instr :=
  match s.host with
  | .write off size w :: _ => if isCommandWrite off size then (decode w).toOption else none
  | _ => none

/-- The next host event is the hardware reset. -/
def nextIsReset (s : State) : Prop := s.host.head? = some .hardwareReset

end Sys2Proof.Machine
end

