-- ==== Sys2Proof/Certificates/Slice0/Obligations.lean ====
section
/-!
DEFINITION. The statements for the provers, in the order of OBLIGATIONS.json.
-/

open Sys2Proof Sys2Proof.Machine

/-! ### Encoding -/

/-- Decoding the word of a well-formed command gives the command back, with every operand (30_encoding.md
R105, R106, R107). -/
def Obligations.DecodeOfEncode : Prop :=
  ∀ i : Instr, i.WellFormed → decode (encode i) = .ok i

/-- R107, through the opcode map of R106: a row selects a word exactly when the word decodes to a command of
that row; no word is selected by two rows; a decoded command carries the operands of its word and encodes back
to it; a word that no row selects is illegal. -/
def Obligations.DecodeAgreesWithOpcodeMap : Prop :=
  ∀ w : Word,
    (∀ r ∈ opcodeRows, r.selects w = true ↔ ∃ i, decode w = .ok i ∧ i.mnemonic = r.mnemonic) ∧
    (∀ r ∈ opcodeRows, ∀ r' ∈ opcodeRows, r.selects w = true → r'.selects w = true → r = r') ∧
    (∀ i, decode w = .ok i → i.WellFormed ∧ encode i = w) ∧
    ((∀ r ∈ opcodeRows, r.selects w = false) → ∃ e, decode w = .error e)

/-- Words of 95_test_vectors.md section 5, one at least for each command, decode as listed there; three
illegal ones do not decode. -/
def Obligations.SampleWordsDecodeAsListed : Prop :=
  decode 0x04000000#32 = .ok .sysReset ∧ decode 0x40001000#32 = .ok (.fftInit 4096) ∧
  decode 0x4400A003#32 = .ok (.fft 3 5) ∧ decode 0x48008008#32 = .ok (.fftr 8 4) ∧
  decode 0x80000014#32 = .ok (.dctInit 20) ∧ decode 0x84000028#32 = .ok (.dctApply 40) ∧
  decode 0xC0200014#32 = .ok (.melInit 20 256) ∧ decode 0xC4000000#32 = .ok .melMag ∧
  decode 0xC8000000#32 = .ok .melAcc ∧ decode 0x47FFFFFF#32 = .ok (.fft 8191 8191) ∧
  decode 0x00000000#32 = .error (.unassignedOp 0) ∧
  decode 0x04002000#32 = .error (.formatZFieldNotZero 1) ∧
  decode 0x40002008#32 = .error (.formatA1FieldNotZero 0x10)

/-- The nine words of the assembler table (30_encoding.md R110); a command line stands for one CMD write of its
word (R112); the two pseudo-instructions and `.word` (R111); a line with an operand above 8191, and so every
ill-formed command, is an assembly error (R110). -/
def Obligations.ListingLinesAssemble : Prop :=
  ((encode .sysReset).toNat = 0x04000000 ∧ (encode .melMag).toNat = 0xC4000000 ∧
    (encode .melAcc).toNat = 0xC8000000) ∧
  (∀ m, m ≤ 8191 → (encode (.fftInit m)).toNat = 0x40000000 + m) ∧
  (∀ r i, r ≤ 8191 → i ≤ 8191 → (encode (.fft r i)).toNat = 0x44000000 + i * 0x2000 + r) ∧
  (∀ r i, r ≤ 8191 → i ≤ 8191 → (encode (.fftr r i)).toNat = 0x48000000 + i * 0x2000 + r) ∧
  (∀ n, n ≤ 8191 → (encode (.dctInit n)).toNat = 0x80000000 + n) ∧
  (∀ n, n ≤ 8191 → (encode (.dctApply n)).toNat = 0x84000000 + n) ∧
  (∀ nb len, nb ≤ 8191 → len ≤ 8191 → (encode (.melInit nb len)).toNat = 0xC0000000 + len * 0x2000 + nb) ∧
  (∀ i : Instr, i.WellFormed → (ListingLine.command i).assemble = some [.write 0x4 4 (encode i)]) ∧
  (∀ n, n ≤ 8191 → (ListingLine.fftOne n).assemble = some [.write 0x4 4 (encode (.fft n n))]) ∧
  (∀ n, n ≤ 8191 → (ListingLine.fftrOne n).assemble = some [.write 0x4 4 (encode (.fftr n n))]) ∧
  (∀ w, (ListingLine.word w).assemble = some [.write 0x4 4 w]) ∧
  (∀ i : Instr, ¬ i.WellFormed → (ListingLine.command i).assemble = none) ∧
  (∀ n, 8191 < n →
    (∀ i ∈ [Instr.fftInit n, .dctInit n, .dctApply n], ¬ i.WellFormed) ∧
    (∀ j, ∀ i ∈ [Instr.fft n j, .fft j n, .fftr n j, .fftr j n, .melInit n j, .melInit j n], ¬ i.WellFormed) ∧
    (ListingLine.fftOne n).assemble = none ∧ (ListingLine.fftrOne n).assemble = none)

/-! ### Steps and dispatch -/

/-- A CMD write of a word that decodes runs its command; the bus response is ok (20_memory.md R79, 30_encoding.md
R114). Around the command a step moves past the host event and gives the response, in the model's own fields
(log 2, 5). -/
def Obligations.StepRunsTheDecodedCommand : Prop :=
  ∀ (s : State) (rest : List HostEvent) (w : Word) (i : Instr),
    s.host = .write 0x4 4 w :: rest → decode w = .ok i →
    step s = exec i ((s.withHost rest).respond .writeOk)

/-- The word that withFetchWord places is the one the next step runs (log 13). -/
def Obligations.FetchedWordRunsNext : Prop :=
  ∀ (s : State) (w : Nat) (i : Instr), decodeTableWord 32 w = some i →
    step (s.withFetchWord 32 w) = exec i (s.respond .writeOk)

/-- A word that does not decode sets RESULT to 4 and STATUS.ILL and changes nothing else (60_exceptions.md
R244, R247); the bus response is ok. -/
def Obligations.IllegalWordOnlySetsIll : Prop :=
  ∀ (s : State) (rest : List HostEvent) (w : Word) (e : IllegalWord),
    s.host = .write 0x4 4 w :: rest → decode w = .error e →
    step s = .next { s with
      host := rest, response := some .writeOk, result := 4#32, status := s.status ||| 0x8#32 }

/-- Every step answers a next state, and with no host event to come nothing changes (log 6; 60_exceptions.md
R247, R250, R261, 70_reset_and_hazards.md R284). -/
def Obligations.StepAlwaysAnswers : Prop :=
  (∀ s : State, ∃ t, step s = .next t) ∧ (∀ s : State, s.host = [] → step s = .next s)

/-- A command of a bad unit, other than INIT, answers BadState and changes RESULT only, whatever its operands
(60_exceptions.md R243, R248). -/
def Obligations.BadUnitAnswersBadState : Prop :=
  ∀ (s : State) (u : EngineUnit) (i : Instr), commandUnit i = some u → s.isBad u = true →
    exec i s = .next { s with result := 3#32 }

/-! ### Reset -/

/-- R281: the register values after either reset, for every choice of parameters. -/
def Obligations.ResetRegisterValues : Prop :=
  (∀ c : Config, resetValues c (State.resetWith c) = true) ∧
  (∀ (s : State) (rest : List HostEvent), s.host = .hardwareReset :: rest →
    ∃ t, step s = .next t ∧ resetValues s.cfg t = true) ∧
  (∀ s : State, ∃ t, exec .sysReset s = .next t ∧ resetValues s.cfg t = true)

/-- Hardware reset between two host accesses gives the reset state of the block: every element of every buffer
is unspecified (70_reset_and_hazards.md R280, R282). That the count of free values goes on and that the last
response is forgotten is the model's choice (log 7). -/
def Obligations.HardwareResetForgetsBuffers : Prop :=
  ∀ (s : State) (rest : List HostEvent), s.host = .hardwareReset :: rest →
    step s = .next { State.resetWith s.cfg with draws := s.draws, host := rest } ∧
    ∀ b i, ({ State.resetWith s.cfg with draws := s.draws, host := rest } : State).elem? b i = none

/-- R230: SYS.RESET, whose only word is 0x04000000, sets the registers to their reset values in every state and
writes nothing else; the three units are then unconstructed and their tables unspecified. -/
def Obligations.SysResetCompletes : Prop :=
  (∀ s : State, exec .sysReset s = .next { s with
    result := 0#32, status := 0#32, fftM := 0#32, dctN := 0#32, melNb := 0#32, melLen := 0#32,
    melFloor := 0x3F800000#32 }) ∧
  (∀ s t : State, exec .sysReset s = .next t →
    t.fftSize = 0 ∧ t.dctSize = 0 ∧ t.melChannels = 0 ∧ t.melLength = 0 ∧
    ∀ b ∈ [Buffer.sintab, .dctwr, .dctwi], ∀ i, t.elemSpecified b i = false) ∧
  (∀ w : Word, decode w = .ok .sysReset ↔ w = 0x04000000#32) ∧
  (∀ w : Word, fieldOp w = 0x01 → w ≠ 0x04000000#32 → ∃ e, decode w = .error e)

/-! ### Errors -/

/-- The checks of FFT and FFTR on a good unit, in their order (40_fft.md R137, R141, 60_exceptions.md R241,
R242, R248): DataSizeMismatch, then InvalidSize; RESULT and FFT_BAD are written and nothing else. -/
def Obligations.TransformChecksInOrder : Prop :=
  ∀ (s : State) (rlen ilen : Nat), s.isBad .fft = false →
    (rlen ≠ ilen →
      exec (.fft rlen ilen) s = .next { s with result := 1#32, status := s.status ||| 0x1#32 } ∧
      exec (.fftr rlen ilen) s = .next { s with result := 1#32, status := s.status ||| 0x1#32 }) ∧
    (rlen = ilen → ((¬ ∃ k, rlen = 2 ^ k) ∨ s.fftSize < rlen) →
      exec (.fft rlen ilen) s = .next { s with result := 2#32, status := s.status ||| 0x1#32 }) ∧
    (rlen = ilen → ((¬ ∃ k, rlen = 2 ^ k) ∨ s.fftSize < rlen ∨ rlen < 2) →
      exec (.fftr rlen ilen) s = .next { s with result := 2#32, status := s.status ||| 0x1#32 })

/-- An INIT command whose check fails raises InvalidSize, leaves its unit unconstructed and bad, and changes
nothing else (40_fft.md R131, 41_dct.md R171, 42_mel.md R201, 30_encoding.md R114, 60_exceptions.md R249). -/
def Obligations.InitOutOfRangeFails : Prop :=
  ∀ s : State,
    (∀ m, ((¬ ∃ k, m = 2 ^ k) ∨ m < 4 ∨ s.cfg.mmax < m) →
      exec (.fftInit m) s =
        .next { s with fftM := 0#32, result := 2#32, status := s.status ||| 0x1#32 }) ∧
    (∀ n, (n < 1 ∨ s.cfg.ndmax < n) →
      exec (.dctInit n) s =
        .next { s with dctN := 0#32, result := 2#32, status := s.status ||| 0x2#32 }) ∧
    (∀ nb len, (nb < 1 ∨ s.cfg.nbmax < nb ∨ (¬ ∃ k, len = 2 ^ k) ∨ s.cfg.mmax / 2 < len) →
      exec (.melInit nb len) s =
        .next { s with melNb := 0#32, melLen := 0#32, result := 2#32, status := s.status ||| 0x4#32 })

/-- On an unconstructed unit that is not bad DCT.APPLY, MEL.MAG and MEL.ACC raise InvalidSize, and DCT.APPLY does
on every length but 2·DCT_N (41_dct.md R175, 42_mel.md R205, R210, 60_exceptions.md R242). -/
def Obligations.UnconstructedOrWrongLengthFails : Prop :=
  ∀ s : State,
    (s.isBad .dct = false → ∀ dlen, (s.dctSize = 0 ∨ dlen ≠ 2 * s.dctSize) →
      exec (.dctApply dlen) s = .next { s with result := 2#32, status := s.status ||| 0x2#32 }) ∧
    (s.isBad .mel = false → s.melLength = 0 →
      exec .melMag s = .next { s with result := 2#32, status := s.status ||| 0x4#32 } ∧
      exec .melAcc s = .next { s with result := 2#32, status := s.status ||| 0x4#32 })

/-- MEL.ACC raises BadTable when a loaded entry BIN[k], 1 ≤ k < LEN, exceeds NB, whether or not the other entries
have been written, and then changes nothing but RESULT and MEL_BAD (42_mel.md R211, 60_exceptions.md R245). Where
every entry has been written no free value is used up (log 3). -/
def Obligations.BadTableBeforeAnyWrite : Prop :=
  ∀ s : State, s.isBad .mel = false → s.melLength ≠ 0 →
    (∃ k w, 1 ≤ k ∧ k < s.melLength ∧ s.elem? .bin k = some w ∧ s.melChannels < w.toNat) →
    ∃ t, exec .melAcc s = .next t ∧
      t = { s with result := 5#32, status := s.status ||| 0x4#32, draws := t.draws } ∧
      (s.Written .bin 1 s.melLength → t.draws = s.draws)

/-- A command that raises an error changes no byte of any buffer or table, no parameter and not MEL_FLOOR; a
command that is no INIT leaves the size registers and changes at most its unit's BAD flag; an INIT leaves its
unit's size registers 0 and its flag set (60_exceptions.md R249). -/
def Obligations.FailingCommandsChangeNoData : Prop :=
  ∀ (i : Instr) (s t : State), exec i s = .next t → t.result ≠ 0#32 →
    (t.mem = s.mem ∧ t.cfg = s.cfg ∧ t.melFloor = s.melFloor ∧ t.host = s.host ∧
      t.response = s.response) ∧
    (∀ u, commandUnit i = some u →
      t.fftM = s.fftM ∧ t.dctN = s.dctN ∧ t.melNb = s.melNb ∧ t.melLen = s.melLen ∧
      t.status = s.status ||| u.badBit) ∧
    (∀ u, initUnit i = some u →
      t.fftM = (s.clearSizes u).fftM ∧ t.dctN = (s.clearSizes u).dctN ∧
      t.melNb = (s.clearSizes u).melNb ∧ t.melLen = (s.clearSizes u).melLen ∧
      t.status = s.status ||| u.badBit)

/-! ### Construction -/

/-- FFT.INIT M with M a power of two from 4 to MMAX, in every state of a legal block (40_fft.md R131, R132): the
sine table, FFT_M, FFT_BAD cleared, RESULT 0, and nothing else. -/
def Obligations.FftInitBuildsSineTable : Prop :=
  ∀ (s : State) (m : Nat), s.cfg.Legal → (∃ k, m = 2 ^ k) → 4 ≤ m → m ≤ s.cfg.mmax →
    ∃ t, exec (.fftInit m) s = .next t ∧
      (∀ i, i ≤ m - m / 4 → t.elem? .sintab i = some (fSinq i m)) ∧
      (t.elem? .sintab 0 = some 0x00000000#32 ∧ t.elem? .sintab (m / 4) = some 0x3F800000#32 ∧
        t.elem? .sintab (m / 2) = some 0x00000000#32 ∧
        t.elem? .sintab (m - m / 4) = some 0xBF800000#32) ∧
      BytesKept (Buffer.hasByte .sintab 0 (m - m / 4 + 1)) s t ∧
      t.fftSize = m ∧ t = { s with
        mem := t.mem, fftM := t.fftM, result := 0#32, status := s.status &&& ~~~0x1#32 }

/-- DCT.INIT N with 1 ≤ N ≤ NDMAX, in every state of a legal block (41_dct.md R171, R172): the twiddle tables,
DCT_N, DCT_BAD cleared, RESULT 0, and nothing else. -/
def Obligations.DctInitBuildsTwiddle : Prop :=
  ∀ (s : State) (n : Nat), s.cfg.Legal → 1 ≤ n → n ≤ s.cfg.ndmax →
    ∃ t, exec (.dctInit n) s = .next t ∧
      (∀ k, k < n → t.elem? .dctwr k = some (Reference.twiddleRe binary32 n k) ∧
        t.elem? .dctwi k = some (Reference.twiddleIm binary32 n k)) ∧
      BytesKept (fun a => Buffer.hasByte .dctwr 0 n a ∨ Buffer.hasByte .dctwi 0 n a) s t ∧
      t.dctSize = n ∧ t = { s with
        mem := t.mem, dctN := t.dctN, result := 0#32, status := s.status &&& ~~~0x2#32 }

/-- MEL.INIT NB, LEN in range, in every state of a legal block (42_mel.md R201): MEL_NB, MEL_LEN, MEL_BAD
cleared, RESULT 0, and nothing else. -/
def Obligations.MelInitCompletes : Prop :=
  ∀ (s : State) (nb len : Nat), s.cfg.Legal → 1 ≤ nb → nb ≤ s.cfg.nbmax →
    (∃ k, len = 2 ^ k) → len ≤ s.cfg.mmax / 2 →
    ∃ t, exec (.melInit nb len) s = .next t ∧ t.melChannels = nb ∧ t.melLength = len ∧
      t = { s with
        melNb := t.melNb, melLen := t.melLen, result := 0#32, status := s.status &&& ~~~0x4#32 }

/-! ### Transforms and filterbank: completion, frame, result -/

/-- FFT, FFTR, DCT.APPLY and MEL.MAG on a good unit whose checks pass return Ok whatever their data, words
nothing has written included (70_reset_and_hazards.md R297), and change nothing but RESULT and the elements
their rule writes (40_fft.md R137, R141, 41_dct.md R175, 42_mel.md R205). -/
def Obligations.TransformsCompleteOnAnyData : Prop :=
  ∀ s : State,
    (s.isBad .fft = false → ∀ k, 2 ^ k ≤ s.fftSize →
      ∃ t, exec (.fft (2 ^ k) (2 ^ k)) s = .next t ∧ t.result = 0#32 ∧ OnlyResultAndBuffers s t ∧
        BytesKept (fun a => Buffer.hasByte .real 0 (2 ^ k) a ∨ Buffer.hasByte .imag 0 (2 ^ k) a) s t) ∧
    (s.isBad .fft = false → ∀ k, 1 ≤ k → 2 ^ k ≤ s.fftSize →
      ∃ t, exec (.fftr (2 ^ k) (2 ^ k)) s = .next t ∧ t.result = 0#32 ∧ OnlyResultAndBuffers s t ∧
        BytesKept (fun a => Buffer.hasByte .real 0 (2 ^ k) a ∨ Buffer.hasByte .imag 0 (2 ^ k) a) s t) ∧
    (s.isBad .dct = false → s.dctSize ≠ 0 →
      ∃ t, exec (.dctApply (2 * s.dctSize)) s = .next t ∧ t.result = 0#32 ∧ OnlyResultAndBuffers s t ∧
        BytesKept (Buffer.hasByte .dctd 0 (2 * s.dctSize)) s t) ∧
    (s.isBad .mel = false → s.melLength ≠ 0 →
      ∃ t, exec .melMag s = .next t ∧ t.result = 0#32 ∧ OnlyResultAndBuffers s t ∧
        BytesKept (Buffer.hasByte .spec 1 (s.melLength + 1)) s t)

/-- MEL.ACC on a good constructed unit, whatever its data: it returns Ok and changes only RESULT and
CHAN[0..NB+1], or it raises BadTable and changes only RESULT and MEL_BAD. With a BIN word nothing has written
either may happen; where BIN[1..LEN−1] are loaded and none exceeds NB it returns Ok, even if SPEC or WGT words
are unwritten (42_mel.md R210, R211, R215, 70_reset_and_hazards.md R297). -/
def Obligations.MelAccAnswersOnAnyData : Prop :=
  ∀ s : State, s.isBad .mel = false → s.melLength ≠ 0 →
    ∃ t, exec .melAcc s = .next t ∧
      ((t.result = 0#32 ∧ OnlyResultAndBuffers s t ∧
          BytesKept (Buffer.hasByte .chan 0 (s.melChannels + 2)) s t) ∨
       (t.result = 5#32 ∧ t = { s with
          result := 5#32, status := s.status ||| 0x4#32, draws := t.draws })) ∧
      ((∀ k, 1 ≤ k → k < s.melLength → ∃ w, s.elem? .bin k = some w ∧ w.toNat ≤ s.melChannels) →
        t.result = 0#32)

/-- FFT of length 1 is the identity: RESULT becomes 0 and nothing else changes (40_fft.md R137). -/
def Obligations.FftOfOneChangesNothing : Prop :=
  ∀ s : State, s.isBad .fft = false → 1 ≤ s.fftSize →
    exec (.fft 1 1) s = .next { s with result := 0#32 }

/-- FFT of length 2^L on written data: the in-place passes and the bit reversal give, bit for bit, the
recursive decimation in frequency (40_fft.md R136 to R139), whatever table length M ≥ 2^L is in use (R135). -/
def Obligations.FftComputesDecimation : Prop :=
  ∀ (s : State) (L : Nat), s.Inv → s.isBad .fft = false → 2 ^ L ≤ s.fftSize →
    s.Written .real 0 (2 ^ L) → s.Written .imag 0 (2 ^ L) →
    ∃ t, exec (.fft (2 ^ L) (2 ^ L)) s = .next t ∧ t.result = 0#32 ∧
      ∀ k, k < 2 ^ L →
        t.elem? .real k =
          some (Reference.dif binary32 L (fun j => (s.elem .real j, s.elem .imag j)) k).1 ∧
        t.elem? .imag k =
          some (Reference.dif binary32 L (fun j => (s.elem .real j, s.elem .imag j)) k).2

/-- FFTR of length 2^(L+1) on written REAL data gives, bit for bit, the half-size transform of the even and odd
samples recombined by the split, the end values and the mirror (40_fft.md R141 to R146). -/
def Obligations.FftrComputesRealSpectrum : Prop :=
  ∀ (s : State) (L : Nat), s.Inv → s.isBad .fft = false → 2 ^ (L + 1) ≤ s.fftSize →
    s.Written .real 0 (2 ^ (L + 1)) →
    ∃ t, exec (.fftr (2 ^ (L + 1)) (2 ^ (L + 1))) s = .next t ∧ t.result = 0#32 ∧
      ∀ k, k < 2 ^ (L + 1) →
        t.elem? .real k = some (Reference.realFft binary32 L (s.elem .real) k).1 ∧
        t.elem? .imag k = some (Reference.realFft binary32 L (s.elem .real) k).2

/-- FFTR's result depends on REAL alone: two states that agree on the input words of REAL, whatever their IMAG
words and their table lengths M, give the same output words (40_fft.md R147, R135). -/
def Obligations.FftrDependsOnRealOnly : Prop :=
  ∀ (s s' : State) (L : Nat), s.Inv → s'.Inv → s.isBad .fft = false → s'.isBad .fft = false →
    2 ^ (L + 1) ≤ s.fftSize → 2 ^ (L + 1) ≤ s'.fftSize → s.Written .real 0 (2 ^ (L + 1)) →
    (∀ i, i < 2 ^ (L + 1) → s'.elem? .real i = s.elem? .real i) →
    ∃ t t', exec (.fftr (2 ^ (L + 1)) (2 ^ (L + 1))) s = .next t ∧
      exec (.fftr (2 ^ (L + 1)) (2 ^ (L + 1))) s' = .next t' ∧
      ∀ k, k < 2 ^ (L + 1) →
        t'.elem? .real k = t.elem? .real k ∧ t'.elem? .imag k = t.elem? .imag k

/-- The output of FFTR of length m is conjugate symmetric as words, whatever the data: REAL[i] = REAL[m−i] and
IMAG[i] is IMAG[m−i] with its sign bit flipped for 1 ≤ i < m/2, and IMAG[0] = IMAG[m/2] = +0
(40_fft.md R145, R146, R153). -/
def Obligations.FftrOutputMirrors : Prop :=
  ∀ (s : State) (L : Nat), s.Inv → s.isBad .fft = false → 2 ^ (L + 1) ≤ s.fftSize →
    ∃ t, exec (.fftr (2 ^ (L + 1)) (2 ^ (L + 1))) s = .next t ∧
      t.elem? .imag 0 = some 0#32 ∧ t.elem? .imag (2 ^ L) = some 0#32 ∧
      ∀ i, 1 ≤ i → i < 2 ^ L → ∃ a b : Word,
        t.elem? .real (2 ^ (L + 1) - i) = some a ∧ t.elem? .real i = some a ∧
        t.elem? .imag (2 ^ (L + 1) - i) = some b ∧ t.elem? .imag i = some (b ^^^ 0x80000000#32)

/-- R152: the real impulse of any length m a table serves, in binary32, gives REAL[k] = 1.0 and IMAG[k] a zero
for all k. -/
def Obligations.FftrOfImpulseIsFlat : Prop :=
  ∀ (s : State) (L : Nat), s.Inv → s.isBad .fft = false → 2 ^ (L + 1) ≤ s.fftSize →
    s.elem? .real 0 = some 0x3F800000#32 →
    (∀ i, 1 ≤ i → i < 2 ^ (L + 1) → s.elem? .real i = some 0#32) →
    ∃ t, exec (.fftr (2 ^ (L + 1)) (2 ^ (L + 1))) s = .next t ∧ t.result = 0#32 ∧
      ∀ k, k < 2 ^ (L + 1) → t.elem? .real k = some 0x3F800000#32 ∧
        (t.elem? .imag k = some 0x00000000#32 ∨ t.elem? .imag k = some 0x80000000#32)

/-- DCT.APPLY on written data: the mirrored 2N-point DFT by the matrix, scaled by the twiddle
(41_dct.md R175 to R179), with its frame. -/
def Obligations.DctApplyComputesTransform : Prop :=
  ∀ s : State, s.Inv → s.isBad .dct = false → s.dctSize ≠ 0 → s.Written .dctd 0 (2 * s.dctSize) →
    ∃ t, exec (.dctApply (2 * s.dctSize)) s = .next t ∧ t.result = 0#32 ∧
      OnlyResultAndBuffers s t ∧ BytesKept (Buffer.hasByte .dctd 0 (2 * s.dctSize)) s t ∧
      ∀ k, k < s.dctSize →
        t.elem? .dctd k = some (Reference.dct binary32 s.dctSize
          (fun j => (s.elem .dctd j, s.elem .dctd (j + s.dctSize))) k).1 ∧
        t.elem? .dctd (k + s.dctSize) = some (Reference.dct binary32 s.dctSize
          (fun j => (s.elem .dctd j, s.elem .dctd (j + s.dctSize))) k).2

/-- MEL.MAG on written data: SPEC[k] is the root of the sum of the squares for k = 1, …, LEN, and SPEC[0] and
everything else is unchanged (42_mel.md R205). -/
def Obligations.MelMagComputesMagnitude : Prop :=
  ∀ s : State, s.Inv → s.isBad .mel = false → s.melLength ≠ 0 →
    s.Written .real 1 (s.melLength + 1) → s.Written .imag 1 (s.melLength + 1) →
    ∃ t, exec .melMag s = .next t ∧ t.result = 0#32 ∧ OnlyResultAndBuffers s t ∧
      BytesKept (Buffer.hasByte .spec 1 (s.melLength + 1)) s t ∧
      ∀ k, 1 ≤ k → k ≤ s.melLength → t.elem? .spec k =
        some (fSqrt (fAdd (fMul (s.elem .real k) (s.elem .real k)) (fMul (s.elem .imag k) (s.elem .imag k))))

/-- MEL.ACC on written data and a legal table: CHAN[0..NB+1] hold the channel totals, those of channels 1 to NB
floored and in logarithm (42_mel.md R210 to R215), with its frame. That a negative total under a floor of +0 or −0
gives −inf, as the pseudocode of R214 has it, and not NaN, as its prose has it, is the model's choice (log 22). -/
def Obligations.MelAccComputesChannels : Prop :=
  ∀ s : State, s.Inv → s.isBad .mel = false → s.melLength ≠ 0 → s.Written .bin 1 s.melLength →
    s.Written .wgt 1 s.melLength → s.Written .spec 1 s.melLength →
    (∀ k, 1 ≤ k → k < s.melLength → (s.elem .bin k).toNat ≤ s.melChannels) →
    ∃ t, exec .melAcc s = .next t ∧ t.result = 0#32 ∧ OnlyResultAndBuffers s t ∧
      BytesKept (Buffer.hasByte .chan 0 (s.melChannels + 2)) s t ∧ t.elem? .chan 0 = some 0#32 ∧
      ∀ c, c ≤ s.melChannels + 1 → t.elem? .chan c =
        some (Reference.channelValue binary32 s.melChannels s.melLength s.melFloor
          (fun k => (s.elem .bin k).toNat) (s.elem .wgt) (s.elem .spec) c)

/-! ### Host accesses -/

/-- What a host read of each register gives, with no other effect (20_memory.md R74, 10_state.md R41 to R51);
CMD cannot be read (R42). -/
def Obligations.RegisterReads : Prop :=
  ∀ (s : State) (rest : List HostEvent),
    let rd := fun off => step { s with host := .read off 4 :: rest }
    let gives := fun w : Word =>
      (.next { s with host := rest, response := some (.readOk w) } : Host.Outcome State Fault Refusal)
    rd 0x00 = gives 0x5A414645#32 ∧
    rd 0x04 = .next { s with host := rest, response := some .busError } ∧
    rd 0x08 = gives (s.result &&& 0xFF#32) ∧ rd 0x0C = gives (s.status &&& 0xF#32) ∧
    rd 0x10 = gives s.fftM ∧ rd 0x14 = gives s.dctN ∧ rd 0x18 = gives s.melNb ∧
    rd 0x1C = gives s.melLen ∧ rd 0x20 = gives s.melFloor ∧
    rd 0x24 = gives (BitVec.ofNat 32 s.cfg.mmax) ∧
    rd 0x28 = gives (BitVec.ofNat 32 (s.cfg.ndmax * 65536 + s.cfg.nbmax))

/-- MEL_FLOOR takes any pattern as written, whatever the flags (10_state.md R49, 20_memory.md R75). -/
def Obligations.MelFloorTakesAnyPattern : Prop :=
  ∀ (s : State) (rest : List HostEvent) (v : Word),
    step { s with host := .write 0x20 4 v :: rest } =
      .next { s with melFloor := v, host := rest, response := some .writeOk }

/-- R72: an access of another size than 4 bytes, or at an offset that is no multiple of 4, is answered BusError
and changes nothing. -/
def Obligations.MisalignedOrOtherSizeRefused : Prop :=
  ∀ (s : State) (rest : List HostEvent) (off size : Nat) (v : Word), (size ≠ 4 ∨ off % 4 ≠ 0) →
    step { s with host := .read off size :: rest } =
      .next { s with host := rest, response := some .busError } ∧
    step { s with host := .write off size v :: rest } =
      .next { s with host := rest, response := some .busError }

/-- An offset that is neither that of a register nor that of an implemented element of a buffer is answered
BusError on read and on write, and nothing changes: the unimplemented and reserved offsets of 20_memory.md R77 and
10_state.md R52; the misaligned offsets and other sizes of 20_memory.md R72; and, as the model's own DESIGN CHOICE
(log 17), the offsets of 0x40000 and above, which lie outside the window. -/
def Obligations.UnimplementedOffsetsRefused : Prop :=
  ∀ (s : State) (rest : List HostEvent) (off size : Nat) (v : Word),
    (∀ r : Register, off ≠ r.offset) →
    (∀ (b : Buffer) (i : Nat), i < b.elements s.cfg → off ≠ b.elemOffset i) →
    step { s with host := .read off size :: rest } =
      .next { s with host := rest, response := some .busError } ∧
    step { s with host := .write off size v :: rest } =
      .next { s with host := rest, response := some .busError }

/-- R78: writes to the read-only registers and anywhere in the read-only windows, and reads of CMD, are answered
BusError and change nothing. -/
def Obligations.AccessRightsHold : Prop :=
  ∀ (s : State) (rest : List HostEvent) (size : Nat) (v : Word), s.cfg.Legal →
    (∀ r ∈ [Register.id, .result, .status, .fftM, .dctN, .melNb, .melLen, .cap0, .cap1],
      step { s with host := .write r.offset size v :: rest } =
        .next { s with host := rest, response := some .busError }) ∧
    (∀ b ∈ [Buffer.sintab, .dctwr, .dctwi], ∀ off, b.base ≤ off → off < b.base + b.windowSize →
      step { s with host := .write off size v :: rest } =
        .next { s with host := rest, response := some .busError }) ∧
    step { s with host := .read Register.cmd.offset size :: rest } =
      .next { s with host := rest, response := some .busError }

/-- A host write to an implemented element of a writable buffer stores the word there and changes no other
byte, and a host read that follows gives it back (20_memory.md R74, R75, R85). -/
def Obligations.HostWriteThenRead : Prop :=
  ∀ (s : State) (rest : List HostEvent) (b : Buffer) (i : Nat) (v : Word), s.cfg.Legal →
    b.hostWritable = true → i < b.elements s.cfg →
    ∃ t, step { s with host := .write (b.elemOffset i) 4 v :: .read (b.elemOffset i) 4 :: rest } = .next t ∧
      t = { s with
        mem := t.mem, host := .read (b.elemOffset i) 4 :: rest, response := some .writeOk } ∧
      BytesKept (Buffer.hasByte b i (i + 1)) s t ∧
      step t = .next { t with host := rest, response := some (.readOk v) }

/-- Element i of every buffer is found at its window base + 4·i, and nowhere else: windows do not overlap
(20_memory.md R73, R76). -/
def Obligations.ElementsLieAtTheirOffsets : Prop :=
  ∀ c : Config, c.Legal → ∀ (b : Buffer) (i off : Nat), i < b.elements c → off % 4 = 0 →
    (locate c off = some (b, i) ↔ off = b.elemOffset i)

/-- A host read of an element gives what it holds if the spec specifies it and something has written it, and
changes nothing; otherwise it gives the next free value (10_state.md R55, R62, R66, 20_memory.md R74). That a
free value is drawn at each such read is the model's form of "any value" (log 3, 4). -/
def Obligations.ElementReads : Prop :=
  ∀ (s : State) (rest : List HostEvent) (b : Buffer) (i : Nat), s.cfg.Legal → i < b.elements s.cfg →
    (∀ w, s.elemSpecified b i = true → s.elem? b i = some w →
      step { s with host := .read (b.elemOffset i) 4 :: rest } =
        .next { s with host := rest, response := some (.readOk w) }) ∧
    ((s.elemSpecified b i = false ∨ s.elem? b i = none) →
      step { s with host := .read (b.elemOffset i) 4 :: rest } =
        .next { s with
          host := rest, draws := s.draws + 1, response := some (.readOk (Config.freeWord s.draws)) })

/-- No host read has a side effect on the block (20_memory.md R74, R79): only the model's own fields for the
host, the response and the count of free values change. -/
def Obligations.ReadsHaveNoSideEffect : Prop :=
  ∀ (s t : State) (rest : List HostEvent) (off size : Nat), s.host = .read off size :: rest →
    step s = .next t → t = { s with host := rest, response := t.response, draws := t.draws }

/-! ### Invariants and whole-machine rules -/

/-- The invariant holds after reset, for the default parameters and every legal choice of them. -/
def Obligations.InvariantAtReset : Prop :=
  State.reset.Inv ∧ ∀ c : Config, c.Legal → (State.resetWith c).Inv

/-- Every step keeps the invariant: registers in their ranges (10_state.md R43 to R48), memory in canonical
form with whole words of implemented elements only (20_memory.md R72, R73, R88), tables of constructed units
as their INIT built them (10_state.md R55, R62, 40_fft.md R132, R134). -/
def Obligations.InvariantKeptByStep : Prop :=
  ∀ s t : State, s.Inv → step s = .next t → t.Inv

/-- No step changes the parameters (10_state.md R67). -/
def Obligations.ParametersNeverChange : Prop :=
  ∀ s t : State, step s = .next t → t.cfg = s.cfg

/-- Between INIT commands and hardware resets the tables do not change: no other step changes a byte of SINTAB,
DCTWR or DCTWI (40_fft.md R134, 10_state.md R55, R62, 20_memory.md R78). -/
def Obligations.TablesChangeOnlyByInit : Prop :=
  ∀ s t : State, s.Inv → step s = .next t → ¬ nextIsReset s →
    ((∀ m, nextCommand s ≠ some (.fftInit m)) →
      ∀ a, Buffer.hasByte .sintab 0 (Buffer.elements s.cfg .sintab) a → t.mem.byte? a = s.mem.byte? a) ∧
    ((∀ n, nextCommand s ≠ some (.dctInit n)) →
      ∀ a, (Buffer.hasByte .dctwr 0 (Buffer.elements s.cfg .dctwr) a ∨
          Buffer.hasByte .dctwi 0 (Buffer.elements s.cfg .dctwi) a) →
        t.mem.byte? a = s.mem.byte? a)

/-- A sticky flag is cleared only by its unit's INIT command, by SYS.RESET and by hardware reset; ILL only by the
two resets (10_state.md R33, 60_exceptions.md R244, R251). -/
def Obligations.StickyFlagsClearedOnlyAsStated : Prop :=
  ∀ s t : State, step s = .next t →
    (∀ u, s.isBad u = true → t.isBad u = false →
      nextIsReset s ∨ nextCommand s = some .sysReset ∨
        ∃ i, nextCommand s = some i ∧ initUnit i = some u) ∧
    (s.isIll = true → t.isIll = false → nextIsReset s ∨ nextCommand s = some .sysReset)

/-- A command of one unit leaves the flags and sizes of the others, ILL and MEL_FLOOR alone
(60_exceptions.md R243, R247, 10_state.md R32, R45 to R49). -/
def Obligations.UnitsAreIndependent : Prop :=
  ∀ (i : Instr) (s t : State) (u : EngineUnit), exec i s = .next t →
    (commandUnit i = some u ∨ initUnit i = some u) →
    (∀ v, v ≠ u → t.isBad v = s.isBad v) ∧ t.isIll = s.isIll ∧ t.melFloor = s.melFloor ∧
    (u ≠ .fft → t.fftM = s.fftM) ∧ (u ≠ .dct → t.dctN = s.dctN) ∧
    (u ≠ .mel → t.melNb = s.melNb ∧ t.melLen = s.melLen)

/-! ### Integer functions and numerics -/

/-- R26: bitrev(i, L) is below 2^L and its bit b is bit L−1−b of i; it is the sum of the rule. -/
def Obligations.BitrevReversesBits : Prop :=
  ∀ i L : Nat, i < 2 ^ L →
    bitrev i L = ∑ b ∈ Finset.range L, (i / 2 ^ b % 2) * 2 ^ (L - 1 - b) ∧
    bitrev i L < 2 ^ L ∧ bitrev i 0 = 0 ∧
    ∀ b, b < L → (bitrev i L).testBit b = i.testBit (L - 1 - b)

/-- R25: ispow2 is true exactly of the powers 2^k, k ≥ 0, and log2 gives k. -/
def Obligations.Ispow2IsPowerOfTwo : Prop :=
  (∀ n, isPow2 n = true ↔ ∃ k, n = 2 ^ k) ∧ isPow2 1 = true ∧ isPow2 0 = false ∧
  ∀ k, (2 ^ k).log2 = k

/-- ADD, SUB, MUL and DIV of finite words are the exact results rounded once, to nearest, ties to even, with
overflow to an infinity; an exact zero sum or difference is +0, but −0 for (−0) + (−0) and (−0) − (+0); products
and quotients have the XOR of the signs, those that are zero included; then the results that are no NaN with an
infinite operand, and DIV of a non-zero word by a zero (00_scope.md R16, R24 P1). -/
def Obligations.ArithmeticRoundsToNearest : Prop :=
  (∀ a b : Word, Ideal.FiniteWord a → Ideal.FiniteWord b →
    Ideal.NearestWord (Ideal.wordValue a + Ideal.wordValue b) (fAdd a b) ∧
    Ideal.NearestWord (Ideal.wordValue a - Ideal.wordValue b) (fSub a b) ∧
    Ideal.NearestWord (Ideal.wordValue a * Ideal.wordValue b) (fMul a b) ∧
    (Ideal.wordValue b ≠ 0 → Ideal.NearestWord (Ideal.wordValue a / Ideal.wordValue b) (fDiv a b)) ∧
    (Ideal.wordValue a + Ideal.wordValue b = 0 →
      fAdd a b = if a = 0x80000000#32 ∧ b = 0x80000000#32 then 0x80000000#32 else 0x00000000#32) ∧
    (Ideal.wordValue a - Ideal.wordValue b = 0 →
      fSub a b = if a = 0x80000000#32 ∧ b = 0x00000000#32 then 0x80000000#32 else 0x00000000#32) ∧
    signBit (fMul a b) = (signBit a != signBit b) ∧
    (Ideal.wordValue b ≠ 0 → signBit (fDiv a b) = (signBit a != signBit b)) ∧
    (Ideal.wordValue a ≠ 0 → Ideal.wordValue b = 0 → fDiv a b = packInfinity (signBit a != signBit b))) ∧
  (∀ (n : Bool) (b : Word), Ideal.FiniteWord b →
    fAdd (packInfinity n) b = packInfinity n ∧ fAdd b (packInfinity n) = packInfinity n ∧
    fSub (packInfinity n) b = packInfinity n ∧ fSub b (packInfinity n) = packInfinity (!n) ∧
    (Ideal.wordValue b ≠ 0 → fMul (packInfinity n) b = packInfinity (n != signBit b) ∧
      fMul b (packInfinity n) = packInfinity (n != signBit b)) ∧
    fDiv (packInfinity n) b = packInfinity (n != signBit b) ∧
    fDiv b (packInfinity n) = packSigned (n != signBit b) 0) ∧
  (∀ n m : Bool,
    fAdd (packInfinity n) (packInfinity n) = packInfinity n ∧
    fSub (packInfinity n) (packInfinity (!n)) = packInfinity n ∧
    fMul (packInfinity n) (packInfinity m) = packInfinity (n != m))

/-- SQRT of a finite word that is not negative is the exact root rounded to nearest, keeps either zero and +inf,
and is the canonical NaN below zero; I2F is exact up to 2^24 (00_scope.md R17, R20). -/
def Obligations.SqrtRoundsToNearest : Prop :=
  (∀ a : Word, Ideal.FiniteWord a → 0 ≤ Ideal.wordValue a →
    Ideal.NearestWord (Real.sqrt (Ideal.wordValue a)) (fSqrt a)) ∧
  fSqrt 0x00000000#32 = 0x00000000#32 ∧ fSqrt 0x80000000#32 = 0x80000000#32 ∧
  fSqrt 0x7F800000#32 = 0x7F800000#32 ∧ fSqrt 0xFF800000#32 = 0x7FC00000#32 ∧
  (∀ a : Word, Ideal.FiniteWord a → Ideal.wordValue a < 0 → fSqrt a = 0x7FC00000#32) ∧
  (∀ n, n ≤ 2 ^ 24 → Ideal.FiniteWord (fOfNat n) ∧ Ideal.wordValue (fOfNat n) = n)

/-- LN at every operand that is no NaN: within a relative error of 2^−23 of the exact logarithm for finite
operands above zero (a weaker form of 00_scope.md R23, which rounds to nearest), +0 at 1.0, −inf at either zero,
+inf at +inf, the canonical NaN below zero (R17, R23). -/
def Obligations.LnIsAccurate : Prop :=
  (∀ a : Word, Ideal.FiniteWord a → 0 < Ideal.wordValue a →
    Ideal.FiniteWord (fLn a) ∧
      |Ideal.wordValue (fLn a) - Real.log (Ideal.wordValue a)| ≤
        2 ^ (-23 : ℤ) * |Real.log (Ideal.wordValue a)|) ∧
  fLn 0x3F800000#32 = 0x00000000#32 ∧
  fLn 0x00000000#32 = 0xFF800000#32 ∧ fLn 0x80000000#32 = 0xFF800000#32 ∧
  fLn 0x7F800000#32 = 0x7F800000#32 ∧ fLn 0xFF800000#32 = 0x7FC00000#32 ∧
  (∀ a : Word, Ideal.FiniteWord a → Ideal.wordValue a < 0 → fLn a = 0x7FC00000#32)

/-- A NaN result of ADD, SUB, MUL, DIV, SQRT or LN is the canonical quiet NaN; a NaN operand gives it, and so do
the invalid operations: inf − inf, 0·inf, 0/0, inf/inf, and SQRT and LN of a negative non-zero (00_scope.md R17). -/
def Obligations.NaNResultsAreCanonical : Prop :=
  (∀ a b : Word,
    (∀ r ∈ [fAdd a b, fSub a b, fMul a b, fDiv a b, fSqrt a, fLn a],
      Ideal.NaNWord r → r = 0x7FC00000#32) ∧
    (Ideal.NaNWord a → ∀ r ∈ [fAdd a b, fSub a b, fMul a b, fDiv a b, fSqrt a, fLn a], r = 0x7FC00000#32) ∧
    (Ideal.NaNWord b → ∀ r ∈ [fAdd a b, fSub a b, fMul a b, fDiv a b], r = 0x7FC00000#32)) ∧
  (∀ n m : Bool,
    fAdd (packInfinity n) (packInfinity (!n)) = 0x7FC00000#32 ∧
    fSub (packInfinity n) (packInfinity n) = 0x7FC00000#32 ∧
    fDiv (packInfinity n) (packInfinity m) = 0x7FC00000#32) ∧
  (∀ (n : Bool) (a : Word), Ideal.FiniteWord a → Ideal.wordValue a = 0 →
    fMul (packInfinity n) a = 0x7FC00000#32 ∧ fMul a (packInfinity n) = 0x7FC00000#32) ∧
  (∀ a b : Word, Ideal.FiniteWord a → Ideal.FiniteWord b → Ideal.wordValue a = 0 → Ideal.wordValue b = 0 →
    fDiv a b = 0x7FC00000#32) ∧
  (∀ a : Word, (Ideal.FiniteWord a ∧ Ideal.wordValue a < 0) ∨ a = packInfinity true →
    fSqrt a = 0x7FC00000#32 ∧ fLn a = 0x7FC00000#32)

/-- NEG flips bit 31 and nothing else, for every word (00_scope.md R18). -/
def Obligations.NegFlipsTheSignBit : Prop :=
  ∀ (a : Word) (j : Nat), j < 32 → (fNeg a).getLsbD j = if j = 31 then !a.getLsbD j else a.getLsbD j

/-- R19: LT is true exactly when neither operand is a NaN and the value of the first is less. -/
def Obligations.LtIsQuietLessThan : Prop :=
  ∀ a b : Word, fLt a b = true ↔
    ¬ Ideal.NaNWord a ∧ ¬ Ideal.NaNWord b ∧ Ideal.extendedValue a < Ideal.extendedValue b

/-- SINQ at the quarter turns, SINQ and COSQ as functions of p/q only, and the change of sign by half a turn
(00_scope.md R21, R22, R24 P2, P3, P5). -/
def Obligations.SineDependsOnFractionOnly : Prop :=
  (∀ q, 0 < q → fSinq 0 q = 0x00000000#32 ∧ fCosq 0 q = 0x3F800000#32) ∧
  (∀ q, 0 < q → 2 ∣ q → fSinq (q / 2) q = 0x00000000#32) ∧
  (∀ q, 0 < q → 4 ∣ q → fSinq (q / 4) q = 0x3F800000#32 ∧ fSinq (3 * q / 4) q = 0xBF800000#32) ∧
  (∀ p q p' q', 0 < q → 0 < q' → p * q' = p' * q → fSinq p q = fSinq p' q' ∧ fCosq p q = fCosq p' q') ∧
  (∀ p q, 0 < q → 2 ∣ q → fSinq p q ≠ 0#32 → fSinq (p + q / 2) q = fNeg (fSinq p q))

/-- SINQ and COSQ are finite and within 2^−24 of the exact sine and cosine (00_scope.md R24 P4, in a weaker
form: the spec's bound is 2^−25). -/
def Obligations.SineIsAccurate : Prop :=
  ∀ p q : Nat, 0 < q →
    (Ideal.FiniteWord (fSinq p q) ∧
      |Ideal.wordValue (fSinq p q) - Real.sin (2 * Real.pi * p / q)| ≤ 2 ^ (-24 : ℤ)) ∧
    (Ideal.FiniteWord (fCosq p q) ∧
      |Ideal.wordValue (fCosq p q) - Real.cos (2 * Real.pi * p / q)| ≤ 2 ^ (-24 : ℤ))

/-! ### The ideal machine -/

/-- R150: in the ideal machine FFT computes the forward DFT, without scaling. -/
def Obligations.IdealFftIsForwardDft : Prop :=
  ∀ (s : Ideal.Store) (M n : Nat), (∃ k, M = 2 ^ k) → 4 ≤ M → (∃ k, n = 2 ^ k) → n ≤ M →
    Ideal.SineTable M s →
    ∀ k, k < n →
      Ideal.complexAt (effect (fftCore Ideal.numerics Ideal.fftPorts M n) s) k =
        Ideal.forwardDft n (Ideal.complexAt s) k

/-- R151: in the ideal machine FFTR computes the DFT of the real sequence in REAL. -/
def Obligations.IdealFftrIsRealDft : Prop :=
  ∀ (s : Ideal.Store) (M m : Nat), (∃ k, M = 2 ^ k) → 4 ≤ M → (∃ k, m = 2 ^ k) → 2 ≤ m → m ≤ M →
    Ideal.SineTable M s →
    ∀ k, k < m →
      Ideal.complexAt (effect (fftrCore Ideal.numerics Ideal.fftPorts M m) s) k =
        Ideal.forwardDft m (fun j => (s .real j : ℂ)) k

/-- R182: in the ideal machine DCT.APPLY, on the tables DCT.INIT builds, computes the orthonormal DCT-II of the
real and of the imaginary half, each on its own. -/
def Obligations.IdealDctIsOrthonormalDctII : Prop :=
  ∀ (s : Ideal.Store) (n : Nat), 1 ≤ n →
    let t := effect (dctCore Ideal.numerics Ideal.dctPorts n)
      (effect (buildTwiddle Ideal.numerics Ideal.dctPorts n) s)
    ∀ k, k < n →
      t .dctd k = Ideal.dctII n (s .dctd) k ∧
      t .dctd (k + n) = Ideal.dctII n (fun j => s .dctd (j + n)) k

/-- In the ideal machine, before the floor, channel c holds the sum of T[c][k]·SPEC[k] over k = 1, …, LEN − 1,
for every table the check of R211 lets pass (42_mel.md R216). -/
def Obligations.IdealMelIsWeightedSum : Prop :=
  ∀ (s : Ideal.Store) (nb len : Nat) (fnum : Nat → Nat), (∀ k, 1 ≤ k → k < len → fnum k ≤ nb) →
    let t := effect (accumulate Ideal.numerics Ideal.melPorts len ((List.range (len - 1)).map fun j => fnum (j + 1)))
      (effect (clearChannels Ideal.numerics Ideal.melPorts nb) s)
    ∀ c, 1 ≤ c → c ≤ nb →
      t .chan c = ∑ k ∈ Finset.Ico 1 len, Ideal.melWeight len fnum (s .wgt) c k * s .spec k
end

