-- ==== Sys2Proof/Laws/Encoding.lean ====
section
/-!
SUPPORT. The fields of a command word (30_encoding.md R101, R106).
-/
namespace Sys2Proof

/-- A command word below 2^32 is the number of the formula. -/
theorem commandWord_toNat {op b a : Nat} (ho : op < 64) (hb : b ≤ maxLength) (ha : a ≤ maxLength) :
    (commandWord op b a).toNat = op * 2 ^ 26 + b * 2 ^ 13 + a := by
  simp only [maxLength] at hb ha
  simp only [commandWord, BitVec.toNat_ofNat]
  omega

theorem fieldOp_toNat (w : Word) : fieldOp w = w.toNat / 2 ^ 26 := by
  have := w.isLt
  simp only [fieldOp, BitVec.extractLsb'_toNat, Nat.shiftRight_eq_div_pow]
  omega

theorem fieldB_toNat (w : Word) : fieldB w = w.toNat / 2 ^ 13 % 2 ^ 13 := by
  simp only [fieldB, BitVec.extractLsb'_toNat, Nat.shiftRight_eq_div_pow]

theorem fieldA_toNat (w : Word) : fieldA w = w.toNat % 2 ^ 13 := by
  simp only [fieldA, BitVec.extractLsb'_toNat, Nat.shiftRight_zero]

section Fields

variable {op b a : Nat} (ho : op < 64) (hb : b ≤ maxLength) (ha : a ≤ maxLength)
include ho hb ha

theorem fieldOp_commandWord : fieldOp (commandWord op b a) = op := by
  rw [fieldOp_toNat, commandWord_toNat ho hb ha]
  simp only [maxLength] at hb ha
  omega

theorem fieldB_commandWord : fieldB (commandWord op b a) = b := by
  rw [fieldB_toNat, commandWord_toNat ho hb ha]
  simp only [maxLength] at hb ha
  omega

theorem fieldA_commandWord : fieldA (commandWord op b a) = a := by
  rw [fieldA_toNat, commandWord_toNat ho hb ha]
  simp only [maxLength] at hb ha
  omega

end Fields

end Sys2Proof
end

