-- ==== Sys2Proof/Laws/Loop.lean ====
section
/-!
SUPPORT. What a piece of pseudocode keeps. A relation R between the store before and after, reflexive and
transitive, is kept by a kernel as soon as the accesses it makes keep it: one lemma for each way to combine
pseudocode and then one for each kernel, with the indices the kernel writes.
-/
namespace Sys2Proof.Machine

set_option linter.unusedSectionVars false

variable {σ F α β : Type}

/-- Every run of `m` relates the store before to the store after. -/
def Keeps (R : σ → σ → Prop) (m : StateM σ α) : Prop := ∀ s, R s (m s).2

section Combine

variable {R : σ → σ → Prop} (hr : ∀ s, R s s) (ht : ∀ s t u, R s t → R t u → R s u)
include hr

theorem keeps_pure (x : α) : Keeps R (pure x : StateM σ α) := fun s => hr s

include ht

omit hr in
theorem keeps_bind {m : StateM σ α} {f : α → StateM σ β} (hm : Keeps R m) (hf : ∀ x, Keeps R (f x)) :
    Keeps R (m >>= f) := fun s => ht _ _ _ (hm s) (hf _ _)

theorem keeps_loop {a k : Nat} {f : Nat → StateM σ Unit}
    (hf : ∀ i, a ≤ i → i < a + k → Keeps R (f i)) : Keeps R (loop a k f) := by
  induction k generalizing a with
  | zero => exact keeps_pure hr ()
  | succ k ih =>
    exact keeps_bind ht (hf a (Nat.le_refl a) (by omega))
      fun _ => ih fun i h1 h2 => hf i (by omega) (by omega)

theorem keeps_collect {a k : Nat} {f : Nat → StateM σ α}
    (hf : ∀ i, a ≤ i → i < a + k → Keeps R (f i)) : Keeps R (collect a k f) := by
  induction k generalizing a with
  | zero => exact keeps_pure hr []
  | succ k ih =>
    refine keeps_bind ht (hf a (Nat.le_refl a) (by omega)) fun x => ?_
    exact keeps_bind ht (ih fun i h1 h2 => hf i (by omega) (by omega)) fun _ => keeps_pure hr _

theorem keeps_loopList {a : Nat} {xs : List α} {f : Nat → α → StateM σ Unit}
    (hf : ∀ i x, a ≤ i → i < a + xs.length → x ∈ xs → Keeps R (f i x)) :
    Keeps R (loopList a xs f) := by
  induction xs generalizing a with
  | nil => exact keeps_pure hr ()
  | cons x xs ih =>
    refine keeps_bind ht (hf a x (Nat.le_refl a) (by simp) (List.mem_cons_self ..)) fun _ => ?_
    refine ih fun i y h1 h2 h3 => hf i y (by omega) ?_ (List.mem_cons_of_mem _ h3)
    simp only [List.length_cons]; omega

end Combine

/-- The reads of a port keep R. -/
def ReadsKeep (R : σ → σ → Prop) (P : Port σ F) : Prop := ∀ i, Keeps R (P.rd i)

/-- The writes of a port at the indices `A` keep R. -/
def WritesKeep (R : σ → σ → Prop) (P : Port σ F) (A : Nat → Prop) : Prop :=
  ∀ i v, A i → Keeps R (P.wr i v)

/-- bitrev stays below 2^L (00_scope.md R26). -/
theorem bitrevFrom_lt (i L : Nat) : ∀ b, b ≤ L → bitrevFrom i L b + 2 ^ (L - b) ≤ 2 ^ L
  | 0, _ => by simp [bitrevFrom]
  | b + 1, h => by
    have ih := bitrevFrom_lt i L b (by omega)
    have e : 2 ^ (L - b) = 2 * 2 ^ (L - (b + 1)) := by
      rw [← Nat.pow_succ']; congr 1; omega
    have e' : L - 1 - b = L - (b + 1) := by omega
    have hb : i / 2 ^ b % 2 ≤ 1 := by omega
    have := Nat.mul_le_mul_right (2 ^ (L - (b + 1))) hb
    simp only [bitrevFrom, e']
    omega

theorem bitrev_lt {i n : Nat} (hn : n ≠ 0) : bitrev i n.log2 < n := by
  have h := bitrevFrom_lt i n.log2 n.log2 (Nat.le_refl _)
  have h2 := Nat.log2_self_le hn
  simp only [Nat.sub_self, Nat.pow_zero] at h
  exact Nat.lt_of_lt_of_le (Nat.lt_of_succ_le h) h2

section Fft

variable {R : σ → σ → Prop} (hr : ∀ s, R s s) (ht : ∀ s t u, R s t → R t u → R s u)
variable (N : Numerics F) {P : FftPorts σ F} {A : Nat → Prop}
variable (rs : ReadsKeep R P.sin) (rr : ReadsKeep R P.re) (ri : ReadsKeep R P.im)
variable (wr : WritesKeep R P.re A) (wi : WritesKeep R P.im A)
include hr ht

/-- FFT.INIT's table writes the indices 0 to M − M/4 of SINTAB only (40_fft.md R131). -/
theorem buildSineTable_keeps {M : Nat} (ws : WritesKeep R P.sin fun i => i < M - M / 4 + 1) :
    Keeps R (buildSineTable N P M) :=
  keeps_loop hr ht fun i _ h => ws i _ (by omega)

include rr ri wr wi

theorem butterfly_keeps (s c : F) {p q : Nat} (hp : A p) (hq : A q) :
    Keeps R (butterfly N P s c p q) := by
  unfold butterfly
  refine keeps_bind ht (rr _) fun _ => keeps_bind ht (rr _) fun _ => ?_
  refine keeps_bind ht (ri _) fun _ => keeps_bind ht (ri _) fun _ => ?_
  refine keeps_bind ht (rr _) fun _ => keeps_bind ht (rr _) fun _ => ?_
  refine keeps_bind ht (wr _ _ hp) fun _ => ?_
  refine keeps_bind ht (ri _) fun _ => keeps_bind ht (ri _) fun _ => ?_
  refine keeps_bind ht (wi _ _ hp) fun _ => ?_
  exact keeps_bind ht (wr _ _ hq) fun _ => wi _ _ hq

theorem finalPair_keeps {p : Nat} (hp : A p) (hq : A (p + 1)) : Keeps R (finalPair N P p) := by
  unfold finalPair
  refine keeps_bind ht (rr _) fun _ => keeps_bind ht (rr _) fun _ => ?_
  refine keeps_bind ht (ri _) fun _ => keeps_bind ht (ri _) fun _ => ?_
  refine keeps_bind ht (rr _) fun _ => keeps_bind ht (rr _) fun _ => ?_
  refine keeps_bind ht (wr _ _ hp) fun _ => ?_
  refine keeps_bind ht (ri _) fun _ => keeps_bind ht (ri _) fun _ => ?_
  refine keeps_bind ht (wi _ _ hp) fun _ => ?_
  exact keeps_bind ht (wr _ _ hq) fun _ => wi _ _ hq

omit ri wi in
theorem swapElems_keeps {i j : Nat} (hi : A i) (hj : A j) : Keeps R (swapElems P.re i j) := by
  unfold swapElems
  refine keeps_bind ht (rr _) fun _ => keeps_bind ht (rr _) fun _ => ?_
  exact keeps_bind ht (wr _ _ hi) fun _ => wr _ _ hj

include rs

theorem fftPass_keeps {M n lf lix : Nat} (hA : ∀ i, i < n → A i) :
    Keeps R (fftPass N P M n lf lix) := by
  refine keeps_loop hr ht fun j _ hj => ?_
  refine keeps_bind ht (rs _) fun s => keeps_bind ht (rs _) fun c => ?_
  refine keeps_loop hr ht fun b _ hb => ?_
  have hb : b < n / lix := by omega
  have h1 : (b + 1) * lix ≤ n := Nat.le_trans (Nat.mul_le_mul_right lix hb) (Nat.div_mul_le_self n lix)
  have h2 : (b + 1) * lix = b * lix + lix := Nat.succ_mul b lix
  exact butterfly_keeps hr ht N rr ri wr wi s c (hA _ (by omega)) (hA _ (by omega))

theorem fftPasses_keeps {M n : Nat} (hA : ∀ i, i < n → A i) :
    ∀ fuel lf lix, Keeps R (fftPasses N P M n fuel lf lix)
  | 0, _, _ => keeps_pure hr ()
  | fuel + 1, lf, lix => by
    unfold fftPasses
    split
    · exact keeps_bind ht (fftPass_keeps hr ht N rs rr ri wr wi hA)
        fun _ => fftPasses_keeps hA fuel _ _
    · exact keeps_pure hr ()

/-- fft_core(n) writes the indices below n of REAL and IMAG only (40_fft.md R136, R137). -/
theorem fftCore_keeps {M n : Nat} (hA : ∀ i, i < n → A i) : Keeps R (fftCore N P M n) := by
  refine keeps_bind ht (fftPasses_keeps hr ht N rs rr ri wr wi hA _ _ _) fun _ => ?_
  refine keeps_bind ht ?_ fun _ => ?_
  · exact keeps_loop hr ht fun h _ hh =>
      finalPair_keeps hr ht N rr ri wr wi (hA _ (by omega)) (hA _ (by omega))
  · refine keeps_loop hr ht fun i _ hi => ?_
    have hj := bitrev_lt (i := i) (n := n) (by omega)
    dsimp only
    split
    · refine keeps_bind ht (swapElems_keeps hr ht rr wr (hA _ (by omega)) (hA _ hj)) fun _ => ?_
      exact swapElems_keeps (P := { P with re := P.im }) hr ht ri wi (hA _ (by omega)) (hA _ hj)
    · exact keeps_pure hr ()

omit ri rs in
theorem deinterleave_keeps {m : Nat} (hA : ∀ i, i < m → A i) : Keeps R (deinterleave P m) := by
  refine keeps_loop hr ht fun i _ hi => keeps_bind ht (rr _) fun x => ?_
  split
  · exact wr _ _ (hA _ (by omega))
  · exact wi _ _ (hA _ (by omega))

theorem splitRound_keeps {M m t : Nat} (h : A (m - t)) : Keeps R (splitRound N P M m t) := by
  unfold splitRound
  refine keeps_bind ht (rs _) fun _ => keeps_bind ht (rs _) fun _ => ?_
  refine keeps_bind ht (ri _) fun _ => keeps_bind ht (ri _) fun _ => ?_
  refine keeps_bind ht (rr _) fun _ => keeps_bind ht (rr _) fun _ => ?_
  refine keeps_bind ht (rr _) fun _ => keeps_bind ht (rr _) fun _ => ?_
  refine keeps_bind ht (wr _ _ h) fun _ => ?_
  exact keeps_bind ht (ri _) fun _ => keeps_bind ht (ri _) fun _ => wi _ _ h

omit rs in
theorem splitEnds_keeps {h : Nat} (h0 : A 0) (hh : A h) : Keeps R (splitEnds N P h) := by
  unfold splitEnds
  refine keeps_bind ht (rr _) fun _ => keeps_bind ht (ri _) fun _ => ?_
  refine keeps_bind ht (wr _ _ hh) fun _ => keeps_bind ht (wi _ _ hh) fun _ => ?_
  refine keeps_bind ht (rr _) fun _ => keeps_bind ht (ri _) fun _ => ?_
  exact keeps_bind ht (wr _ _ h0) fun _ => wi _ _ h0

/-- FFTR writes the indices below m of REAL and IMAG only (40_fft.md R141). -/
theorem fftrCore_keeps {M m : Nat} (hm : 0 < m) (hA : ∀ i, i < m → A i) :
    Keeps R (fftrCore N P M m) := by
  refine keeps_bind ht (deinterleave_keeps hr ht rr wr wi hA) fun _ => ?_
  refine keeps_bind ht (fftCore_keeps hr ht N rs rr ri wr wi fun i h => hA i (by omega)) fun _ => ?_
  refine keeps_bind ht ?_ fun _ => ?_
  · exact keeps_loop hr ht fun t h1 _ => splitRound_keeps hr ht N rs rr ri wr wi (hA _ (by omega))
  refine keeps_bind ht (splitEnds_keeps hr ht N rr ri wr wi (hA _ hm) (hA _ (by omega))) fun _ => ?_
  refine keeps_loop hr ht fun i h1 h2 => ?_
  refine keeps_bind ht (rr _) fun _ => keeps_bind ht (wr _ _ (hA _ (by omega))) fun _ => ?_
  exact keeps_bind ht (ri _) fun _ => wi _ _ (hA _ (by omega))

end Fft

section Dct

variable {R : σ → σ → Prop} (hr : ∀ s, R s s) (ht : ∀ s t u, R s t → R t u → R s u)
variable (N : Numerics F) {P : DctPorts σ F} {n : Nat}
include hr ht

/-- DCT.INIT's tables: the indices below n of DCTWR and DCTWI only (41_dct.md R172). -/
theorem buildTwiddle_keeps (hn : 0 < n) (rr : ReadsKeep R P.wr) (ri : ReadsKeep R P.wi)
    (wr : WritesKeep R P.wr fun i => i < n) (wi : WritesKeep R P.wi fun i => i < n) :
    Keeps R (buildTwiddle N P n) := by
  refine keeps_bind ht ?_ fun _ => ?_
  · exact keeps_loop hr ht fun k _ hk =>
      keeps_bind ht (wr _ _ (by omega)) fun _ => wi _ _ (by omega)
  refine keeps_bind ht (rr _) fun _ => keeps_bind ht (wr _ _ hn) fun _ => ?_
  exact keeps_bind ht (ri _) fun _ => wi _ _ hn

/-- DCT.APPLY writes the indices below 2n of DCTD only (41_dct.md R175, R179). -/
theorem dctCore_keeps (rr : ReadsKeep R P.wr) (ri : ReadsKeep R P.wi) (rd : ReadsKeep R P.data)
    (wd : WritesKeep R P.data fun i => i < 2 * n) : Keeps R (dctCore N P n) := by
  refine keeps_bind ht ?_ fun ext => ?_
  · refine keeps_bind ht (keeps_collect hr ht fun i _ _ => ?_) fun _ => keeps_pure hr _
    refine keeps_bind ht (rd _) fun _ => keeps_bind ht (rd _) fun _ => ?_
    exact keeps_bind ht (rd _) fun _ => keeps_bind ht (rd _) fun _ => keeps_pure hr _
  · refine keeps_loopList hr ht fun k t _ hk _ => ?_
    have hk : k < n := by simpa [dftRows] using hk
    refine keeps_bind ht (rr _) fun _ => keeps_bind ht (ri _) fun _ => ?_
    refine keeps_bind ht (wd _ _ (by omega)) fun _ => ?_
    exact keeps_bind ht (ri _) fun _ => keeps_bind ht (rr _) fun _ => wd _ _ (by omega)

end Dct

section Mel

variable {R : σ → σ → Prop} (hr : ∀ s, R s s) (ht : ∀ s t u, R s t → R t u → R s u)
variable (N : Numerics F) {P : MelPorts σ F}
include hr ht

/-- MEL.MAG writes SPEC[1], …, SPEC[LEN] only (42_mel.md R205). -/
theorem magnitude_keeps {len : Nat} (rr : ReadsKeep R P.re) (ri : ReadsKeep R P.im)
    (ws : WritesKeep R P.spec fun i => 1 ≤ i ∧ i ≤ len) : Keeps R (magnitude N P len) := by
  refine keeps_loop hr ht fun k h1 h2 => ?_
  refine keeps_bind ht (rr _) fun _ => keeps_bind ht (rr _) fun _ => ?_
  exact keeps_bind ht (ri _) fun _ => keeps_bind ht (ri _) fun _ => ws _ _ (by omega)

/-- MEL.ACC writes CHAN[0], …, CHAN[NB+1] only, since the table check bounds every bin by NB
(42_mel.md R211, R212, R214). -/
theorem melCore_keeps {floor : F} {nb len : Nat} {fnums : List Nat} (hf : ∀ f ∈ fnums, f ≤ nb)
    (rw_ : ReadsKeep R P.wgt) (rs : ReadsKeep R P.spec) (rc : ReadsKeep R P.chan)
    (wc : WritesKeep R P.chan fun i => i < nb + 2) : Keeps R (melCore N P floor nb len fnums) := by
  refine keeps_bind ht (keeps_loop hr ht fun c _ h => wc _ _ (by omega)) fun _ => ?_
  refine keeps_bind ht (keeps_loopList hr ht fun k f _ _ hk => ?_) fun _ => ?_
  · have hb := hf f hk
    refine keeps_bind ht ?_ fun _ => ?_
    · unfold lowerShare
      split
      · refine keeps_bind ht (rc _) fun _ => keeps_bind ht (rw_ _) fun _ => ?_
        exact keeps_bind ht (rs _) fun _ => wc _ _ (by omega)
      · exact keeps_pure hr ()
    · unfold upperShare
      split
      · refine keeps_bind ht (rc _) fun _ => keeps_bind ht (rw_ _) fun _ => ?_
        exact keeps_bind ht (rs _) fun _ => wc _ _ (by omega)
      · exact keeps_pure hr ()
  · exact keeps_loop hr ht fun c h1 h2 => keeps_bind ht (rc _) fun _ => wc _ _ (by omega)

end Mel

end Sys2Proof.Machine
end

