-- ==== Sys2Proof/Laws/Memory.lean ====
section
/-!
SUPPORT. The laws of byte memory: read after write, canonical form, words.
-/
namespace Sys2Proof.Machine

@[simp] theorem Memory.byte?_nil (a : Nat) : Memory.byte? [] a = none := rfl

theorem Memory.byte?_cons (k : Nat) (v : Byte) (m : Memory) (a : Nat) :
    Memory.byte? ((k, v) :: m) a = if a = k then some v else m.byte? a := rfl

/-- A byte just written reads as written. -/
@[simp] theorem Memory.byte?_setByte_same (m : Memory) (a : Nat) (v : Byte) :
    (m.setByte a v).byte? a = some v := by
  induction m with
  | nil => simp [Memory.setByte, Memory.byte?_cons]
  | cons c m ih =>
    obtain ⟨k, w⟩ := c
    simp only [Memory.setByte]
    split
    · simp [Memory.byte?_cons]
    · split
      · simp [Memory.byte?_cons]
      · rename_i h; simp [Memory.byte?_cons, h, ih]

/-- A write leaves every other byte alone. -/
@[simp] theorem Memory.byte?_setByte_other (m : Memory) {a b : Nat} (v : Byte) (h : b ≠ a) :
    (m.setByte a v).byte? b = m.byte? b := by
  induction m with
  | nil => simp [Memory.setByte, Memory.byte?_cons, h]
  | cons c m ih =>
    obtain ⟨k, w⟩ := c
    simp only [Memory.setByte]
    split
    · simp [Memory.byte?_cons, h]
    · split
      · rename_i hk; subst hk; simp [Memory.byte?_cons, h]
      · simp [Memory.byte?_cons, ih]

theorem Memory.byte?_setByte (m : Memory) (a b : Nat) (v : Byte) :
    (m.setByte a v).byte? b = if b = a then some v else m.byte? b := by
  by_cases h : b = a
  · subst h; simp
  · simp [h]

/-- The offsets a memory lists after a byte write: the ones before and the one written. -/
theorem Memory.mem_setByte {m : Memory} {a : Nat} {v : Byte} {c : Host.Cell}
    (h : c ∈ m.setByte a v) : c.1 = a ∨ c ∈ m := by
  induction m with
  | nil => simp [Memory.setByte] at h; exact .inl (by rw [h])
  | cons d m ih =>
    obtain ⟨k, w⟩ := d
    simp only [Memory.setByte] at h
    split at h
    · rcases List.mem_cons.1 h with h | h
      · exact .inl (by rw [h])
      · exact .inr h
    · split at h
      · rcases List.mem_cons.1 h with h | h
        · exact .inl (by rw [h])
        · exact .inr (List.mem_cons_of_mem _ h)
      · rcases List.mem_cons.1 h with h | h
        · exact .inr (by rw [h]; exact List.mem_cons_self ..)
        · rcases ih h with h | h
          · exact .inl h
          · exact .inr (List.mem_cons_of_mem _ h)

/-- A byte write keeps the canonical form. -/
theorem Memory.wf_setByte {m : Memory} (h : m.wf) (a : Nat) (v : Byte) : (m.setByte a v).wf := by
  induction m with
  | nil => simp [Memory.setByte, Memory.wf]
  | cons d m ih =>
    obtain ⟨k, w⟩ := d
    have hk := (List.pairwise_cons.1 h).1
    have hm : Memory.wf m := (List.pairwise_cons.1 h).2
    simp only [Memory.setByte]
    split
    · rename_i hlt
      refine List.pairwise_cons.2 ⟨fun c hc => ?_, h⟩
      rcases List.mem_cons.1 hc with hc | hc
      · rw [hc]; exact hlt
      · exact Nat.lt_trans hlt (hk c hc)
    · split
      · rename_i heq
        exact List.pairwise_cons.2 ⟨fun c hc => heq ▸ hk c hc, hm⟩
      · rename_i hge hne
        refine List.pairwise_cons.2 ⟨fun c hc => ?_, ih hm⟩
        rcases Memory.mem_setByte hc with hc | hc
        · simp only [hc]; omega
        · exact hk c hc

/-- A listed byte of a memory in canonical form is what the memory holds there. -/
theorem Memory.byte?_of_mem {m : Memory} (h : m.wf) {c : Host.Cell} (hc : c ∈ m) :
    m.byte? c.1 = some c.2 := by
  induction m with
  | nil => cases hc
  | cons d m ih =>
    obtain ⟨k, w⟩ := d
    rcases List.mem_cons.1 hc with rfl | hm
    · simp [Memory.byte?_cons]
    · have hlt := (List.pairwise_cons.1 h).1 c hm
      have hne : c.1 ≠ k := Nat.ne_of_gt hlt
      simp [Memory.byte?_cons, hne, ih (List.pairwise_cons.1 h).2 hm]

/-- A byte the memory holds is listed. -/
theorem Memory.mem_of_byte? {m : Memory} {a : Nat} {v : Byte} (h : m.byte? a = some v) :
    (a, v) ∈ m := by
  induction m with
  | nil => simp at h
  | cons d m ih =>
    obtain ⟨k, w⟩ := d
    rw [Memory.byte?_cons] at h
    split at h
    · rename_i he; subst he; injection h with h; subst h; exact List.mem_cons_self ..
    · exact List.mem_cons_of_mem _ (ih h)

/-- A word write keeps the canonical form. -/
theorem Memory.wf_setWord {m : Memory} (h : m.wf) (off : Nat) (w : Word) : (m.setWord off w).wf := by
  unfold Memory.setWord
  exact Memory.wf_setByte (Memory.wf_setByte (Memory.wf_setByte (Memory.wf_setByte h _ _) _ _) _ _) _ _

/-- A byte after a word write. -/
theorem Memory.byte?_setWord (m : Memory) (off : Nat) (w : Word) (b : Nat) :
    (m.setWord off w).byte? b =
      if b = off + 3 then some (byteOfWord w 3)
      else if b = off + 2 then some (byteOfWord w 2)
      else if b = off + 1 then some (byteOfWord w 1)
      else if b = off then some (byteOfWord w 0)
      else m.byte? b := by
  simp only [Memory.setWord, Memory.byte?_setByte]

/-- A word write leaves every byte outside its four bytes alone. -/
theorem Memory.byte?_setWord_outside (m : Memory) {off : Nat} (w : Word) {a : Nat}
    (h : ¬ (off ≤ a ∧ a < off + 4)) : (m.setWord off w).byte? a = m.byte? a := by
  rw [Memory.byte?_setWord]
  repeat rw [if_neg (by omega)]

/-- The bytes of a word, put together in little-endian order, are the word. -/
@[simp] theorem wordOfBytes_byteOfWord (w : Word) :
    wordOfBytes (byteOfWord w 0) (byteOfWord w 1) (byteOfWord w 2) (byteOfWord w 3) = w := by
  apply BitVec.eq_of_toNat_eq
  have hw := w.isLt
  simp only [wordOfBytes, byteOfWord, BitVec.extractLsb'_toNat, BitVec.toNat_ofNat,
    Nat.shiftRight_eq_div_pow]
  omega

/-- A word just written reads as written. -/
@[simp] theorem Memory.word?_setWord_same (m : Memory) (off : Nat) (w : Word) :
    (m.setWord off w).word? off = some w := by
  simp [Memory.word?, Memory.byte?_setWord]

/-- Two memories that agree on four bytes agree on the word. -/
theorem Memory.word?_congr {m m' : Memory} {off : Nat}
    (h : ∀ a, off ≤ a → a < off + 4 → m'.byte? a = m.byte? a) : m'.word? off = m.word? off := by
  simp only [Memory.word?, h off (by omega) (by omega), h (off + 1) (by omega) (by omega),
    h (off + 2) (by omega) (by omega), h (off + 3) (by omega) (by omega)]

/-- A word write leaves every word that shares no byte with it alone. -/
theorem Memory.word?_setWord_disjoint (m : Memory) {off off' : Nat} (w : Word)
    (h : off' + 4 ≤ off ∨ off + 4 ≤ off') : (m.setWord off w).word? off' = m.word? off' :=
  Memory.word?_congr fun _ _ _ => Memory.byte?_setWord_outside m w (by omega)

end Sys2Proof.Machine
end

