-- ==== Sys2Proof/Laws/State.lean ====
section
/-!
SUPPORT. One lemma per field of State and update of it, so that no proof unfolds an update.
-/
namespace Sys2Proof.Machine

variable (s : State)

/-! ### setBad -/

@[simp] theorem State.setBad_cfg (u : EngineUnit) : (s.setBad u).cfg = s.cfg := rfl
@[simp] theorem State.setBad_result (u : EngineUnit) : (s.setBad u).result = s.result := rfl
@[simp] theorem State.setBad_status (u : EngineUnit) : (s.setBad u).status = s.status ||| u.badBit := rfl
@[simp] theorem State.setBad_fftM (u : EngineUnit) : (s.setBad u).fftM = s.fftM := rfl
@[simp] theorem State.setBad_dctN (u : EngineUnit) : (s.setBad u).dctN = s.dctN := rfl
@[simp] theorem State.setBad_melNb (u : EngineUnit) : (s.setBad u).melNb = s.melNb := rfl
@[simp] theorem State.setBad_melLen (u : EngineUnit) : (s.setBad u).melLen = s.melLen := rfl
@[simp] theorem State.setBad_melFloor (u : EngineUnit) : (s.setBad u).melFloor = s.melFloor := rfl
@[simp] theorem State.setBad_mem (u : EngineUnit) : (s.setBad u).mem = s.mem := rfl
@[simp] theorem State.setBad_draws (u : EngineUnit) : (s.setBad u).draws = s.draws := rfl
@[simp] theorem State.setBad_host (u : EngineUnit) : (s.setBad u).host = s.host := rfl
@[simp] theorem State.setBad_response (u : EngineUnit) : (s.setBad u).response = s.response := rfl

/-! ### clearBad -/

@[simp] theorem State.clearBad_cfg (u : EngineUnit) : (s.clearBad u).cfg = s.cfg := rfl
@[simp] theorem State.clearBad_result (u : EngineUnit) : (s.clearBad u).result = s.result := rfl
@[simp] theorem State.clearBad_status (u : EngineUnit) : (s.clearBad u).status = s.status &&& ~~~u.badBit := rfl
@[simp] theorem State.clearBad_fftM (u : EngineUnit) : (s.clearBad u).fftM = s.fftM := rfl
@[simp] theorem State.clearBad_dctN (u : EngineUnit) : (s.clearBad u).dctN = s.dctN := rfl
@[simp] theorem State.clearBad_melNb (u : EngineUnit) : (s.clearBad u).melNb = s.melNb := rfl
@[simp] theorem State.clearBad_melLen (u : EngineUnit) : (s.clearBad u).melLen = s.melLen := rfl
@[simp] theorem State.clearBad_melFloor (u : EngineUnit) : (s.clearBad u).melFloor = s.melFloor := rfl
@[simp] theorem State.clearBad_mem (u : EngineUnit) : (s.clearBad u).mem = s.mem := rfl
@[simp] theorem State.clearBad_draws (u : EngineUnit) : (s.clearBad u).draws = s.draws := rfl
@[simp] theorem State.clearBad_host (u : EngineUnit) : (s.clearBad u).host = s.host := rfl
@[simp] theorem State.clearBad_response (u : EngineUnit) : (s.clearBad u).response = s.response := rfl

/-! ### setIll -/

@[simp] theorem State.setIll_cfg : (s.setIll).cfg = s.cfg := rfl
@[simp] theorem State.setIll_result : (s.setIll).result = s.result := rfl
@[simp] theorem State.setIll_status : (s.setIll).status = s.status ||| illBit := rfl
@[simp] theorem State.setIll_fftM : (s.setIll).fftM = s.fftM := rfl
@[simp] theorem State.setIll_dctN : (s.setIll).dctN = s.dctN := rfl
@[simp] theorem State.setIll_melNb : (s.setIll).melNb = s.melNb := rfl
@[simp] theorem State.setIll_melLen : (s.setIll).melLen = s.melLen := rfl
@[simp] theorem State.setIll_melFloor : (s.setIll).melFloor = s.melFloor := rfl
@[simp] theorem State.setIll_mem : (s.setIll).mem = s.mem := rfl
@[simp] theorem State.setIll_draws : (s.setIll).draws = s.draws := rfl
@[simp] theorem State.setIll_host : (s.setIll).host = s.host := rfl
@[simp] theorem State.setIll_response : (s.setIll).response = s.response := rfl

/-! ### returnOk -/

@[simp] theorem State.returnOk_cfg : (s.returnOk).cfg = s.cfg := rfl
@[simp] theorem State.returnOk_result : (s.returnOk).result = okCode := rfl
@[simp] theorem State.returnOk_status : (s.returnOk).status = s.status := rfl
@[simp] theorem State.returnOk_fftM : (s.returnOk).fftM = s.fftM := rfl
@[simp] theorem State.returnOk_dctN : (s.returnOk).dctN = s.dctN := rfl
@[simp] theorem State.returnOk_melNb : (s.returnOk).melNb = s.melNb := rfl
@[simp] theorem State.returnOk_melLen : (s.returnOk).melLen = s.melLen := rfl
@[simp] theorem State.returnOk_melFloor : (s.returnOk).melFloor = s.melFloor := rfl
@[simp] theorem State.returnOk_mem : (s.returnOk).mem = s.mem := rfl
@[simp] theorem State.returnOk_draws : (s.returnOk).draws = s.draws := rfl
@[simp] theorem State.returnOk_host : (s.returnOk).host = s.host := rfl
@[simp] theorem State.returnOk_response : (s.returnOk).response = s.response := rfl

/-! ### resetRegisters -/

@[simp] theorem State.resetRegisters_cfg : (s.resetRegisters).cfg = s.cfg := rfl
@[simp] theorem State.resetRegisters_result : (s.resetRegisters).result = 0#32 := rfl
@[simp] theorem State.resetRegisters_status : (s.resetRegisters).status = 0#32 := rfl
@[simp] theorem State.resetRegisters_fftM : (s.resetRegisters).fftM = 0#32 := rfl
@[simp] theorem State.resetRegisters_dctN : (s.resetRegisters).dctN = 0#32 := rfl
@[simp] theorem State.resetRegisters_melNb : (s.resetRegisters).melNb = 0#32 := rfl
@[simp] theorem State.resetRegisters_melLen : (s.resetRegisters).melLen = 0#32 := rfl
@[simp] theorem State.resetRegisters_melFloor : (s.resetRegisters).melFloor = 0x3F800000#32 := rfl
@[simp] theorem State.resetRegisters_mem : (s.resetRegisters).mem = s.mem := rfl
@[simp] theorem State.resetRegisters_draws : (s.resetRegisters).draws = s.draws := rfl
@[simp] theorem State.resetRegisters_host : (s.resetRegisters).host = s.host := rfl
@[simp] theorem State.resetRegisters_response : (s.resetRegisters).response = s.response := rfl

/-! ### hardwareReset -/

@[simp] theorem State.hardwareReset_cfg : (s.hardwareReset).cfg = s.cfg := rfl
@[simp] theorem State.hardwareReset_result : (s.hardwareReset).result = 0#32 := rfl
@[simp] theorem State.hardwareReset_status : (s.hardwareReset).status = 0#32 := rfl
@[simp] theorem State.hardwareReset_fftM : (s.hardwareReset).fftM = 0#32 := rfl
@[simp] theorem State.hardwareReset_dctN : (s.hardwareReset).dctN = 0#32 := rfl
@[simp] theorem State.hardwareReset_melNb : (s.hardwareReset).melNb = 0#32 := rfl
@[simp] theorem State.hardwareReset_melLen : (s.hardwareReset).melLen = 0#32 := rfl
@[simp] theorem State.hardwareReset_melFloor : (s.hardwareReset).melFloor = 0x3F800000#32 := rfl
@[simp] theorem State.hardwareReset_mem : (s.hardwareReset).mem = [] := rfl
@[simp] theorem State.hardwareReset_draws : (s.hardwareReset).draws = s.draws := rfl
@[simp] theorem State.hardwareReset_host : (s.hardwareReset).host = s.host := rfl
@[simp] theorem State.hardwareReset_response : (s.hardwareReset).response = none := rfl

/-! ### respond -/

@[simp] theorem State.respond_cfg (r : BusResponse) : (s.respond r).cfg = s.cfg := rfl
@[simp] theorem State.respond_result (r : BusResponse) : (s.respond r).result = s.result := rfl
@[simp] theorem State.respond_status (r : BusResponse) : (s.respond r).status = s.status := rfl
@[simp] theorem State.respond_fftM (r : BusResponse) : (s.respond r).fftM = s.fftM := rfl
@[simp] theorem State.respond_dctN (r : BusResponse) : (s.respond r).dctN = s.dctN := rfl
@[simp] theorem State.respond_melNb (r : BusResponse) : (s.respond r).melNb = s.melNb := rfl
@[simp] theorem State.respond_melLen (r : BusResponse) : (s.respond r).melLen = s.melLen := rfl
@[simp] theorem State.respond_melFloor (r : BusResponse) : (s.respond r).melFloor = s.melFloor := rfl
@[simp] theorem State.respond_mem (r : BusResponse) : (s.respond r).mem = s.mem := rfl
@[simp] theorem State.respond_draws (r : BusResponse) : (s.respond r).draws = s.draws := rfl
@[simp] theorem State.respond_host (r : BusResponse) : (s.respond r).host = s.host := rfl
@[simp] theorem State.respond_response (r : BusResponse) : (s.respond r).response = some r := rfl

/-! ### withHost -/

@[simp] theorem State.withHost_cfg (h : List HostEvent) : (s.withHost h).cfg = s.cfg := rfl
@[simp] theorem State.withHost_result (h : List HostEvent) : (s.withHost h).result = s.result := rfl
@[simp] theorem State.withHost_status (h : List HostEvent) : (s.withHost h).status = s.status := rfl
@[simp] theorem State.withHost_fftM (h : List HostEvent) : (s.withHost h).fftM = s.fftM := rfl
@[simp] theorem State.withHost_dctN (h : List HostEvent) : (s.withHost h).dctN = s.dctN := rfl
@[simp] theorem State.withHost_melNb (h : List HostEvent) : (s.withHost h).melNb = s.melNb := rfl
@[simp] theorem State.withHost_melLen (h : List HostEvent) : (s.withHost h).melLen = s.melLen := rfl
@[simp] theorem State.withHost_melFloor (h : List HostEvent) : (s.withHost h).melFloor = s.melFloor := rfl
@[simp] theorem State.withHost_mem (h : List HostEvent) : (s.withHost h).mem = s.mem := rfl
@[simp] theorem State.withHost_draws (h : List HostEvent) : (s.withHost h).draws = s.draws := rfl
@[simp] theorem State.withHost_host (h : List HostEvent) : (s.withHost h).host = h := rfl
@[simp] theorem State.withHost_response (h : List HostEvent) : (s.withHost h).response = s.response := rfl

/-! ### raise: RESULT gets the code, STATUS may get a bit, nothing else changes (60_exceptions.md R247) -/

@[simp] theorem State.raise_cfg (u : Option EngineUnit) (k : ErrorKind) : (s.raise u k).cfg = s.cfg := by
  cases k <;> cases u <;> rfl
@[simp] theorem State.raise_fftM (u : Option EngineUnit) (k : ErrorKind) : (s.raise u k).fftM = s.fftM := by
  cases k <;> cases u <;> rfl
@[simp] theorem State.raise_dctN (u : Option EngineUnit) (k : ErrorKind) : (s.raise u k).dctN = s.dctN := by
  cases k <;> cases u <;> rfl
@[simp] theorem State.raise_melNb (u : Option EngineUnit) (k : ErrorKind) : (s.raise u k).melNb = s.melNb := by
  cases k <;> cases u <;> rfl
@[simp] theorem State.raise_melLen (u : Option EngineUnit) (k : ErrorKind) : (s.raise u k).melLen = s.melLen := by
  cases k <;> cases u <;> rfl
@[simp] theorem State.raise_melFloor (u : Option EngineUnit) (k : ErrorKind) : (s.raise u k).melFloor = s.melFloor := by
  cases k <;> cases u <;> rfl
@[simp] theorem State.raise_mem (u : Option EngineUnit) (k : ErrorKind) : (s.raise u k).mem = s.mem := by
  cases k <;> cases u <;> rfl
@[simp] theorem State.raise_draws (u : Option EngineUnit) (k : ErrorKind) : (s.raise u k).draws = s.draws := by
  cases k <;> cases u <;> rfl
@[simp] theorem State.raise_host (u : Option EngineUnit) (k : ErrorKind) : (s.raise u k).host = s.host := by
  cases k <;> cases u <;> rfl
@[simp] theorem State.raise_response (u : Option EngineUnit) (k : ErrorKind) : (s.raise u k).response = s.response := by
  cases k <;> cases u <;> rfl
@[simp] theorem State.raise_result (u : Option EngineUnit) (k : ErrorKind) :
    (s.raise u k).result = k.code := by
  cases k <;> cases u <;> rfl
@[simp] theorem State.raise_status_illegalCommand (u : Option EngineUnit) :
    (s.raise u .illegalCommand).status = s.status ||| illBit := by
  cases u <;> rfl
@[simp] theorem State.raise_status_badState (u : Option EngineUnit) :
    (s.raise u .badState).status = s.status := by
  cases u <;> rfl
@[simp] theorem State.raise_status_dataSizeMismatch (u : EngineUnit) :
    (s.raise (some u) .dataSizeMismatch).status = s.status ||| u.badBit := rfl
@[simp] theorem State.raise_status_invalidSize (u : EngineUnit) :
    (s.raise (some u) .invalidSize).status = s.status ||| u.badBit := rfl
@[simp] theorem State.raise_status_badTable (u : EngineUnit) :
    (s.raise (some u) .badTable).status = s.status ||| u.badBit := rfl

/-! ### clearSizes and discard: the size registers of one unit become 0 (30_encoding.md R114 step 4) -/

@[simp] theorem State.clearSizes_cfg (u : EngineUnit) : (s.clearSizes u).cfg = s.cfg := by
  cases u <;> rfl
@[simp] theorem State.clearSizes_result (u : EngineUnit) : (s.clearSizes u).result = s.result := by
  cases u <;> rfl
@[simp] theorem State.clearSizes_status (u : EngineUnit) : (s.clearSizes u).status = s.status := by
  cases u <;> rfl
@[simp] theorem State.clearSizes_melFloor (u : EngineUnit) : (s.clearSizes u).melFloor = s.melFloor := by
  cases u <;> rfl
@[simp] theorem State.clearSizes_mem (u : EngineUnit) : (s.clearSizes u).mem = s.mem := by
  cases u <;> rfl
@[simp] theorem State.clearSizes_draws (u : EngineUnit) : (s.clearSizes u).draws = s.draws := by
  cases u <;> rfl
@[simp] theorem State.clearSizes_host (u : EngineUnit) : (s.clearSizes u).host = s.host := by
  cases u <;> rfl
@[simp] theorem State.clearSizes_response (u : EngineUnit) : (s.clearSizes u).response = s.response := by
  cases u <;> rfl
@[simp] theorem State.clearSizes_fft_fftM : (s.clearSizes .fft).fftM = 0#32 := rfl
@[simp] theorem State.clearSizes_dct_fftM : (s.clearSizes .dct).fftM = s.fftM := rfl
@[simp] theorem State.clearSizes_mel_fftM : (s.clearSizes .mel).fftM = s.fftM := rfl
@[simp] theorem State.clearSizes_fft_dctN : (s.clearSizes .fft).dctN = s.dctN := rfl
@[simp] theorem State.clearSizes_dct_dctN : (s.clearSizes .dct).dctN = 0#32 := rfl
@[simp] theorem State.clearSizes_mel_dctN : (s.clearSizes .mel).dctN = s.dctN := rfl
@[simp] theorem State.clearSizes_fft_melNb : (s.clearSizes .fft).melNb = s.melNb := rfl
@[simp] theorem State.clearSizes_dct_melNb : (s.clearSizes .dct).melNb = s.melNb := rfl
@[simp] theorem State.clearSizes_mel_melNb : (s.clearSizes .mel).melNb = 0#32 := rfl
@[simp] theorem State.clearSizes_fft_melLen : (s.clearSizes .fft).melLen = s.melLen := rfl
@[simp] theorem State.clearSizes_dct_melLen : (s.clearSizes .dct).melLen = s.melLen := rfl
@[simp] theorem State.clearSizes_mel_melLen : (s.clearSizes .mel).melLen = 0#32 := rfl

@[simp] theorem State.discard_eq (u : EngineUnit) : s.discard u = (s.clearBad u).clearSizes u := rfl

/-! ### Writing an element and drawing a free value -/

@[simp] theorem writeElem_cfg (b : Buffer) (i : Nat) (w : Word) : (writeElem b i w s).2.cfg = s.cfg := rfl
@[simp] theorem writeElem_result (b : Buffer) (i : Nat) (w : Word) : (writeElem b i w s).2.result = s.result := rfl
@[simp] theorem writeElem_status (b : Buffer) (i : Nat) (w : Word) : (writeElem b i w s).2.status = s.status := rfl
@[simp] theorem writeElem_fftM (b : Buffer) (i : Nat) (w : Word) : (writeElem b i w s).2.fftM = s.fftM := rfl
@[simp] theorem writeElem_dctN (b : Buffer) (i : Nat) (w : Word) : (writeElem b i w s).2.dctN = s.dctN := rfl
@[simp] theorem writeElem_melNb (b : Buffer) (i : Nat) (w : Word) : (writeElem b i w s).2.melNb = s.melNb := rfl
@[simp] theorem writeElem_melLen (b : Buffer) (i : Nat) (w : Word) : (writeElem b i w s).2.melLen = s.melLen := rfl
@[simp] theorem writeElem_melFloor (b : Buffer) (i : Nat) (w : Word) : (writeElem b i w s).2.melFloor = s.melFloor := rfl
@[simp] theorem writeElem_draws (b : Buffer) (i : Nat) (w : Word) : (writeElem b i w s).2.draws = s.draws := rfl
@[simp] theorem writeElem_host (b : Buffer) (i : Nat) (w : Word) : (writeElem b i w s).2.host = s.host := rfl
@[simp] theorem writeElem_response (b : Buffer) (i : Nat) (w : Word) : (writeElem b i w s).2.response = s.response := rfl
@[simp] theorem writeElem_mem (b : Buffer) (i : Nat) (w : Word) :
    (writeElem b i w s).2.mem = s.mem.setWord (b.elemOffset i) w := rfl
@[simp] theorem drawWord_value : (drawWord s).1 = Config.freeWord s.draws := rfl
@[simp] theorem drawWord_draws : (drawWord s).2.draws = s.draws + 1 := rfl
@[simp] theorem drawWord_cfg : (drawWord s).2.cfg = s.cfg := rfl
@[simp] theorem drawWord_result : (drawWord s).2.result = s.result := rfl
@[simp] theorem drawWord_status : (drawWord s).2.status = s.status := rfl
@[simp] theorem drawWord_fftM : (drawWord s).2.fftM = s.fftM := rfl
@[simp] theorem drawWord_dctN : (drawWord s).2.dctN = s.dctN := rfl
@[simp] theorem drawWord_melNb : (drawWord s).2.melNb = s.melNb := rfl
@[simp] theorem drawWord_melLen : (drawWord s).2.melLen = s.melLen := rfl
@[simp] theorem drawWord_melFloor : (drawWord s).2.melFloor = s.melFloor := rfl
@[simp] theorem drawWord_mem : (drawWord s).2.mem = s.mem := rfl
@[simp] theorem drawWord_host : (drawWord s).2.host = s.host := rfl
@[simp] theorem drawWord_response : (drawWord s).2.response = s.response := rfl

/-- Reading an element that has been written gives what it holds and changes nothing. -/
theorem readElem_of_some {b : Buffer} {i : Nat} {w : Word} (h : s.elem? b i = some w) :
    readElem b i s = (w, s) := by
  simp only [readElem, h]

/-- Reading an element that nothing has written gives the next free value. -/
theorem readElem_of_none {b : Buffer} {i : Nat} (h : s.elem? b i = none) :
    readElem b i s = drawWord s := by
  simp only [readElem, h]

/-- Reading an element changes at most the count of free values. -/
theorem readElem_cases (b : Buffer) (i : Nat) :
    (readElem b i s).2 = s ∨ (readElem b i s).2 = { s with draws := s.draws + 1 } := by
  cases h : s.elem? b i with
  | some w => exact .inl (by rw [readElem_of_some s h])
  | none => exact .inr (by rw [readElem_of_none s h]; rfl)

end Sys2Proof.Machine
end

