-- ==== Sys2Proof/Laws/Engine.lean ====
section
/-!
SUPPORT. Everything the engine's pseudocode can do to the machine's state: it writes elements, at indices
that its command allows, and it uses up free values. Frames and the canonical form follow from that once.
-/
namespace Sys2Proof.Machine

/-- One element written in a memory. -/
def putElem (m : Memory) (x : Buffer × Nat × Word) : Memory := m.setWord (x.1.elemOffset x.2.1) x.2.2

/-- The state `t` is `s` with some elements written, all among those `A` allows, and free values used up. -/
def EngineEffect (A : Buffer → Nat → Prop) (s t : State) : Prop :=
  ∃ (ws : List (Buffer × Nat × Word)) (d : Nat), (∀ x ∈ ws, A x.1 x.2.1) ∧
    t = { s with mem := ws.foldl putElem s.mem, draws := d }

theorem EngineEffect.refl (A : Buffer → Nat → Prop) (s : State) : EngineEffect A s s :=
  ⟨[], s.draws, by simp, rfl⟩

theorem EngineEffect.trans {A : Buffer → Nat → Prop} (s t u : State) (h : EngineEffect A s t)
    (h' : EngineEffect A t u) : EngineEffect A s u := by
  obtain ⟨ws, d, ha, rfl⟩ := h
  obtain ⟨ws', d', ha', rfl⟩ := h'
  refine ⟨ws ++ ws', d', fun x hx => ?_, by simp [List.foldl_append]⟩
  rcases List.mem_append.1 hx with hx | hx
  · exact ha x hx
  · exact ha' x hx

theorem EngineEffect.mono {A B : Buffer → Nat → Prop} {s t : State} (h : EngineEffect A s t)
    (hAB : ∀ b i, A b i → B b i) : EngineEffect B s t := by
  obtain ⟨ws, d, ha, rfl⟩ := h
  exact ⟨ws, d, fun x hx => hAB _ _ (ha x hx), rfl⟩

theorem drawWord_effect (A : Buffer → Nat → Prop) : Keeps (EngineEffect A) drawWord :=
  fun s => ⟨[], s.draws + 1, by simp, rfl⟩

theorem readElem_effect (A : Buffer → Nat → Prop) (b : Buffer) (i : Nat) :
    Keeps (EngineEffect A) (readElem b i) := fun s => by
  rcases readElem_cases s b i with h | h
  · rw [h]; exact EngineEffect.refl A s
  · rw [h]; exact ⟨[], s.draws + 1, by simp, rfl⟩

theorem writeElem_effect {A : Buffer → Nat → Prop} {b : Buffer} {i : Nat} (h : A b i) (w : Word) :
    Keeps (EngineEffect A) (writeElem b i w) :=
  fun s => ⟨[(b, i, w)], s.draws, by simpa using h, rfl⟩

section Consequences

variable {A : Buffer → Nat → Prop} {s t : State} (h : EngineEffect A s t)
include h

/-- The pseudocode writes no register. -/
theorem EngineEffect.registers :
    t.cfg = s.cfg ∧ t.result = s.result ∧ t.status = s.status ∧ t.fftM = s.fftM ∧ t.dctN = s.dctN ∧
      t.melNb = s.melNb ∧ t.melLen = s.melLen ∧ t.melFloor = s.melFloor ∧ t.host = s.host ∧
      t.response = s.response := by
  obtain ⟨ws, d, _, rfl⟩ := h
  simp

/-- A property of memories that every allowed element write keeps. -/
theorem EngineEffect.mem_induction {p : Memory → Prop}
    (step : ∀ m b i w, A b i → p m → p (m.setWord (b.elemOffset i) w)) (h0 : p s.mem) : p t.mem := by
  obtain ⟨ws, d, ha, rfl⟩ := h
  show p (ws.foldl putElem s.mem)
  generalize s.mem = m at h0
  induction ws generalizing m with
  | nil => exact h0
  | cons x ws ih =>
    exact ih (fun y hy => ha y (List.mem_cons_of_mem _ hy)) _
      (step _ _ _ _ (ha x (List.mem_cons_self ..)) h0)

/-- The canonical form is kept. -/
theorem EngineEffect.wf (h0 : s.mem.wf) : t.mem.wf :=
  h.mem_induction (fun _ _ _ _ _ hm => Memory.wf_setWord hm _ _) h0

/-- Every byte outside the allowed elements is kept. -/
theorem EngineEffect.byte?_outside {a : Nat}
    (ha : ∀ b i, A b i → ¬ (b.elemOffset i ≤ a ∧ a < b.elemOffset i + 4)) :
    t.mem.byte? a = s.mem.byte? a := by
  refine h.mem_induction (p := fun m => m.byte? a = s.mem.byte? a) (fun m b i w hA hm => ?_) rfl
  rw [Memory.byte?_setWord_outside m w (ha b i hA), hm]

end Consequences

/-! ### The effect of each command's pseudocode -/

theorem elemPort_reads (A : Buffer → Nat → Prop) (b : Buffer) :
    ReadsKeep (EngineEffect A) (elemPort b) := readElem_effect A b

theorem elemPort_writes {A : Buffer → Nat → Prop} {b : Buffer} {B : Nat → Prop}
    (h : ∀ i, B i → A b i) : WritesKeep (EngineEffect A) (elemPort b) B :=
  fun i v hi => writeElem_effect (h i hi) v

/-- The elements FFT and FFTR of length n may write: the first n of REAL and IMAG (40_fft.md R137, R141). -/
def fftElements (n : Nat) (b : Buffer) (i : Nat) : Prop := (b = .real ∨ b = .imag) ∧ i < n

theorem buildSineTable_effect (m : Nat) (s : State) :
    EngineEffect (fun b i => b = .sintab ∧ i < m - m / 4 + 1) s
      (effect (buildSineTable binary32 fftPorts m) s) :=
  buildSineTable_keeps (P := fftPorts) (EngineEffect.refl _) EngineEffect.trans binary32
    (elemPort_writes fun _ hi => ⟨rfl, hi⟩) s

theorem fftCore_effect (M n : Nat) (s : State) :
    EngineEffect (fftElements n) s (effect (fftCore binary32 fftPorts M n) s) :=
  fftCore_keeps (P := fftPorts) (A := fun i => i < n) (EngineEffect.refl _) EngineEffect.trans binary32
    (elemPort_reads _ _) (elemPort_reads _ _) (elemPort_reads _ _)
    (elemPort_writes fun _ h => ⟨.inl rfl, h⟩) (elemPort_writes fun _ h => ⟨.inr rfl, h⟩)
    (fun _ h => h) s

theorem fftrCore_effect (M : Nat) {m : Nat} (hm : 0 < m) (s : State) :
    EngineEffect (fftElements m) s (effect (fftrCore binary32 fftPorts M m) s) :=
  fftrCore_keeps (P := fftPorts) (A := fun i => i < m) (EngineEffect.refl _) EngineEffect.trans binary32
    (elemPort_reads _ _) (elemPort_reads _ _) (elemPort_reads _ _)
    (elemPort_writes fun _ h => ⟨.inl rfl, h⟩) (elemPort_writes fun _ h => ⟨.inr rfl, h⟩)
    hm (fun _ h => h) s

theorem buildTwiddle_effect {n : Nat} (hn : 0 < n) (s : State) :
    EngineEffect (fun b i => (b = .dctwr ∨ b = .dctwi) ∧ i < n) s
      (effect (buildTwiddle binary32 dctPorts n) s) :=
  buildTwiddle_keeps (P := dctPorts) (EngineEffect.refl _) EngineEffect.trans binary32 hn
    (elemPort_reads _ _) (elemPort_reads _ _)
    (elemPort_writes fun _ h => ⟨.inl rfl, h⟩) (elemPort_writes fun _ h => ⟨.inr rfl, h⟩) s

theorem dctCore_effect (n : Nat) (s : State) :
    EngineEffect (fun b i => b = .dctd ∧ i < 2 * n) s (effect (dctCore binary32 dctPorts n) s) :=
  dctCore_keeps (P := dctPorts) (EngineEffect.refl _) EngineEffect.trans binary32
    (elemPort_reads _ _) (elemPort_reads _ _) (elemPort_reads _ _)
    (elemPort_writes fun _ h => ⟨rfl, h⟩) s

theorem magnitude_effect (len : Nat) (s : State) :
    EngineEffect (fun b i => b = .spec ∧ 1 ≤ i ∧ i ≤ len) s
      (effect (magnitude binary32 melPorts len) s) :=
  magnitude_keeps (P := melPorts) (EngineEffect.refl _) EngineEffect.trans binary32
    (elemPort_reads _ _) (elemPort_reads _ _) (elemPort_writes fun _ h => ⟨rfl, h⟩) s

theorem melCore_effect {floor : Word} {nb len : Nat} {fnums : List Nat} (hf : ∀ f ∈ fnums, f ≤ nb)
    (s : State) :
    EngineEffect (fun b i => b = .chan ∧ i < nb + 2) s
      (effect (melCore binary32 melPorts floor nb len fnums) s) :=
  melCore_keeps (P := melPorts) (EngineEffect.refl _) EngineEffect.trans binary32 hf
    (elemPort_reads _ _) (elemPort_reads _ _) (elemPort_reads _ _)
    (elemPort_writes fun _ h => ⟨rfl, h⟩) s

/-- Reading the bins writes no element. -/
theorem readBins_effect (len : Nat) (s : State) :
    EngineEffect (fun _ _ => False) s (readBins len s).2 := by
  refine keeps_collect (EngineEffect.refl _) EngineEffect.trans (fun k _ _ => ?_) s
  exact keeps_bind EngineEffect.trans (readElem_effect _ _ _) fun _ => keeps_pure (EngineEffect.refl _) _

end Sys2Proof.Machine
end

