-- ==== Sys2Proof/Laws/PerInstr.lean ====
section
/-!
SUPPORT. Statements about every command, one lemma per constructor of Instr.
-/
namespace Sys2Proof.Laws

/-- The OP value of a command (30_encoding.md R106). -/
def opOf : Instr → Nat
  | .sysReset => 0x01
  | .fftInit _ => 0x10
  | .fft _ _ => 0x11
  | .fftr _ _ => 0x12
  | .dctInit _ => 0x20
  | .dctApply _ => 0x21
  | .melInit _ _ => 0x30
  | .melMag => 0x31
  | .melAcc => 0x32

/-- The OP field of a well-formed command's word is the command's OP value (R101, R106). -/
def OpField.Statement (i : Instr) : Prop := i.WellFormed → fieldOp (encode i) = opOf i

theorem lengthFits_le {n : Nat} (h : lengthFits n = true) : n ≤ maxLength := by
  simpa [lengthFits] using h

theorem OpField.sysReset : OpField.Statement .sysReset := fun _ => by decide

theorem OpField.fftInit (m : Nat) : OpField.Statement (.fftInit m) := fun h =>
  fieldOp_commandWord (by decide) (by decide) (lengthFits_le h)

theorem OpField.fft (rlen ilen : Nat) : OpField.Statement (.fft rlen ilen) := fun h => by
  simp only [Instr.WellFormed, Instr.wellFormed, Bool.and_eq_true] at h
  exact fieldOp_commandWord (by decide) (lengthFits_le h.2) (lengthFits_le h.1)

theorem OpField.fftr (rlen ilen : Nat) : OpField.Statement (.fftr rlen ilen) := fun h => by
  simp only [Instr.WellFormed, Instr.wellFormed, Bool.and_eq_true] at h
  exact fieldOp_commandWord (by decide) (lengthFits_le h.2) (lengthFits_le h.1)

theorem OpField.dctInit (n : Nat) : OpField.Statement (.dctInit n) := fun h =>
  fieldOp_commandWord (by decide) (by decide) (lengthFits_le h)

theorem OpField.dctApply (dlen : Nat) : OpField.Statement (.dctApply dlen) := fun h =>
  fieldOp_commandWord (by decide) (by decide) (lengthFits_le h)

theorem OpField.melInit (nb len : Nat) : OpField.Statement (.melInit nb len) := fun h => by
  simp only [Instr.WellFormed, Instr.wellFormed, Bool.and_eq_true] at h
  exact fieldOp_commandWord (by decide) (lengthFits_le h.2) (lengthFits_le h.1)

theorem OpField.melMag : OpField.Statement .melMag := fun _ => by decide

theorem OpField.melAcc : OpField.Statement .melAcc := fun _ => by decide

end Sys2Proof.Laws
end

