-- ==== Sys2Proof/Laws/Step.lean ====
section
/-!
SUPPORT. What one step can do, said once: the cases of `step`, and those of a command after its dispatch.
-/
namespace Sys2Proof.Machine

/-- The cases of a step that answers a next state. -/
theorem step_cases {s t : State} (h : step s = .next t) :
    (s.host = [] ∧ t = s) ∨
    (∃ off size rest, s.host = .read off size :: rest ∧ t = hostRead off size (s.withHost rest)) ∨
    (∃ off size v rest, s.host = .write off size v :: rest ∧ isCommandWrite off size = false ∧
      t = hostWrite off size v (s.withHost rest)) ∨
    (∃ off size w rest i, s.host = .write off size w :: rest ∧ isCommandWrite off size = true ∧
      decode w = .ok i ∧ exec i ((s.withHost rest).respond .writeOk) = .next t) ∨
    (∃ off size w rest e, s.host = .write off size w :: rest ∧ isCommandWrite off size = true ∧
      decode w = .error e ∧ t = ((s.withHost rest).respond .writeOk).raise none .illegalCommand) ∨
    (∃ rest, s.host = .hardwareReset :: rest ∧ t = (s.withHost rest).hardwareReset) := by
  unfold step at h
  split at h
  · rename_i hh; injection h with h; exact .inl ⟨hh, h.symm⟩
  · rename_i e rest hh
    cases e with
    | read off size =>
      injection h with h
      exact .inr (.inl ⟨off, size, rest, hh, h.symm⟩)
    | write off size v =>
      simp only [perform] at h
      split at h
      · rename_i hc
        unfold command at h
        split at h
        · rename_i i hd
          exact .inr (.inr (.inr (.inl ⟨off, size, v, rest, i, hh, hc, hd, h⟩)))
        · rename_i e hd
          injection h with h
          exact .inr (.inr (.inr (.inr (.inl ⟨off, size, v, rest, e, hh, hc, hd, h.symm⟩))))
      · rename_i hc
        injection h with h
        exact .inr (.inr (.inl ⟨off, size, v, rest, hh, by simpa using hc, h.symm⟩))
    | hardwareReset =>
      injection h with h
      exact .inr (.inr (.inr (.inr (.inr ⟨rest, hh, h.symm⟩))))

/-- The cases of a command that is not an INIT command: BadState, an error of its own, or Ok. -/
theorem runCommand_cases (u : EngineUnit) (body : CommandBody) (s : State) :
    (s.isBad u = true ∧ runCommand u body s = s.raise (some u) .badState) ∨
    (s.isBad u = false ∧ ∃ k, (body s).1 = some k ∧
      runCommand u body s = (body s).2.raise (some u) k) ∨
    (s.isBad u = false ∧ (body s).1 = none ∧ runCommand u body s = (body s).2.returnOk) := by
  unfold runCommand runBody
  cases hb : s.isBad u with
  | true => exact .inl ⟨rfl, rfl⟩
  | false =>
    obtain ⟨r, t, hr⟩ : ∃ r t, body s = (r, t) := ⟨_, _, rfl⟩
    cases r with
    | none => exact .inr (.inr ⟨rfl, by rw [hr], by simp [hr]⟩)
    | some k => exact .inr (.inl ⟨rfl, k, by rw [hr], by simp [hr]⟩)

/-- The cases of an INIT command: an error of its own, or Ok, after the old construction is discarded. -/
theorem runInit_cases (u : EngineUnit) (body : CommandBody) (s : State) :
    (∃ k, (body (s.discard u)).1 = some k ∧
      runInit u body s = (body (s.discard u)).2.raise (some u) k) ∨
    ((body (s.discard u)).1 = none ∧ runInit u body s = (body (s.discard u)).2.returnOk) := by
  unfold runInit runBody
  generalize body (s.discard u) = r
  obtain ⟨r, t⟩ := r
  cases r with
  | none => exact .inr ⟨rfl, rfl⟩
  | some k => exact .inl ⟨k, rfl, rfl⟩

end Sys2Proof.Machine
end

