-- ==== Sys2Proof/Tests/Slice0.lean ====
section
/-!
SUPPORT. Small tests. Expected values are those of 95_test_vectors.md, whose section a test names; words are
written out bit by bit from the formats of 30_encoding.md R101 to R106. Then, for every statement with
hypotheses, states and operands that meet them.
-/
namespace Sys2Proof.Tests

open Sys2Proof Sys2Proof.Machine

/-! ### Helpers -/

/-- The state after a list of words is stored from element i of a buffer on. -/
def loaded (s : State) (b : Buffer) : Nat → List Word → State
  | _, [] => s
  | i, v :: vs => loaded (writeElem b i v s).2 b (i + 1) vs

/-- The next state of an outcome. -/
def after : Host.Outcome State Fault Refusal → State
  | .next t => t
  | _ => State.reset

/-- Elements lo, …, hi of a buffer. -/
def elems (s : State) (b : Buffer) (lo hi : Nat) : List (Option Word) :=
  (List.range (hi + 1 - lo)).map fun j => s.elem? b (lo + j)

/-- RESULT and STATUS. -/
def ending (s : State) : Word × Word := (s.result, s.status)

/-- Reset state whose next host access is `e`. -/
def facing (e : HostEvent) : State := State.reset.withHost [e]

/-! ### Well-formedness: one ill-formed command for each check -/

theorem test_illFormed_refused :
    (Instr.fftInit 8192).wellFormed = false ∧ (Instr.fft 8192 0).wellFormed = false ∧
    (Instr.fft 0 8192).wellFormed = false ∧ (Instr.fftr 8192 0).wellFormed = false ∧
    (Instr.fftr 0 8192).wellFormed = false ∧ (Instr.dctInit 8192).wellFormed = false ∧
    (Instr.dctApply 8192).wellFormed = false ∧ (Instr.melInit 8192 0).wellFormed = false ∧
    (Instr.melInit 0 8192).wellFormed = false := by decide

theorem test_wellFormed_accepted :
    (Instr.fftInit 8191).wellFormed = true ∧ (Instr.fft 8191 8191).wellFormed = true ∧
    (Instr.fftr 8191 8191).wellFormed = true ∧ (Instr.dctInit 8191).wellFormed = true ∧
    (Instr.dctApply 8191).wellFormed = true ∧ (Instr.melInit 8191 8191).wellFormed = true ∧
    Instr.sysReset.wellFormed = true ∧ Instr.melMag.wellFormed = true ∧ Instr.melAcc.wellFormed = true := by
  decide

/-! ### Decoding: OP (6 bits), B (13 bits), A (13 bits); 95_test_vectors.md section 5 -/

theorem test_decode_sysReset :
    decode 0b000001_0000000000000_0000000000000#32 = .ok .sysReset := by decide

theorem test_decode_fftInit :
    decode 0b010000_0000000000000_1000000000000#32 = .ok (.fftInit 4096) := by decide

theorem test_decode_fft :
    decode 0b010001_0000000000101_0000000000011#32 = .ok (.fft 3 5) := by decide

theorem test_decode_fftr :
    decode 0b010010_0000000000100_0000000001000#32 = .ok (.fftr 8 4) := by decide

theorem test_decode_dctInit :
    decode 0b100000_0000000000000_0000000010100#32 = .ok (.dctInit 20) := by decide

theorem test_decode_dctApply :
    decode 0b100001_0000000000000_0000000101000#32 = .ok (.dctApply 40) := by decide

theorem test_decode_melInit :
    decode 0b110000_0000100000000_0000000010100#32 = .ok (.melInit 20 256) := by decide

theorem test_decode_melMag :
    decode 0b110001_0000000000000_0000000000000#32 = .ok .melMag := by decide

theorem test_decode_melAcc :
    decode 0b110010_0000000000000_0000000000000#32 = .ok .melAcc := by decide

/-- Section 5.2, every row. -/
theorem test_decode_illegal :
    decode 0x00000000#32 = .error (.unassignedOp 0x00) ∧ decode 0xFFFFFFFF#32 = .error (.unassignedOp 0x3F) ∧
    decode 0x08000000#32 = .error (.unassignedOp 0x02) ∧ decode 0x4C000000#32 = .error (.unassignedOp 0x13) ∧
    decode 0x88000000#32 = .error (.unassignedOp 0x22) ∧ decode 0xCC000000#32 = .error (.unassignedOp 0x33) ∧
    decode 0x04000001#32 = .error (.formatZFieldNotZero 0x01) ∧
    decode 0x04002000#32 = .error (.formatZFieldNotZero 0x01) ∧
    decode 0x40002008#32 = .error (.formatA1FieldNotZero 0x10) ∧
    decode 0x80002010#32 = .error (.formatA1FieldNotZero 0x20) ∧
    decode 0x84002020#32 = .error (.formatA1FieldNotZero 0x21) ∧
    decode 0xC4000001#32 = .error (.formatZFieldNotZero 0x31) ∧
    decode 0xC8002000#32 = .error (.formatZFieldNotZero 0x32) := by decide

theorem test_encode_words :
    encode .sysReset = 0x04000000#32 ∧ encode (.fftInit 512) = 0x40000200#32 ∧
    encode (.fft 8191 8191) = 0x47FFFFFF#32 ∧ encode (.fftr 8 4) = 0x48008008#32 ∧
    encode (.dctInit 16) = 0x80000010#32 ∧ encode (.dctApply 32) = 0x84000020#32 ∧
    encode (.melInit 20 256) = 0xC0200014#32 ∧ encode .melMag = 0xC4000000#32 ∧
    encode .melAcc = 0xC8000000#32 := by decide

/-! ### Commands -/

/-- A block whose FFT unit is built for 4, with REAL = 1, 2, 3, 4 and IMAG = 0 (section 6.3). -/
def fftReady : State :=
  loaded (loaded (after (exec (.fftInit 4) State.reset)) .real 0
    [0x3F800000#32, 0x40000000#32, 0x40400000#32, 0x40800000#32]) .imag 0 [0#32, 0#32, 0#32, 0#32]

/-- A block whose DCT unit is built for 3, with DCTD = 1, 2, 3, 0, 0, 0 (section 7.3). -/
def dctReady : State :=
  loaded (after (exec (.dctInit 3) State.reset)) .dctd 0
    [0x3F800000#32, 0x40000000#32, 0x40400000#32, 0#32, 0#32, 0#32]

/-- A block whose MEL unit is constructed for 2 channels and length 4, with the data of section 8.2. -/
def accReady : State :=
  loaded (loaded (loaded (after (exec (.melInit 2 4) State.reset)) .spec 1
    [0x41000000#32, 0x40800000#32, 0x40000000#32]) .bin 1 [0#32, 1#32, 2#32]) .wgt 1
    [0x3E800000#32, 0x3F000000#32, 0x3F400000#32]

/-- A block whose MEL unit is constructed for 1 channel and length 4, with the data of section 8.1. -/
def magReady : State :=
  loaded (loaded (loaded (after (exec (.melInit 1 4) State.reset)) .real 1
    [0x40400000#32, 0#32, 0xC0A00000#32, 0x3F800000#32]) .imag 1
    [0x40800000#32, 0xC0000000#32, 0x41400000#32, 0xBF800000#32]) .spec 0 [0x429A0000#32]

/-- Section 9 line 22, section 11 P4 line 17. -/
theorem test_sysReset_keeps_buffers :
    let t := after (exec .sysReset { fftReady with status := 0x9#32, melFloor := 0#32 })
    ending t = (0#32, 0#32) ∧ t.fftM = 0#32 ∧ t.melFloor = 0x3F800000#32 ∧
      t.elem? .real 0 = some 0x3F800000#32 := by decide +kernel

/-- Section 6.8. -/
theorem test_fftInit_table :
    let t := after (exec (.fftInit 8) State.reset)
    t.fftM = 8#32 ∧ ending t = (0#32, 0#32) ∧ elems t .sintab 0 7 =
      [some 0x00000000#32, some 0x3F3504F3#32, some 0x3F800000#32, some 0x3F3504F3#32, some 0x00000000#32,
        some 0xBF3504F3#32, some 0xBF800000#32, none] := by decide +kernel

/-- Section 9 line 6. -/
theorem test_fftInit_discards_then_fails :
    let t := after (exec (.fftInit 3) fftReady)
    ending t = (2#32, 1#32) ∧ t.fftM = 0#32 ∧ t.mem = fftReady.mem := by decide +kernel

/-- Section 6.3. -/
theorem test_fft_four :
    let t := after (exec (.fft 4 4) fftReady)
    ending t = (0#32, 0#32) ∧
      elems t .real 0 3 = [some 0x41200000#32, some 0xC0000000#32, some 0xC0000000#32, some 0xC0000000#32] ∧
      elems t .imag 0 3 = [some 0x00000000#32, some 0x40000000#32, some 0x00000000#32, some 0xC0000000#32] := by
  decide +kernel

/-- Section 9 lines 16 and 17. -/
theorem test_fft_mismatch_then_badState :
    let t := after (exec (.fft 3 5) State.reset)
    ending t = (1#32, 1#32) ∧ ending (after (exec (.fft 3 5) t)) = (3#32, 1#32) := by decide

/-- Section 6.5. -/
theorem test_fftr_four :
    let t := after (exec (.fftr 4 4) (loaded fftReady .imag 0 [9#32, 9#32, 9#32, 9#32]))
    ending t = (0#32, 0#32) ∧
      elems t .real 0 3 = [some 0x41200000#32, some 0xC0000000#32, some 0xC0000000#32, some 0xC0000000#32] ∧
      elems t .imag 0 3 = [some 0x00000000#32, some 0x40000000#32, some 0x00000000#32, some 0xC0000000#32] := by
  decide +kernel

/-- Section 6.7: a signalling NaN in REAL[0]. -/
theorem test_fftr_nan :
    let t := after (exec (.fftr 4 4) (loaded fftReady .real 0
      [0x7FA00001#32, 0x3F800000#32, 0x40000000#32, 0x40400000#32]))
    elems t .real 0 3 = [some 0x7FC00000#32, some 0x7FC00000#32, some 0x7FC00000#32, some 0x7FC00000#32] ∧
      elems t .imag 0 3 = [some 0x00000000#32, some 0xFFC00000#32, some 0x00000000#32, some 0x7FC00000#32] := by
  decide +kernel

/-- Section 7.3. -/
theorem test_dctInit_three :
    elems dctReady .dctwr 0 3 = [some 0x3E93CD3A#32, some 0x3EB504F3#32, some 0x3E5105EB#32, none] ∧
    elems dctReady .dctwi 0 3 = [some 0x80000000#32, some 0xBE5105EB#32, some 0xBEB504F3#32, none] := by
  decide +kernel

/-- Section 7.6. -/
theorem test_dctInit_range :
    ending (after (exec (.dctInit 0) State.reset)) = (2#32, 2#32) ∧
    ending (after (exec (.dctInit 129) State.reset)) = (2#32, 2#32) := by decide

/-- Section 7.3. -/
theorem test_dctApply_three :
    elems (after (exec (.dctApply 6) dctReady)) .dctd 0 5 =
      [some 0x405DB3D7#32, some 0xBFB504F2#32, some 0xB2B504F3#32, some 0x00000000#32, some 0x34000000#32,
        some 0xB25105EB#32] := by decide +kernel

/-- Section 7.6: a wrong length, then the right one on the bad unit. -/
theorem test_dctApply_sticky :
    let t := after (exec (.dctApply 4) { State.reset with dctN := 4#32 })
    ending t = (2#32, 2#32) ∧ ending (after (exec (.dctApply 8) t)) = (3#32, 2#32) := by decide

/-- Section 8.5. -/
theorem test_melInit_largest :
    let t := after (exec (.melInit 126 256) State.reset)
    (t.melNb, t.melLen) = (126#32, 256#32) ∧ ending t = (0#32, 0#32) := by decide

/-- Section 8.5. -/
theorem test_melInit_range :
    ending (after (exec (.melInit 0 4) State.reset)) = (2#32, 4#32) ∧
    ending (after (exec (.melInit 127 4) State.reset)) = (2#32, 4#32) ∧
    ending (after (exec (.melInit 2 3) State.reset)) = (2#32, 4#32) ∧
    ending (after (exec (.melInit 2 512) State.reset)) = (2#32, 4#32) := by decide

/-- Section 8.1. -/
theorem test_melMag_data :
    elems (after (exec .melMag magReady)) .spec 0 4 =
      [some 0x429A0000#32, some 0x40A00000#32, some 0x40000000#32, some 0x41500000#32, some 0x3FB504F3#32] := by
  decide +kernel

/-- Section 8.1, extremes. -/
theorem test_melMag_extremes :
    elems (after (exec .melMag (loaded (loaded magReady .real 1
      [0x5F800000#32, 0x7F800000#32, 0x7FC00000#32, 0x00000001#32]) .imag 1
      [0#32, 0x3F800000#32, 0#32, 0#32]))) .spec 1 4 =
      [some 0x7F800000#32, some 0x7F800000#32, some 0x7FC00000#32, some 0x00000000#32] := by decide +kernel

/-- Section 8.2. -/
theorem test_melAcc_data :
    elems (after (exec .melAcc accReady)) .chan 0 4 =
      [some 0x00000000#32, some 0x40051592#32, some 0x3FA05A89#32, some 0x3F000000#32, none] := by
  decide +kernel

/-- Section 8.3, the last two rows: the guard `fnum <= LEN`, and the table check. -/
theorem test_melAcc_guards :
    let s := loaded (loaded (after (exec (.melInit 3 2) State.reset)) .spec 1 [0x41200000#32]) .wgt 1
      [0x3F000000#32]
    elems (after (exec .melAcc (loaded s .bin 1 [3#32]))) .chan 0 4 =
        [some 0#32, some 0#32, some 0#32, some 0x3FCE0210#32, some 0#32] ∧
      ending (after (exec .melAcc (loaded s .bin 1 [4#32]))) = (5#32, 4#32) := by decide +kernel

/-! ### Host accesses (section 10) -/

/-- The response to a host access in the reset state. -/
def answer (e : HostEvent) : Option BusResponse := (after (step (facing e))).response

theorem test_register_accesses :
    answer (.read 0x00 4) = some (.readOk 0x5A414645#32) ∧ answer (.read 0x04 4) = some .busError ∧
    answer (.read 0x20 4) = some (.readOk 0x3F800000#32) ∧ answer (.read 0x24 4) = some (.readOk 0x200#32) ∧
    answer (.read 0x28 4) = some (.readOk 0x0080007E#32) ∧ answer (.read 0x2C 4) = some .busError ∧
    answer (.write 0x10 4 16#32) = some .busError ∧ answer (.write 0x20 4 0x7FC00001#32) = some .writeOk := by
  decide

theorem test_window_accesses :
    answer (.read 0x08002 4) = some .busError ∧ answer (.read 0x08000 8) = some .busError ∧
    answer (.write 0x087FC 4 1#32) = some .writeOk ∧ answer (.write 0x08800 4 1#32) = some .busError ∧
    answer (.read 0x04604 4) = some .busError ∧ answer (.write 0x04000 4 1#32) = some .busError ∧
    answer (.write 0x1C1FC 4 1#32) = some .writeOk ∧ answer (.write 0x1C200 4 1#32) = some .busError ∧
    answer (.read 0x1F000 4) = some .busError ∧ answer (.write 0x20400 4 1#32) = some .busError ∧
    answer (.read 0x3FFFC 4) = some .busError := by decide

/-- The last row of section 10. -/
theorem test_illegal_command_write :
    let t := after (step (facing (.write 0x4 4 0#32)))
    ending t = (4#32, 8#32) ∧ t.response = some .writeOk := by decide

/-- The bytes of a word lie little-endian (20_memory.md R71). -/
theorem test_byte_order :
    let m := (after (step (facing (.write 0x8000 4 0x3F800012#32)))).mem
    m.byte? 0x8000 = some 0x12#8 ∧ m.byte? 0x8003 = some 0x3F#8 := by decide

/-- The decimal values of the listings of sections 6 and 8 (30_encoding.md R112): 0.1, −3 and 8. -/
theorem test_listing_decimals :
    (ListingValue.decimal false 1 10).toWord = 0x3DCCCCCD#32 ∧
    (ListingValue.decimal true 3 1).toWord = 0xC0400000#32 ∧
    (ListingValue.decimal false 8 1).toWord = 0x41000000#32 := by decide +kernel

/-- The listing lines of section 11 that name a range (log 20), and a range with a value missing. -/
theorem test_listing_ranges :
    (ListingLine.readElems .real 0 1).assemble = some [.read 0x08000 4, .read 0x08004 4] ∧
    (ListingLine.writeElems .real 1 2 [.word 0#32, .word 1#32]).assemble =
      some [.write 0x08004 4 0#32, .write 0x08008 4 1#32] ∧
    (ListingLine.writeElems .real 1 2 [.word 0#32]).assemble = none := by decide

/-- Section 1.7, and 00_scope.md R24 P2. -/
theorem test_elementary :
    fLn 0x40000000#32 = 0x3F317218#32 ∧ fSinq 1 8 = 0x3F3504F3#32 ∧ fCosq 1 4 = 0#32 ∧
    fSinq 5 8 = 0xBF3504F3#32 := by decide +kernel

/-! ### Witnesses: for every statement with hypotheses, an input that meets them; a clause each, at an end of its
range -/

/-- Numbers that are no power of two. -/
theorem not_pow2_zero : ¬ ∃ k, 0 = 2 ^ k := fun ⟨k, h⟩ => (Nat.two_pow_pos k).ne h

theorem not_pow2_three : ¬ ∃ k, 3 = 2 ^ k := by
  rintro ⟨_ | _ | k, h⟩
  · omega
  · omega
  · have : 2 ^ (k + 2) = 4 * 2 ^ k := by ring
    omega

theorem witness_DecodeOfEncode :
    (Instr.fft 8191 0).WellFormed ∧ (Instr.melInit 0 8191).WellFormed ∧ (Instr.dctApply 8191).WellFormed := by
  decide

theorem witness_DecodeAgreesWithOpcodeMap :
    (⟨"FFT", 0x11, 0x44000000#32, 0xFC000000#32⟩ : OpcodeRow) ∈ opcodeRows ∧
    OpcodeRow.selects ⟨"FFT", 0x11, 0x44000000#32, 0xFC000000#32⟩ 0x47FFFFFF#32 = true ∧
    decode 0x47FFFFFF#32 = .ok (.fft 8191 8191) ∧
    ∀ r ∈ opcodeRows, r.selects 0x40002008#32 = false := by decide

theorem witness_ListingLinesAssemble :
    8191 ≤ 8191 ∧ (Instr.melInit 8191 0).WellFormed ∧ ¬ (Instr.melInit 0 8192).WellFormed ∧ 8191 < 8192 := by
  decide

theorem witness_StepRunsTheDecodedCommand :
    (facing (.write 0x4 4 0xC8000000#32)).host = .write 0x4 4 0xC8000000#32 :: [] ∧
    decode 0xC8000000#32 = .ok .melAcc := by decide

theorem witness_FetchedWordRunsNext : decodeTableWord 32 0x47FFFFFF = some (.fft 8191 8191) := by decide

theorem witness_IllegalWordOnlySetsIll :
    (facing (.write 0x4 4 0xFFFFFFFF#32)).host = .write 0x4 4 0xFFFFFFFF#32 :: [] ∧
    decode 0xFFFFFFFF#32 = .error (.unassignedOp 0x3F) := by decide

theorem witness_StepAlwaysAnswers : State.reset.host = [] := rfl

theorem witness_BadUnitAnswersBadState :
    (commandUnit (.fft 0 0) = some .fft ∧ ({ State.reset with status := 1#32 } : State).isBad .fft = true) ∧
    (commandUnit (.dctApply 0) = some .dct ∧ ({ State.reset with status := 2#32 } : State).isBad .dct = true) ∧
    (commandUnit .melAcc = some .mel ∧ ({ State.reset with status := 4#32 } : State).isBad .mel = true) := by
  decide

theorem witness_ResetRegisterValues : (facing .hardwareReset).host = .hardwareReset :: [] := rfl

theorem witness_HardwareResetForgetsBuffers :
    (fftReady.withHost [.hardwareReset]).host = .hardwareReset :: [] := rfl

/-- A block whose FFT unit is constructed for 4; the table is left out. -/
def fftFour : State := { State.reset with fftM := 4#32 }

theorem witness_TransformChecksInOrder :
    fftFour.isBad .fft = false ∧ 4 ≠ 5 ∧ (¬ ∃ k, 3 = 2 ^ k) ∧ (¬ ∃ k, 0 = 2 ^ k) ∧ fftFour.fftSize < 8 ∧
    1 < 2 :=
  ⟨by decide, by decide, not_pow2_three, not_pow2_zero, by decide, by decide⟩

theorem witness_InitOutOfRangeFails :
    ((¬ ∃ k, 3 = 2 ^ k) ∧ 3 < 4 ∧ State.reset.cfg.mmax < 1024) ∧
    (0 < 1 ∧ State.reset.cfg.ndmax < 129) ∧
    (0 < 1 ∧ State.reset.cfg.nbmax < 127 ∧ (¬ ∃ k, 0 = 2 ^ k) ∧ State.reset.cfg.mmax / 2 < 512) :=
  ⟨⟨not_pow2_three, by decide, by decide⟩, by decide, by decide, by decide, not_pow2_zero, by decide⟩

theorem witness_UnconstructedOrWrongLengthFails :
    (State.reset.isBad .dct = false ∧ State.reset.dctSize = 0) ∧
    (({ State.reset with dctN := 4#32 } : State).isBad .dct = false ∧
      7 ≠ 2 * ({ State.reset with dctN := 4#32 } : State).dctSize) ∧
    (State.reset.isBad .mel = false ∧ State.reset.melLength = 0) := by decide

/-- The MEL unit constructed for 3 channels and length 2 (section 8.3), with BIN[1] = v. -/
def binReady (v : Word) : State := loaded (after (exec (.melInit 3 2) State.reset)) .bin 1 [v]

/-- The MEL unit constructed for 3 channels and length 4, with BIN[2] = 4 and no other entry. -/
def binHalf : State := loaded (after (exec (.melInit 3 4) State.reset)) .bin 2 [4#32]

/-- The least entry above NB: the only one, and between two that nothing has written. -/
theorem witness_BadTableBeforeAnyWrite :
    ((binReady 4#32).isBad .mel = false ∧ (binReady 4#32).melLength ≠ 0 ∧
      (∃ k w, 1 ≤ k ∧ k < (binReady 4#32).melLength ∧ (binReady 4#32).elem? .bin k = some w ∧
        (binReady 4#32).melChannels < w.toNat) ∧
      (binReady 4#32).Written .bin 1 (binReady 4#32).melLength) ∧
    (binHalf.isBad .mel = false ∧ binHalf.melLength ≠ 0 ∧
      (∃ k w, 1 ≤ k ∧ k < binHalf.melLength ∧ binHalf.elem? .bin k = some w ∧ binHalf.melChannels < w.toNat) ∧
      binHalf.elem? .bin 1 = none) := by
  refine ⟨⟨by decide +kernel, by decide +kernel, ⟨1, 4#32, by decide +kernel⟩, ?_⟩,
    by decide +kernel, by decide +kernel, ⟨2, 4#32, by decide +kernel⟩, by decide +kernel⟩
  show ∀ i, 1 ≤ i → i < _ → _
  decide +kernel

theorem witness_FailingCommandsChangeNoData :
    (∃ t, exec (.dctApply 0) State.reset = .next t ∧ t.result ≠ 0#32 ∧ commandUnit (.dctApply 0) = some .dct) ∧
    (∃ t, exec (.melInit 0 1) accReady = .next t ∧ t.result ≠ 0#32 ∧ initUnit (.melInit 0 1) = some .mel) :=
  ⟨⟨_, rfl, by decide +kernel, rfl⟩, _, rfl, by decide +kernel, rfl⟩

theorem witness_FftInitBuildsSineTable :
    State.reset.cfg.Legal ∧ ((∃ k, 4 = 2 ^ k) ∧ 4 ≤ 4 ∧ 4 ≤ State.reset.cfg.mmax) ∧
    ((∃ k, 512 = 2 ^ k) ∧ 4 ≤ 512 ∧ 512 ≤ State.reset.cfg.mmax) :=
  ⟨by decide, ⟨⟨2, rfl⟩, by decide⟩, ⟨9, rfl⟩, by decide⟩

theorem witness_DctInitBuildsTwiddle :
    State.reset.cfg.Legal ∧ (1 ≤ 1 ∧ 1 ≤ State.reset.cfg.ndmax) ∧ (1 ≤ 128 ∧ 128 ≤ State.reset.cfg.ndmax) := by
  decide

theorem witness_MelInitCompletes :
    State.reset.cfg.Legal ∧ (1 ≤ 1 ∧ 1 ≤ State.reset.cfg.nbmax ∧ (∃ k, 1 = 2 ^ k) ∧ 1 ≤ State.reset.cfg.mmax / 2) ∧
    (1 ≤ 126 ∧ 126 ≤ State.reset.cfg.nbmax ∧ (∃ k, 256 = 2 ^ k) ∧ 256 ≤ State.reset.cfg.mmax / 2) :=
  ⟨by decide, ⟨by decide, by decide, ⟨0, rfl⟩, by decide⟩, by decide, by decide, ⟨8, rfl⟩, by decide⟩

theorem witness_TransformsCompleteOnAnyData :
    (fftFour.isBad .fft = false ∧ 2 ^ 0 ≤ fftFour.fftSize ∧ 1 ≤ 2 ∧ 2 ^ 2 ≤ fftFour.fftSize) ∧
    (dctReady.isBad .dct = false ∧ dctReady.dctSize ≠ 0) ∧
    (magReady.isBad .mel = false ∧ magReady.melLength ≠ 0) := by decide +kernel

/-- Both cases of the conclusion are met: an accepted table and a refused one. In `binReady 3` the largest legal
entry is loaded, and no SPEC or WGT word. -/
theorem witness_MelAccAnswersOnAnyData :
    (accReady.isBad .mel = false ∧ accReady.melLength ≠ 0 ∧ (after (exec .melAcc accReady)).result = 0#32) ∧
    ((binReady 4#32).isBad .mel = false ∧ (binReady 4#32).melLength ≠ 0 ∧
      (after (exec .melAcc (binReady 4#32))).result = 5#32) ∧
    ((binReady 3#32).isBad .mel = false ∧ (binReady 3#32).melLength ≠ 0 ∧
      (∀ k, 1 ≤ k → k < (binReady 3#32).melLength →
        ∃ w, (binReady 3#32).elem? .bin k = some w ∧ w.toNat ≤ (binReady 3#32).melChannels) ∧
      (binReady 3#32).elem? .spec 1 = none) := by
  refine ⟨by decide +kernel, by decide +kernel, by decide +kernel, by decide +kernel, fun k h1 h2 => ?_,
    by decide +kernel⟩
  obtain rfl : k = 1 := by
    have h3 : (binReady 3#32).melLength = 2 := by decide +kernel
    omega
  exact ⟨3#32, by decide +kernel⟩

theorem witness_FftOfOneChangesNothing : fftFour.isBad .fft = false ∧ 1 ≤ fftFour.fftSize := by decide

theorem fftReady_inv : fftReady.Inv := by decide +kernel

theorem fftReady_written : fftReady.Written .real 0 4 ∧ fftReady.Written .imag 0 4 := by
  show (∀ i, 0 ≤ i → i < 4 → _) ∧ (∀ i, 0 ≤ i → i < 4 → _)
  decide +kernel

theorem witness_FftComputesDecimation :
    fftReady.Inv ∧ fftReady.isBad .fft = false ∧ 2 ^ 2 ≤ fftReady.fftSize ∧
    fftReady.Written .real 0 (2 ^ 2) ∧ fftReady.Written .imag 0 (2 ^ 2) :=
  ⟨fftReady_inv, by decide +kernel, by decide +kernel, fftReady_written⟩

theorem witness_FftrComputesRealSpectrum :
    fftReady.Inv ∧ fftReady.isBad .fft = false ∧ 2 ^ (1 + 1) ≤ fftReady.fftSize ∧
    fftReady.Written .real 0 (2 ^ (1 + 1)) :=
  ⟨fftReady_inv, by decide +kernel, by decide +kernel, fftReady_written.1⟩

/-- Another table length, the same REAL words, no IMAG words. -/
def fftOther : State :=
  loaded (after (exec (.fftInit 8) State.reset)) .real 0
    [0x3F800000#32, 0x40000000#32, 0x40400000#32, 0x40800000#32]

theorem witness_FftrDependsOnRealOnly :
    fftReady.Inv ∧ fftOther.Inv ∧ fftReady.isBad .fft = false ∧ fftOther.isBad .fft = false ∧
    2 ^ (1 + 1) ≤ fftReady.fftSize ∧ 2 ^ (1 + 1) ≤ fftOther.fftSize ∧ fftReady.Written .real 0 (2 ^ (1 + 1)) ∧
    ∀ i, i < 2 ^ (1 + 1) → fftOther.elem? .real i = fftReady.elem? .real i :=
  ⟨fftReady_inv, by decide +kernel, by decide +kernel, by decide +kernel, by decide +kernel, by decide +kernel,
    fftReady_written.1, by decide +kernel⟩

theorem witness_FftrOutputMirrors :
    fftReady.Inv ∧ fftReady.isBad .fft = false ∧ 2 ^ (1 + 1) ≤ fftReady.fftSize ∧ 1 ≤ 1 ∧ 1 < 2 ^ 1 :=
  ⟨fftReady_inv, by decide +kernel⟩

/-- The impulse of length 4 (section 11 P1 on a smaller size). -/
def impulse : State :=
  loaded (after (exec (.fftInit 4) State.reset)) .real 0 [0x3F800000#32, 0#32, 0#32, 0#32]

theorem witness_FftrOfImpulseIsFlat :
    impulse.Inv ∧ impulse.isBad .fft = false ∧ 2 ^ (1 + 1) ≤ impulse.fftSize ∧
    impulse.elem? .real 0 = some 0x3F800000#32 ∧
    ∀ i, 1 ≤ i → i < 2 ^ (1 + 1) → impulse.elem? .real i = some 0#32 := by
  refine ⟨by decide +kernel, by decide +kernel, by decide +kernel, by decide +kernel, ?_⟩
  decide +kernel

theorem dctReady_inv : dctReady.Inv := by decide +kernel

theorem witness_DctApplyComputesTransform :
    dctReady.Inv ∧ dctReady.isBad .dct = false ∧ dctReady.dctSize ≠ 0 ∧
    dctReady.Written .dctd 0 (2 * dctReady.dctSize) := by
  refine ⟨dctReady_inv, by decide +kernel, by decide +kernel, ?_⟩
  show ∀ i, 0 ≤ i → i < _ → _
  decide +kernel

theorem witness_MelMagComputesMagnitude :
    magReady.Inv ∧ magReady.isBad .mel = false ∧ magReady.melLength ≠ 0 ∧
    magReady.Written .real 1 (magReady.melLength + 1) ∧ magReady.Written .imag 1 (magReady.melLength + 1) := by
  refine ⟨by decide +kernel, by decide +kernel, by decide +kernel, ?_, ?_⟩ <;>
  · show ∀ i, 1 ≤ i → i < _ → _
    decide +kernel

/-- BIN[3] = NB is the largest entry the check lets pass. -/
theorem witness_MelAccComputesChannels :
    accReady.Inv ∧ accReady.isBad .mel = false ∧ accReady.melLength ≠ 0 ∧
    accReady.Written .bin 1 accReady.melLength ∧ accReady.Written .wgt 1 accReady.melLength ∧
    accReady.Written .spec 1 accReady.melLength ∧
    (∀ k, 1 ≤ k → k < accReady.melLength → (accReady.elem .bin k).toNat ≤ accReady.melChannels) ∧
    (accReady.elem .bin 3).toNat = accReady.melChannels := by
  refine ⟨by decide +kernel, by decide +kernel, by decide +kernel, ?_, ?_, ?_, by decide +kernel,
    by decide +kernel⟩ <;>
  · show ∀ i, 1 ≤ i → i < _ → _
    decide +kernel

theorem witness_MisalignedOrOtherSizeRefused : (8 ≠ 4 ∨ 0x8000 % 4 ≠ 0) ∧ (4 ≠ 4 ∨ 0x8002 % 4 ≠ 0) := by decide

/-- REAL[512], the reserved register offset 0x2C, and the first offset past the window (log 17). -/
theorem witness_UnimplementedOffsetsRefused :
    ∀ off ∈ [0x2C, 0x8800, 0x40000], (∀ r : Register, off ≠ r.offset) ∧
      ∀ (b : Buffer) (i : Nat), i < b.elements State.reset.cfg → off ≠ b.elemOffset i := by
  intro off h
  refine ⟨fun r => ?_, fun b i hi => ?_⟩
  · simp at h
    cases r <;> simp [Register.offset] <;> omega
  · simp at h
    cases b <;>
    · simp [Buffer.elements, State.reset, State.resetWith, Config.default] at hi
      simp [Buffer.elemOffset, Buffer.base]
      omega

theorem witness_AccessRightsHold :
    State.reset.cfg.Legal ∧
    (Buffer.base .sintab ≤ 0x7FFF ∧ 0x7FFF < Buffer.base .sintab + Buffer.windowSize .sintab) ∧
    (Buffer.base .dctwi ≤ 0x1E000 ∧ 0x1E000 < Buffer.base .dctwi + Buffer.windowSize .dctwi) := by decide

/-- A state that SYS.RESET leaves, and a word of OP 0x01 that is not its word (95_test_vectors.md section 5.2). -/
theorem witness_SysResetCompletes :
    (∃ t, exec .sysReset fftReady = .next t) ∧ decode 0x04000000#32 = .ok .sysReset ∧
    fieldOp 0x04000001#32 = 0x01 ∧ 0x04000001#32 ≠ 0x04000000#32 :=
  ⟨⟨_, rfl⟩, by decide, by decide, by decide⟩

theorem witness_HostWriteThenRead :
    State.reset.cfg.Legal ∧ Buffer.hostWritable .real = true ∧ 511 < Buffer.elements State.reset.cfg .real := by
  decide

theorem witness_ElementsLieAtTheirOffsets :
    Config.default.Legal ∧ 255 < Buffer.elements Config.default .dctd ∧ 0x203FC % 4 = 0 ∧
    0x203FC = Buffer.elemOffset .dctd 255 := by decide

/-- A specified word, a word above the table's size, and one nothing has written. -/
theorem witness_ElementReads :
    (fftReady.cfg.Legal ∧ 3 < Buffer.elements fftReady.cfg .sintab ∧
      fftReady.elemSpecified .sintab 3 = true ∧ fftReady.elem? .sintab 3 = some 0xBF800000#32) ∧
    (4 < Buffer.elements fftReady.cfg .sintab ∧ fftReady.elemSpecified .sintab 4 = false) ∧
    (511 < Buffer.elements fftReady.cfg .real ∧ fftReady.elemSpecified .real 511 = true ∧
      fftReady.elem? .real 511 = none) := by decide +kernel

theorem witness_ReadsHaveNoSideEffect :
    (facing (.read 0x24 4)).host = .read 0x24 4 :: [] ∧
    ∃ t, step (facing (.read 0x24 4)) = .next t := ⟨rfl, _, rfl⟩

/-- The smallest and the largest parameters. -/
theorem witness_InvariantAtReset :
    (Config.mk 4 1 1 0).Legal ∧ (Config.mk 4096 1022 1024 0x40000).Legal := by decide

theorem witness_InvariantKeptByStep :
    (fftReady.withHost [.write 0x4 4 0x44008004#32]).Inv ∧
    ∃ t, step (fftReady.withHost [.write 0x4 4 0x44008004#32]) = .next t := by
  exact ⟨fftReady_inv, _, rfl⟩

theorem witness_ParametersNeverChange : step State.reset = .next State.reset := rfl

/-- A command that is no INIT, on a block with both tables' units as after reset. -/
theorem witness_TablesChangeOnlyByInit :
    (facing (.write 0x4 4 0x80000003#32)).Inv ∧ ¬ nextIsReset (facing (.write 0x4 4 0x80000003#32)) ∧
    (∃ t, step (facing (.write 0x4 4 0x80000003#32)) = .next t) ∧
    (∀ m, nextCommand (facing (.write 0x4 4 0x80000003#32)) ≠ some (.fftInit m)) ∧
    (∀ n, nextCommand (facing (.write 0x4 4 0x40000004#32)) ≠ some (.dctInit n)) ∧
    Buffer.hasByte .sintab 0 (Buffer.elements State.reset.cfg .sintab) 0x4603 ∧
    Buffer.hasByte .dctwr 0 (Buffer.elements State.reset.cfg .dctwr) 0x1D1FF := by
  have h : nextCommand (facing (.write 0x4 4 0x80000003#32)) = some (.dctInit 3) := by decide
  have h' : nextCommand (facing (.write 0x4 4 0x40000004#32)) = some (.fftInit 4) := by decide
  exact ⟨by decide, by simp [nextIsReset, facing, State.withHost], ⟨_, rfl⟩, fun m => by simp [h], fun n => by simp [h'], by decide, by decide⟩

/-- FFT.INIT clears FFT_BAD; SYS.RESET clears ILL. -/
theorem witness_StickyFlagsClearedOnlyAsStated :
    (∃ t, step { facing (.write 0x4 4 0x40000004#32) with status := 1#32 } = .next t ∧
      ({ facing (.write 0x4 4 0x40000004#32) with status := 1#32 } : State).isBad .fft = true ∧
      t.isBad .fft = false) ∧
    (∃ t, step { facing (.write 0x4 4 0x04000000#32) with status := 8#32 } = .next t ∧
      ({ facing (.write 0x4 4 0x04000000#32) with status := 8#32 } : State).isIll = true ∧ t.isIll = false) :=
  ⟨⟨_, rfl, by decide, by decide +kernel⟩, _, rfl, by decide, by decide +kernel⟩

theorem witness_UnitsAreIndependent :
    (∃ t, exec .melAcc State.reset = .next t) ∧ commandUnit .melAcc = some .mel ∧
    (∃ t, exec (.dctInit 1) State.reset = .next t) ∧ initUnit (.dctInit 1) = some .dct ∧
    EngineUnit.fft ≠ .mel ∧ EngineUnit.fft ≠ .dct :=
  ⟨⟨_, rfl⟩, rfl, ⟨_, rfl⟩, rfl, by decide, by decide⟩

theorem witness_BitrevReversesBits : 0 < 2 ^ 0 ∧ 4095 < 2 ^ 12 ∧ 11 < 12 := by decide

theorem wordValue_one : Ideal.wordValue 0x3F800000#32 = 1 := by
  have h1 : signBit 0x3F800000#32 = false := by decide
  have h2 : exponentField 0x3F800000#32 = 127 := by decide
  have h3 : fractionField 0x3F800000#32 = 0 := by decide
  norm_num [Ideal.wordValue, h1, h2, h3]

theorem wordValue_zero : Ideal.wordValue 0x00000000#32 = 0 := by
  have h1 : signBit 0x00000000#32 = false := by decide
  have h2 : exponentField 0x00000000#32 = 0 := by decide
  have h3 : fractionField 0x00000000#32 = 0 := by decide
  norm_num [Ideal.wordValue, h1, h2, h3]

theorem wordValue_negOne : Ideal.wordValue 0xBF800000#32 = -1 := by
  have h1 : signBit 0xBF800000#32 = true := by decide
  have h2 : exponentField 0xBF800000#32 = 127 := by decide
  have h3 : fractionField 0xBF800000#32 = 0 := by decide
  norm_num [Ideal.wordValue, h1, h2, h3]

/-- The largest finite words, 1.0, a sum and a difference that are zero, and a zero divisor. -/
theorem witness_ArithmeticRoundsToNearest :
    Ideal.FiniteWord 0x7F7FFFFF#32 ∧ Ideal.FiniteWord 0xFF7FFFFF#32 ∧ Ideal.FiniteWord 0x3F800000#32 ∧
    Ideal.FiniteWord 0xBF800000#32 ∧ Ideal.FiniteWord 0x00000000#32 ∧ Ideal.wordValue 0x3F800000#32 ≠ 0 ∧
    Ideal.wordValue 0x3F800000#32 + Ideal.wordValue 0xBF800000#32 = 0 ∧
    Ideal.wordValue 0x3F800000#32 - Ideal.wordValue 0x3F800000#32 = 0 ∧
    Ideal.wordValue 0x00000000#32 = 0 :=
  ⟨by decide, by decide, by decide, by decide, by decide, by simp [wordValue_one],
    by simp [wordValue_one, wordValue_negOne], by simp, wordValue_zero⟩

theorem witness_SqrtRoundsToNearest :
    Ideal.FiniteWord 0x3F800000#32 ∧ 0 ≤ Ideal.wordValue 0x3F800000#32 ∧ Ideal.FiniteWord 0xBF800000#32 ∧
    Ideal.wordValue 0xBF800000#32 < 0 ∧ 2 ^ 24 ≤ 2 ^ 24 :=
  ⟨by decide, by simp [wordValue_one], by decide, by simp [wordValue_negOne], le_rfl⟩

theorem witness_LnIsAccurate :
    Ideal.FiniteWord 0x3F800000#32 ∧ 0 < Ideal.wordValue 0x3F800000#32 ∧ Ideal.FiniteWord 0xBF800000#32 ∧
    Ideal.wordValue 0xBF800000#32 < 0 :=
  ⟨by decide, by simp [wordValue_one], by decide, by simp [wordValue_negOne]⟩

theorem witness_NaNResultsAreCanonical :
    Ideal.NaNWord 0x7FA00001#32 ∧ Ideal.NaNWord 0xFFFFFFFF#32 ∧
    Ideal.NaNWord (fSub 0x7F800000#32 0x7F800000#32) ∧
    (Ideal.FiniteWord 0x00000000#32 ∧ Ideal.wordValue 0x00000000#32 = 0) ∧
    (Ideal.FiniteWord 0xBF800000#32 ∧ Ideal.wordValue 0xBF800000#32 < 0) :=
  ⟨by decide, by decide, by decide +kernel, ⟨by decide, wordValue_zero⟩, by decide, by simp [wordValue_negOne]⟩

theorem witness_NegFlipsTheSignBit : 31 < 32 ∧ 0 < 32 := by decide

theorem witness_SineDependsOnFractionOnly :
    (0 < 1 ∧ 0 < 2 ∧ 2 ∣ 2 ∧ 0 < 4 ∧ 4 ∣ 4) ∧ (0 < 8 ∧ 0 < 16 ∧ 1 * 16 = 2 * 8) ∧ fSinq 1 8 ≠ 0#32 := by
  decide +kernel

theorem witness_SineIsAccurate : 0 < 1 ∧ 0 < 4096 := by decide

/-- A store of the ideal machine that holds the sine table for 4. -/
noncomputable def idealStore : Ideal.Store := fun _ i => Real.sin (2 * Real.pi * i / (4 : Nat))

theorem witness_IdealFftIsForwardDft :
    (∃ k, 4 = 2 ^ k) ∧ 4 ≤ 4 ∧ (∃ k, 4 = 2 ^ k) ∧ 4 ≤ 4 ∧ Ideal.SineTable 4 idealStore ∧ 3 < 4 :=
  ⟨⟨2, rfl⟩, le_rfl, ⟨2, rfl⟩, le_rfl, fun _ _ => rfl, by decide⟩

theorem witness_IdealFftrIsRealDft :
    (∃ k, 4 = 2 ^ k) ∧ 4 ≤ 4 ∧ (∃ k, 2 = 2 ^ k) ∧ 2 ≤ 2 ∧ 2 ≤ 4 ∧ Ideal.SineTable 4 idealStore ∧ 1 < 2 :=
  ⟨⟨2, rfl⟩, le_rfl, ⟨1, rfl⟩, le_rfl, by decide, fun _ _ => rfl, by decide⟩

theorem witness_IdealDctIsOrthonormalDctII : 1 ≤ 1 ∧ 0 < 1 ∧ 2 < 3 := by decide

theorem witness_IdealMelIsWeightedSum :
    (∀ k, 1 ≤ k → k < 4 → (fun k => k - 1) k ≤ 2) ∧ 1 ≤ 2 ∧ 2 ≤ 2 := by
  exact ⟨fun k _ h => by show k - 1 ≤ 2; omega, by decide⟩

end Sys2Proof.Tests
end

section
/-!
PROOFS for 00_scope.md R18, R25, R26 and the invariant after reset: the integer functions, NEG as a bit
operation and the registers' reset values.
-/
namespace Sys2Proof.Machine

/-- Settles O41: after reset the registers are 0, the memory lists nothing and no unit is constructed. -/
theorem invariantAtReset : Obligations.InvariantAtReset := by
  have reset_inv : ∀ c : Config, c.Legal → (State.resetWith c).Inv := fun c hc => by
    have registers : (State.resetWith c).RegistersLegal :=
      ⟨Nat.zero_le 5, Nat.zero_lt_succ 15, .inl rfl, Nat.zero_le _, .inl ⟨rfl, rfl⟩⟩
    have memory : (State.resetWith c).MemoryLegal := by
      simp [State.resetWith, State.MemoryLegal, Memory.wf]
    have tables : (State.resetWith c).TablesBuilt :=
      ⟨fun h => absurd rfl h, fun k hk => absurd hk (Nat.not_lt_zero k)⟩
    exact ⟨hc, registers, memory, tables⟩
  exact ⟨reset_inv Config.default (by decide), reset_inv⟩

/-- Settles O48. -/
theorem ispow2IsPowerOfTwo : Obligations.Ispow2IsPowerOfTwo := by
  refine ⟨fun n => ⟨fun h => ?_, ?_⟩, rfl, rfl, fun k => Nat.log2_two_pow⟩
  · have hn : n ≠ 0 ∧ 2 ^ n.log2 = n := by simpa [isPow2] using h
    exact ⟨n.log2, hn.2.symm⟩
  · rintro ⟨k, rfl⟩
    simp [isPow2, Nat.log2_two_pow]

/-- Settles O53. -/
theorem negFlipsTheSignBit : Obligations.NegFlipsTheSignBit := by
  intro a j hj
  have mask : (0x80000000#32).getLsbD j = decide (j = 31) := by
    revert j; decide
  by_cases h : j = 31 <;> simp [fNeg, mask, h]

theorem bitrevFrom_eq_sum (i L : Nat) :
    ∀ n, bitrevFrom i L n = ∑ b ∈ Finset.range n, i / 2 ^ b % 2 * 2 ^ (L - 1 - b)
  | 0 => rfl
  | n + 1 => by rw [Finset.sum_range_succ, ← bitrevFrom_eq_sum i L n]; rfl

/-- One more bit moves the reversed ones up by one place. -/
theorem bitrev_succ (i L : Nat) : bitrev i (L + 1) = 2 * bitrev i L + i / 2 ^ L % 2 := by
  have shift : ∀ b ∈ Finset.range L,
      i / 2 ^ b % 2 * 2 ^ (L + 1 - 1 - b) = 2 * (i / 2 ^ b % 2 * 2 ^ (L - 1 - b)) := fun b hb => by
    have e : L + 1 - 1 - b = L - 1 - b + 1 := by have := Finset.mem_range.mp hb; omega
    rw [e, Nat.pow_succ]; ring
  simp only [bitrev, bitrevFrom_eq_sum]
  rw [Finset.sum_range_succ, Finset.sum_congr rfl shift, ← Finset.mul_sum]
  simp

theorem testBit_bitrev (i : Nat) : ∀ L b, b < L → (bitrev i L).testBit b = i.testBit (L - 1 - b)
  | L + 1, 0, _ => by
    rw [bitrev_succ, Nat.testBit_zero, Nat.testBit_eq_decide_div_mod_eq]
    simp [Nat.add_mod]
  | L + 1, b + 1, h => by
    have half : bitrev i (L + 1) / 2 = bitrev i L := by rw [bitrev_succ]; omega
    rw [Nat.testBit_succ, half, testBit_bitrev i L b (by omega)]
    congr 1; omega

/-- Settles O47: the sum by the recursion of `bitrevFrom`, the bits by induction on their number. -/
theorem bitrevReversesBits : Obligations.BitrevReversesBits := fun i L _ =>
  have bound : bitrev i L < 2 ^ L := by
    have := bitrevFrom_lt i L L le_rfl
    rw [Nat.sub_self, pow_zero] at this
    exact this
  ⟨bitrevFrom_eq_sum i L L, bound, rfl, testBit_bitrev i L⟩

end Sys2Proof.Machine
end

section
/-!
PROOFS for 00_scope.md R15, R16: the fields of a binary32 word, its value as a whole number of units 2^−149,
and the rounding step that all operations share.
-/
namespace Sys2Proof.Machine

open Sys2Proof.Ideal (FiniteWord NaNWord NearestWord wordValue)

/-! ### Fields and sign of a word -/

/-- Bits 30:0 of a word. -/
def magnitudeBits (w : Word) : Nat := w.toNat % 2 ^ 31

theorem magnitudeBits_lt (w : Word) : magnitudeBits w < 2 ^ 31 := Nat.mod_lt _ (by decide)

theorem signBit_eq (w : Word) : signBit w = decide (2 ^ 31 ≤ w.toNat) := by
  have := w.isLt
  rw [signBit, BitVec.getLsbD, Nat.testBit_eq_decide_div_mod_eq]
  congr 1
  simp only [eq_iff_iff]
  omega

theorem exponentField_eq (w : Word) : exponentField w = magnitudeBits w / 2 ^ 23 := by
  rw [exponentField, magnitudeBits, BitVec.extractLsb'_toNat, Nat.shiftRight_eq_div_pow]
  omega

theorem fractionField_eq (w : Word) : fractionField w = magnitudeBits w % 2 ^ 23 := by
  rw [fractionField, magnitudeBits, BitVec.extractLsb'_toNat, Nat.shiftRight_zero]
  omega

theorem packSigned_signBit_magnitudeBits (w : Word) : packSigned (signBit w) (magnitudeBits w) = w := by
  apply BitVec.eq_of_toNat_eq
  have := w.isLt
  rw [packSigned, BitVec.toNat_ofNat, signBit_eq, magnitudeBits]
  simp only [decide_eq_true_eq]
  split <;> omega

section Pack

variable (neg : Bool) {m : Nat} (h : m < 2 ^ 31)
include h

theorem toNat_packSigned : (packSigned neg m).toNat = if neg then m + 2 ^ 31 else m := by
  rw [packSigned, BitVec.toNat_ofNat, Nat.mod_eq_of_lt]
  split <;> omega

theorem signBit_packSigned : signBit (packSigned neg m) = neg := by
  rw [signBit_eq, toNat_packSigned neg h]
  cases neg <;> simp; omega

theorem magnitudeBits_packSigned : magnitudeBits (packSigned neg m) = m := by
  rw [magnitudeBits, toNat_packSigned neg h]
  split <;> omega

end Pack

theorem signBit_fNeg (w : Word) : signBit (fNeg w) = !signBit w := by
  simp [signBit, fNeg]

theorem magnitudeBits_fNeg (w : Word) : magnitudeBits (fNeg w) = magnitudeBits w := by
  rw [magnitudeBits, fNeg, BitVec.toNat_xor, Nat.xor_mod_two_pow]
  exact Nat.xor_zero _

theorem fNeg_packSigned (neg : Bool) {m : Nat} (h : m < 2 ^ 31) :
    fNeg (packSigned neg m) = packSigned (!neg) m := by
  rw [← packSigned_signBit_magnitudeBits (fNeg _), signBit_fNeg, magnitudeBits_fNeg,
    signBit_packSigned neg h, magnitudeBits_packSigned neg h]

theorem fNeg_packInfinity (neg : Bool) : fNeg (packInfinity neg) = packInfinity (!neg) :=
  fNeg_packSigned neg (by decide)

/-! ### The value of a word -/

/-- The number of units 2^−149 that bits 30:0 of a finite word stand for (R15). -/
def gridValue (m : Nat) : Nat :=
  if m / 2 ^ 23 = 0 then m % 2 ^ 23 else (m % 2 ^ 23 + 2 ^ 23) * 2 ^ (m / 2 ^ 23 - 1)

/-- The number of units 2^−149 of a finite word. -/
def units (w : Word) : Nat := gridValue (magnitudeBits w)

theorem units_eq (w : Word) : units w = if exponentField w = 0 then fractionField w
    else (fractionField w + 2 ^ 23) * 2 ^ (exponentField w - 1) := by
  rw [exponentField_eq, fractionField_eq, units, gridValue]

/-- `m` with a sign. -/
noncomputable def signed (neg : Bool) (m : ℝ) : ℝ := if neg then -m else m

@[simp] theorem signed_false (m : ℝ) : signed false m = m := rfl
@[simp] theorem signed_true (m : ℝ) : signed true m = -m := rfl

@[simp] theorem abs_signed (neg : Bool) (m : ℝ) : |signed neg m| = |m| := by cases neg <;> simp

theorem signed_not (neg : Bool) (m : ℝ) : signed (!neg) m = -signed neg m := by cases neg <;> simp

theorem signed_mul (neg : Bool) (a b : ℝ) : signed neg a * b = signed neg (a * b) := by cases neg <;> simp

theorem signed_sub (neg : Bool) (a b : ℝ) : signed neg a - signed neg b = signed neg (a - b) := by
  cases neg <;> simp; ring

theorem signed_signed (a b : Bool) (m : ℝ) : signed a (signed b m) = signed (a != b) m := by
  cases a <;> cases b <;> simp

/-- The unit 2^−149 that every finite word is a multiple of. -/
noncomputable def ulp : ℝ := 2 ^ (-149 : ℤ)

theorem ulp_pos : 0 < ulp := by unfold ulp; positivity

theorem wordValue_eq (w : Word) : wordValue w = signed (signBit w) (units w) * ulp := by
  have exponent : ∀ e : Nat, e ≠ 0 → (2 : ℝ) ^ ((e : ℤ) - 150) = 2 ^ (e - 1) * ulp := fun e he => by
    rw [ulp, ← zpow_natCast, ← zpow_add₀ two_ne_zero]
    congr 1; omega
  rw [wordValue, units_eq]
  by_cases he : exponentField w = 0
  · cases signBit w <;> simp [he, ulp]
  · rw [if_neg he, if_neg he, exponent _ he]
    cases signBit w <;> simp <;> ring

theorem finiteWord_iff (w : Word) : FiniteWord w ↔ magnitudeBits w < infinityMagnitude := by
  have := magnitudeBits_lt w
  rw [FiniteWord, exponentField_eq, infinityMagnitude]
  omega

theorem packInfinity_of_not_nan {w : Word} (he : exponentField w = 255) (hf : fractionField w = 0) :
    w = packInfinity (signBit w) := by
  have hm : magnitudeBits w = infinityMagnitude := by
    rw [exponentField_eq] at he
    rw [fractionField_eq] at hf
    rw [infinityMagnitude]
    omega
  rw [packInfinity, ← hm, packSigned_signBit_magnitudeBits]

/-! ### What `unpack` reads -/

theorem unpack_of_nan {w : Word} (h : NaNWord w) : unpack w = .nan := by
  simp [unpack, h.1, h.2]

theorem unpack_of_finite {w : Word} (h : FiniteWord w) :
    unpack w = .finite (signBit w) (units w) := by
  rw [unpack, units_eq]
  by_cases he : exponentField w = 0 <;> simp [h, he]

theorem unpack_packInfinity (neg : Bool) : unpack (packInfinity neg) = .infinite neg := by
  cases neg <;> decide

theorem word_cases (w : Word) : NaNWord w ∨ (∃ neg, w = packInfinity neg) ∨ FiniteWord w := by
  by_cases he : exponentField w = 255
  · by_cases hf : fractionField w = 0
    · exact .inr (.inl ⟨_, packInfinity_of_not_nan he hf⟩)
    · exact .inl ⟨he, hf⟩
  · exact .inr (.inr he)

/-! ### Rounding to nearest, ties to even (R16) -/

/-- `q` multiples of 2^k are the number nearest to `y` among the multiples of 2^k, ties to even, and binary32
numbers of the size of `y` are the multiples of 2^k (in units of 2^−149). -/
structure RoundsTo (y : ℝ) (k q : Nat) : Prop where
  low : k ≠ 0 → (2 : ℝ) ^ (k + 23) ≤ y
  nonneg : 0 ≤ y
  high : y < 2 ^ (k + 24)
  near : |(q : ℝ) * 2 ^ k - y| ≤ 2 ^ k / 2
  tie : |(q : ℝ) * 2 ^ k - y| = 2 ^ k / 2 → q % 2 = 0

namespace RoundsTo

variable {y : ℝ} {k q : Nat} (h : RoundsTo y k q)
include h

theorem le : q ≤ 2 ^ 24 := by
  have hp : (0 : ℝ) < 2 ^ k := by positivity
  have h1 := (abs_le.mp h.near).2
  have h2 := h.high
  rw [pow_add] at h2
  have h3 : (q : ℝ) * 2 ^ k < (2 ^ 24 + 1 : ℕ) * 2 ^ k := by push_cast; linarith
  exact Nat.lt_succ_iff.mp (by exact_mod_cast lt_of_mul_lt_mul_right h3 hp.le)

theorem ge (hk : k ≠ 0) : 2 ^ 23 ≤ q := by
  have hp : (0 : ℝ) < 2 ^ k := by positivity
  have h1 := (abs_le.mp h.near).1
  have h2 := h.low hk
  rw [pow_add] at h2
  have h3 : (2 ^ 23 : ℕ) * 2 ^ k < ((q + 1 : ℕ) : ℝ) * 2 ^ k := by push_cast; linarith
  exact Nat.lt_succ_iff.mp (by exact_mod_cast lt_of_mul_lt_mul_right h3 hp.le)

/-- No multiple of 2^k is nearer, and one as near is a tie. -/
theorem nearest_multiple (n : ℤ) :
    |(q : ℝ) * 2 ^ k - y| ≤ |(n : ℝ) * 2 ^ k - y| ∧
    ((n : ℝ) * 2 ^ k ≠ q * 2 ^ k → |(q : ℝ) * 2 ^ k - y| = |(n : ℝ) * 2 ^ k - y| → q % 2 = 0) := by
  have hp : (0 : ℝ) < 2 ^ k := by positivity
  by_cases hn : n = q
  · subst hn; simp
  have apart : (2 : ℝ) ^ k ≤ |(n : ℝ) * 2 ^ k - y| + |(q : ℝ) * 2 ^ k - y| := by
    have h1 : (1 : ℝ) ≤ |(n : ℝ) - q| := by exact_mod_cast Int.one_le_abs (sub_ne_zero.mpr hn)
    calc (2 : ℝ) ^ k ≤ |(n : ℝ) - q| * 2 ^ k := le_mul_of_one_le_left hp.le h1
      _ = |((n : ℝ) * 2 ^ k - y) - ((q : ℝ) * 2 ^ k - y)| := by
        rw [← abs_of_pos hp, ← abs_mul, abs_of_pos hp]; congr 1; ring
      _ ≤ _ := abs_sub _ _
  have near := h.near
  exact ⟨by linarith, fun _ heq => h.tie (by linarith)⟩

/-- A number below the binade of `y` is farther than the binade's lower end. -/
theorem nearer_than_below (hk : k ≠ 0) {z : ℝ} (hz : z < 2 ^ (k + 23)) :
    |(q : ℝ) * 2 ^ k - y| < |z - y| := by
  have low := h.low hk
  have e : ((2 ^ 23 : ℤ) : ℝ) * 2 ^ k = 2 ^ (k + 23) := by push_cast; ring
  have := (h.nearest_multiple (2 ^ 23)).1
  rw [e, abs_of_nonpos (by linarith : (2 : ℝ) ^ (k + 23) - y ≤ 0)] at this
  rw [abs_of_neg (by linarith : z - y < 0)]
  linarith

end RoundsTo

theorem gridValue_lt {m k : Nat} (h : m / 2 ^ 23 ≤ k + 1) : gridValue m < 2 ^ (k + 24) := by
  have hf : m % 2 ^ 23 < 2 ^ 23 := Nat.mod_lt _ (by decide)
  rw [gridValue]
  split
  · exact hf.trans_le (Nat.pow_le_pow_right (by decide) (by omega))
  · calc (m % 2 ^ 23 + 2 ^ 23) * 2 ^ (m / 2 ^ 23 - 1)
        < 2 ^ 24 * 2 ^ (m / 2 ^ 23 - 1) := Nat.mul_lt_mul_of_pos_right (by omega) (Nat.two_pow_pos _)
      _ = 2 ^ (24 + (m / 2 ^ 23 - 1)) := (Nat.pow_add ..).symm
      _ ≤ 2 ^ (k + 24) := Nat.pow_le_pow_right (by decide) (by omega)

/-- A number of units a word can hold is a multiple of 2^k, or below the numbers whose spacing is 2^k. -/
theorem gridValue_cases (m k : Nat) :
    (∃ n, gridValue m = n * 2 ^ k) ∨ (k ≠ 0 ∧ gridValue m < 2 ^ (k + 23)) := by
  rcases Nat.eq_zero_or_pos k with rfl | hk
  · exact .inl ⟨gridValue m, by simp⟩
  rcases Nat.lt_or_ge k (m / 2 ^ 23) with he | he
  · refine .inl ⟨(m % 2 ^ 23 + 2 ^ 23) * 2 ^ (m / 2 ^ 23 - 1 - k), ?_⟩
    rw [gridValue, if_neg (by omega), Nat.mul_assoc, ← Nat.pow_add, Nat.sub_add_cancel (by omega)]
  · have := gridValue_lt (m := m) (k := k - 1) (by omega)
    exact .inr ⟨hk.ne', by rwa [show k - 1 + 24 = k + 23 by omega] at this⟩

/-- The encoding of `q` multiples of 2^k, a carry into the next exponent included. -/
theorem gridValue_encoding {k q : Nat} (hle : q ≤ 2 ^ 24) (hge : k ≠ 0 → 2 ^ 23 ≤ q) :
    gridValue (k * 2 ^ 23 + q) = q * 2 ^ k := by
  rcases Nat.lt_or_ge q (2 ^ 23) with h | h
  · obtain rfl : k = 0 := by by_contra hk; exact absurd (hge hk) (by omega)
    have e : (0 * 2 ^ 23 + q) / 2 ^ 23 = 0 := by omega
    rw [gridValue, if_pos e]
    omega
  · rcases Nat.lt_or_ge q (2 ^ 24) with h' | h'
    · have e : (k * 2 ^ 23 + q) / 2 ^ 23 = k + 1 := by omega
      have f : (k * 2 ^ 23 + q) % 2 ^ 23 + 2 ^ 23 = q := by omega
      rw [gridValue, e, f]
      simp
    · obtain rfl : q = 2 ^ 24 := by omega
      have e : (k * 2 ^ 23 + 2 ^ 24) / 2 ^ 23 = k + 2 := by omega
      have f : (k * 2 ^ 23 + 2 ^ 24) % 2 ^ 23 = 0 := by omega
      rw [gridValue, e, f]
      simp [Nat.pow_succ]
      ring

/-- Below half a step under 2^128 (2^277 units) the encoding stays below that of the infinity. -/
theorem RoundsTo.encoding_lt {y : ℝ} {k q : Nat} (h : RoundsTo y k q) (hy : y < (2 ^ 25 - 1) * 2 ^ 252) :
    k * 2 ^ 23 + q < infinityMagnitude := by
  have hP : (0 : ℝ) < 2 ^ 252 := by positivity
  have hle := h.le
  have hk : k ≤ 253 := by
    by_contra hk
    have h1 := h.low (by omega)
    have h2 : (2 : ℝ) ^ (25 + 252) ≤ 2 ^ (k + 23) := pow_le_pow_right₀ one_le_two (by omega)
    rw [pow_add] at h2
    linarith
  rw [infinityMagnitude]
  rcases Nat.lt_or_ge k 253 with hk' | hk'
  · omega
  · obtain rfl : k = 253 := by omega
    have h1 := (abs_le.mp h.near).2
    rw [pow_succ] at h1
    have h2 : (q : ℝ) * 2 ^ 252 < (2 ^ 24 : ℕ) * 2 ^ 252 := by push_cast; linarith
    have : q < 2 ^ 24 := by exact_mod_cast lt_of_mul_lt_mul_right h2 hP.le
    omega

/-- From half a step under 2^128 on the encoding reaches that of the infinity: the tie goes up. -/
theorem RoundsTo.le_encoding {y : ℝ} {k q : Nat} (h : RoundsTo y k q) (hy : (2 ^ 25 - 1) * 2 ^ 252 ≤ y) :
    infinityMagnitude ≤ k * 2 ^ 23 + q := by
  have hP : (0 : ℝ) < 2 ^ 252 := by positivity
  have hk : 253 ≤ k := by
    by_contra hk
    have h1 := h.high
    have h2 : (2 : ℝ) ^ (k + 24) ≤ 2 ^ (24 + 252) := pow_le_pow_right₀ one_le_two (by omega)
    rw [pow_add 2 24 252] at h2
    linarith
  have hge := h.ge (by omega)
  rw [infinityMagnitude]
  rcases Nat.lt_or_ge 253 k with hk' | hk'
  · omega
  · obtain rfl : k = 253 := by omega
    suffices q ≠ 2 ^ 24 - 1 ∧ 2 ^ 24 - 2 < q by omega
    have h1 := (abs_le.mp h.near).1
    have tie := h.tie
    rw [pow_succ] at h1 tie
    constructor
    · rintro rfl
      have := tie (by rw [abs_of_nonpos] <;> norm_num at h1 ⊢ <;> linarith)
      omega
    · have h2 : ((2 ^ 24 - 2 : ℕ) : ℝ) * 2 ^ 252 < q * 2 ^ 252 := by push_cast; linarith
      exact_mod_cast lt_of_mul_lt_mul_right h2 hP.le

/-- The word of sign `neg` whose bits 30:0 encode `q` multiples of 2^k, an infinity past the finite ones. -/
def encodedWord (neg : Bool) (k q : Nat) : Word :=
  packSigned neg (min (k * 2 ^ 23 + q) infinityMagnitude)

theorem min_infinityMagnitude_lt (m : Nat) : min m infinityMagnitude < 2 ^ 31 :=
  (Nat.min_le_right ..).trans_lt (by decide)

@[simp] theorem signBit_encodedWord (neg : Bool) (k q : Nat) : signBit (encodedWord neg k q) = neg :=
  signBit_packSigned neg (min_infinityMagnitude_lt _)

theorem magnitudeBits_encodedWord (neg : Bool) (k q : Nat) :
    magnitudeBits (encodedWord neg k q) = min (k * 2 ^ 23 + q) infinityMagnitude :=
  magnitudeBits_packSigned neg (min_infinityMagnitude_lt _)

theorem signed_neg_cases {neg : Bool} {y : ℝ} (hy : 0 ≤ y) :
    (signed neg y < 0 → neg = true) ∧ (0 < signed neg y → neg = false) := by
  cases neg <;> simp [hy]

namespace RoundsTo

variable {y : ℝ} {k q : Nat} (h : RoundsTo y k q) (neg : Bool)
include h

theorem wordValue_encodedWord (hlt : k * 2 ^ 23 + q < infinityMagnitude) :
    wordValue (encodedWord neg k q) = signed neg ((q : ℝ) * 2 ^ k) * ulp := by
  rw [wordValue_eq, signBit_encodedWord, units, magnitudeBits_encodedWord, min_eq_left hlt.le,
    gridValue_encoding h.le h.ge]
  push_cast; rfl

/-- Every finite word is, seen from the side of `y`, a multiple of 2^k or below the binade of `y`: so none is
nearer to `y`, and one as near is a tie. -/
theorem nearest_wordValue (v : Word) :
    |signed neg ((q : ℝ) * 2 ^ k) * ulp - signed neg y * ulp| ≤ |wordValue v - signed neg y * ulp| ∧
    (wordValue v ≠ signed neg ((q : ℝ) * 2 ^ k) * ulp →
      |signed neg ((q : ℝ) * 2 ^ k) * ulp - signed neg y * ulp| = |wordValue v - signed neg y * ulp| →
      q % 2 = 0) := by
  obtain ⟨z, hv, hz⟩ : ∃ z : ℝ, wordValue v = signed neg z * ulp ∧
      ((∃ n : ℤ, z = n * 2 ^ k) ∨ (k ≠ 0 ∧ z < 2 ^ (k + 23))) := by
    refine ⟨signed (neg != signBit v) (units v), ?_, ?_⟩
    · rw [wordValue_eq, signed_signed]; cases neg <;> simp
    rcases gridValue_cases (magnitudeBits v) k with ⟨n, hn⟩ | ⟨hk, hlt⟩
    · refine .inl ⟨if (neg != signBit v) then -n else n, ?_⟩
      rw [units, hn]
      cases neg != signBit v <;> simp
    · have hlt' : (units v : ℝ) < 2 ^ (k + 23) := by exact_mod_cast hlt
      refine .inr ⟨hk, (le_abs_self _).trans_lt ?_⟩
      rwa [abs_signed, abs_of_nonneg (Nat.cast_nonneg _)]
  have hu := ulp_pos
  have dist : ∀ a : ℝ, |signed neg a * ulp - signed neg y * ulp| = |a - y| * ulp := fun a => by
    rw [← sub_mul, signed_sub, abs_mul, abs_signed, abs_of_pos hu]
  rw [hv, dist, dist]
  rcases hz with ⟨n, rfl⟩ | ⟨hk, hlt⟩
  · obtain ⟨near, tie⟩ := h.nearest_multiple n
    refine ⟨mul_le_mul_of_nonneg_right near hu.le, fun hne heq => tie ?_ (mul_right_cancel₀ hu.ne' heq)⟩
    rintro e
    rw [e] at hne
    exact hne rfl
  · have near := mul_lt_mul_of_pos_right (h.nearer_than_below hk hlt) hu
    exact ⟨near.le, fun _ heq => absurd heq near.ne⟩

/-- The rounding step of every operation: overflow goes to the infinity, everything below to the nearest finite
word, ties to the even one. -/
theorem nearestWord : NearestWord (signed neg y * ulp) (encodedWord neg k q) := by
  have hu := ulp_pos
  have abs_x : |signed neg y * ulp| = y * ulp := by
    rw [abs_mul, abs_signed, abs_of_nonneg h.nonneg, abs_of_pos hu]
  have bound : (2 : ℝ) ^ 128 - 2 ^ 103 = (2 ^ 25 - 1) * 2 ^ 252 * ulp := by norm_num [ulp]
  obtain ⟨sign_neg, sign_pos⟩ := signed_neg_cases (neg := neg) h.nonneg
  rw [NearestWord, signBit_encodedWord, abs_x, bound]
  refine ⟨fun hx => sign_neg (by nlinarith), fun hx => sign_pos (by nlinarith), fun hy => ?_, fun hy => ?_⟩
  · have := h.le_encoding (le_of_mul_le_mul_right hy hu)
    rw [encodedWord, min_eq_right this, packInfinity]
  · have hlt := h.encoding_lt (lt_of_mul_lt_mul_right hy hu.le)
    rw [h.wordValue_encodedWord neg hlt, finiteWord_iff, fractionField_eq, magnitudeBits_encodedWord,
      min_eq_left hlt.le]
    refine ⟨hlt, fun v _ => (h.nearest_wordValue neg v).1, fun v _ hne heq => ?_⟩
    have := (h.nearest_wordValue neg v).2 hne heq
    omega

end RoundsTo

/-! ### The rounding of a quotient -/

theorem roundDiv_spec (num : Nat) {den : Nat} (hd : 0 < den) :
    |(roundDiv num den : ℝ) - num / den| ≤ 1 / 2 ∧
    (|(roundDiv num den : ℝ) - num / den| = 1 / 2 → roundDiv num den % 2 = 0) := by
  have hd' : (0 : ℝ) < den := by exact_mod_cast hd
  obtain ⟨q, hq⟩ : ∃ q, q = num / den := ⟨_, rfl⟩
  obtain ⟨r, hr⟩ : ∃ r, r = num % den := ⟨_, rfl⟩
  have split : (num : ℝ) / den = q + r / den := by
    have : num = den * q + r := by rw [hq, hr, Nat.div_add_mod]
    rw [this]; push_cast; field_simp
  have hlt : (r : ℝ) / den < 1 := (div_lt_one hd').mpr (by rw [hr]; exact_mod_cast Nat.mod_lt _ hd)
  have hge : (0 : ℝ) ≤ r / den := by positivity
  have above : den < 2 * r ↔ 1 / 2 < (r : ℝ) / den := by
    rw [lt_div_iff₀ hd', ← Nat.cast_lt (α := ℝ)]; push_cast; constructor <;> intro <;> linarith
  have half : 2 * r = den ↔ (r : ℝ) / den = 1 / 2 := by
    rw [div_eq_iff hd'.ne', ← Nat.cast_inj (R := ℝ)]; push_cast; constructor <;> intro <;> linarith
  rw [roundDiv, ← hq, ← hr, split]
  split_ifs with hup
  · have up : 1 / 2 < (r : ℝ) / den ∨ ((r : ℝ) / den = 1 / 2 ∧ q % 2 = 1) := by
      rwa [gt_iff_lt, above, half] at hup
    have e : |((q + 1 : ℕ) : ℝ) - (q + r / den)| = 1 - r / den := by
      rw [abs_of_nonneg] <;> push_cast <;> linarith
    rw [e]
    rcases up with up | ⟨up, hodd⟩
    · exact ⟨by linarith, fun h => absurd h (by linarith)⟩
    · exact ⟨by linarith, fun _ => by omega⟩
  · have down : (r : ℝ) / den ≤ 1 / 2 ∧ ((r : ℝ) / den = 1 / 2 → q % 2 = 0) := by
      rw [gt_iff_lt, above, half] at hup
      push Not at hup
      exact ⟨hup.1, fun h => by have := hup.2 h; omega⟩
    have e : |(q : ℝ) - (q + r / den)| = r / den := by
      rw [abs_of_nonpos] <;> linarith
    rw [e]
    exact down

/-- The excess of the leading bit of ⌊y⌋ over 23 is the exponent of the step at `y`. -/
theorem binade_of_floor {y : ℝ} {n : Nat} (hle : (n : ℝ) ≤ y) (hlt : y < n + 1) :
    (n.log2 - 23 ≠ 0 → (2 : ℝ) ^ (n.log2 - 23 + 23) ≤ y) ∧ y < 2 ^ (n.log2 - 23 + 24) := by
  constructor
  · intro hk
    have hn : n ≠ 0 := by rintro rfl; simp at hk
    rw [Nat.sub_add_cancel (by omega)]
    exact le_trans (by exact_mod_cast Nat.log2_self_le hn) hle
  · have h1 : n + 1 ≤ 2 ^ (n.log2 - 23 + 24) :=
      Nat.lt_log2_self.trans_le (Nat.pow_le_pow_right (by decide) (by omega))
    exact hlt.trans_le (by exact_mod_cast h1)

theorem roundsTo_div (num : Nat) {den : Nat} (hd : 0 < den) :
    RoundsTo ((num : ℝ) / den) ((num / den).log2 - 23)
      (roundDiv num (den * 2 ^ ((num / den).log2 - 23))) := by
  have hd' : (0 : ℝ) < den := by exact_mod_cast hd
  have floor_le : ((num / den : ℕ) : ℝ) ≤ num / den := Nat.cast_div_le
  have lt_floor : (num : ℝ) / den < (num / den : ℕ) + 1 := by
    rw [div_lt_iff₀ hd']
    exact_mod_cast Nat.lt_mul_of_div_lt (Nat.lt_succ_self _) hd
  obtain ⟨low, high⟩ := binade_of_floor floor_le lt_floor
  generalize (num / den).log2 - 23 = k at *
  have hp : (0 : ℝ) < 2 ^ k := by positivity
  obtain ⟨near, tie⟩ := roundDiv_spec num (den := den * 2 ^ k) (by positivity)
  have scale : |(roundDiv num (den * 2 ^ k) : ℝ) * 2 ^ k - num / den| =
      |(roundDiv num (den * 2 ^ k) : ℝ) - num / (den * 2 ^ k : ℕ)| * 2 ^ k := by
    rw [← abs_of_pos hp, ← abs_mul, abs_of_pos hp]
    push_cast
    congr 1; field_simp
  refine ⟨low, by positivity, high, ?_, fun h => tie ?_⟩
  · rw [scale]; nlinarith
  · rw [scale] at h
    exact mul_right_cancel₀ hp.ne' (by linarith)

theorem nearestWord_roundSigned (neg : Bool) (num : Nat) {den : Nat} (hd : 0 < den) :
    NearestWord (signed neg ((num : ℝ) / den) * ulp) (roundSigned neg num den) :=
  (roundsTo_div num hd).nearestWord neg

theorem roundMagnitude_lt (num den : Nat) : roundMagnitude num den < 2 ^ 31 := min_infinityMagnitude_lt _

theorem signBit_roundSigned (neg : Bool) (num den : Nat) : signBit (roundSigned neg num den) = neg :=
  signBit_packSigned neg (roundMagnitude_lt num den)

end Sys2Proof.Machine
end

section
/-!
PROOFS for 00_scope.md R16 to R20: ADD, SUB, MUL, DIV, NaN results, LT, SQRT and I2F.
-/
namespace Sys2Proof.Machine

open Sys2Proof.Ideal (FiniteWord NaNWord NearestWord wordValue extendedValue)

/-! ### Finite operands, as a sign and a number of units -/

theorem units_eq_zero_iff (w : Word) : units w = 0 ↔ magnitudeBits w = 0 := by
  rw [units, gridValue]
  split
  · omega
  · have : 0 < (magnitudeBits w % 2 ^ 23 + 2 ^ 23) * 2 ^ (magnitudeBits w / 2 ^ 23 - 1) := by positivity
    omega

theorem wordValue_eq_zero_iff (w : Word) : wordValue w = 0 ↔ units w = 0 := by
  rw [wordValue_eq]
  cases signBit w <;> simp [ulp_pos.ne']

theorem wordValue_plusZero : wordValue 0#32 = 0 := (wordValue_eq_zero_iff _).mpr (by decide)

theorem wordValue_neg_iff (w : Word) : wordValue w < 0 ↔ signBit w = true ∧ units w ≠ 0 := by
  have hu := ulp_pos
  have hm : (0 : ℝ) ≤ units w := Nat.cast_nonneg _
  rw [wordValue_eq, ← Nat.pos_iff_ne_zero, ← Nat.cast_pos (α := ℝ)]
  cases signBit w <;> simp [hu]

theorem signBit_of_nonneg {w : Word} (h : 0 ≤ wordValue w) (hu : units w ≠ 0) : signBit w = false := by
  by_contra hs
  exact absurd ((wordValue_neg_iff w).mpr ⟨by simpa using hs, hu⟩) h.not_gt

theorem eq_packSigned_zero {w : Word} (h : units w = 0) : w = packSigned (signBit w) 0 := by
  rw [← (units_eq_zero_iff w).mp h, packSigned_signBit_magnitudeBits]

theorem eq_negZero_iff (w : Word) : w = 0x80000000#32 ↔ signBit w = true ∧ units w = 0 := by
  refine ⟨?_, fun ⟨hs, hu⟩ => by rw [eq_packSigned_zero hu, hs]; rfl⟩
  rintro rfl
  decide

theorem finiteWord_fNeg {w : Word} (h : FiniteWord w) : FiniteWord (fNeg w) := by
  rw [finiteWord_iff] at h ⊢
  rwa [magnitudeBits_fNeg]

theorem units_fNeg (w : Word) : units (fNeg w) = units w := by rw [units, magnitudeBits_fNeg, units]

theorem wordValue_fNeg (w : Word) : wordValue (fNeg w) = -wordValue w := by
  rw [wordValue_eq, wordValue_eq, units_fNeg, signBit_fNeg, signed_not, neg_mul]

/-! ### The operations on finite operands -/

theorem signed_addSigned (na nb : Bool) (ma mb : Nat) :
    signed (addSigned na ma nb mb).1 (addSigned na ma nb mb).2 = signed na ma + signed nb mb := by
  rw [addSigned]
  split_ifs with hs heq hlt
  · subst hs; cases na <;> simp; ring
  · subst heq; cases na <;> cases nb <;> simp at hs ⊢
  · rw [Nat.cast_sub hlt.le]; cases na <;> cases nb <;> simp at hs ⊢ <;> ring
  · rw [Nat.cast_sub (by omega)]; cases na <;> cases nb <;> simp at hs ⊢ <;> ring

section Finite

variable {a b : Word} (ha : FiniteWord a) (hb : FiniteWord b)
include ha hb

theorem fAdd_finite : fAdd a b = roundSigned (addSigned (signBit a) (units a) (signBit b) (units b)).1
    (addSigned (signBit a) (units a) (signBit b) (units b)).2 1 := by
  rw [fAdd, unpack_of_finite ha, unpack_of_finite hb]

theorem fMul_finite : fMul a b = roundSigned (signBit a != signBit b) (units a * units b) (2 ^ 149) := by
  rw [fMul, unpack_of_finite ha, unpack_of_finite hb]

theorem fDiv_finite (h : wordValue b ≠ 0) :
    fDiv a b = roundSigned (signBit a != signBit b) (units a * 2 ^ 149) (units b) := by
  rw [Ne, wordValue_eq_zero_iff] at h
  rw [fDiv, unpack_of_finite ha, unpack_of_finite hb]
  exact if_neg h

theorem fDiv_by_zero (h : wordValue b = 0) :
    fDiv a b = if wordValue a = 0 then canonicalNaN else packInfinity (signBit a != signBit b) := by
  rw [wordValue_eq_zero_iff] at h
  rw [fDiv, unpack_of_finite ha, unpack_of_finite hb]
  simp [h, wordValue_eq_zero_iff]

theorem nearestWord_fAdd : NearestWord (wordValue a + wordValue b) (fAdd a b) := by
  have := nearestWord_roundSigned (addSigned (signBit a) (units a) (signBit b) (units b)).1
    (addSigned (signBit a) (units a) (signBit b) (units b)).2 one_pos
  rwa [Nat.cast_one, div_one, signed_addSigned, add_mul, ← wordValue_eq, ← wordValue_eq,
    ← fAdd_finite ha hb] at this

theorem nearestWord_fSub : NearestWord (wordValue a - wordValue b) (fSub a b) := by
  rw [sub_eq_add_neg, ← wordValue_fNeg]
  exact nearestWord_fAdd ha (finiteWord_fNeg hb)

theorem nearestWord_fMul : NearestWord (wordValue a * wordValue b) (fMul a b) := by
  have := nearestWord_roundSigned (signBit a != signBit b) (units a * units b) (Nat.two_pow_pos 149)
  rw [← fMul_finite ha hb] at this
  convert this using 1
  rw [wordValue_eq, wordValue_eq, ← signed_signed]
  cases signBit a <;> cases signBit b <;> simp [ulp] <;> ring

theorem nearestWord_fDiv (h : wordValue b ≠ 0) : NearestWord (wordValue a / wordValue b) (fDiv a b) := by
  have hm := mt (wordValue_eq_zero_iff b).mpr h
  have := nearestWord_roundSigned (signBit a != signBit b) (units a * 2 ^ 149) (Nat.pos_of_ne_zero hm)
  rw [← fDiv_finite ha hb h] at this
  convert this using 1
  have hm' : (units b : ℝ) ≠ 0 := by exact_mod_cast hm
  rw [wordValue_eq, wordValue_eq, ← signed_signed]
  cases signBit a <;> cases signBit b <;> simp [ulp] <;> field_simp <;> norm_num

theorem fAdd_eq_zero (h : wordValue a + wordValue b = 0) :
    fAdd a b = if a = 0x80000000#32 ∧ b = 0x80000000#32 then 0x80000000#32 else 0x00000000#32 := by
  rw [wordValue_eq, wordValue_eq, ← add_mul, mul_eq_zero, or_iff_left ulp_pos.ne'] at h
  simp only [fAdd_finite ha hb, eq_negZero_iff, addSigned]
  by_cases hs : signBit a = signBit b
  · have sum_zero : (units a : ℝ) + units b = 0 := by
      rw [hs] at h
      cases hb : signBit b <;> simp [hb] at h <;> linarith
    have zero : units a = 0 ∧ units b = 0 := Nat.add_eq_zero_iff.mp (by exact_mod_cast sum_zero)
    simp only [zero, hs, and_true, and_self, if_true]
    cases signBit b <;> rfl
  · have cast_eq : (units a : ℝ) = units b := by
      cases ha : signBit a <;> cases hb : signBit b <;> simp [ha, hb] at h hs <;> linarith
    have eq : units a = units b := by exact_mod_cast cast_eq
    rw [if_neg hs, if_pos eq, if_neg fun ⟨ha, hb⟩ => hs (ha.1.trans hb.1.symm)]
    rfl

theorem fSub_eq_zero (h : wordValue a - wordValue b = 0) :
    fSub a b = if a = 0x80000000#32 ∧ b = 0x00000000#32 then 0x80000000#32 else 0x00000000#32 := by
  have hb' : fNeg b = 0x80000000#32 ↔ b = 0x00000000#32 := by
    rw [fNeg]; constructor
    · intro h; simpa using congrArg (· ^^^ 0x80000000#32) h
    · rintro rfl; rfl
  rw [fSub, fAdd_eq_zero ha (finiteWord_fNeg hb) (by rw [wordValue_fNeg]; linarith)]
  simp only [hb']

end Finite

/-! ### Infinite operands -/

section Infinite

variable (n : Bool) {b : Word} (hb : FiniteWord b)
include hb

theorem fAdd_infinity_finite : fAdd (packInfinity n) b = packInfinity n := by
  rw [fAdd, unpack_packInfinity, unpack_of_finite hb]

theorem fAdd_finite_infinity : fAdd b (packInfinity n) = packInfinity n := by
  rw [fAdd, unpack_packInfinity, unpack_of_finite hb]

theorem fMul_infinity_finite : fMul (packInfinity n) b =
    if wordValue b = 0 then canonicalNaN else packInfinity (n != signBit b) := by
  rw [fMul, unpack_packInfinity, unpack_of_finite hb]
  simp only [wordValue_eq_zero_iff]

theorem fMul_finite_infinity : fMul b (packInfinity n) =
    if wordValue b = 0 then canonicalNaN else packInfinity (n != signBit b) := by
  rw [fMul, unpack_packInfinity, unpack_of_finite hb]
  simp only [wordValue_eq_zero_iff, bne_comm]

theorem fDiv_infinity_finite : fDiv (packInfinity n) b = packInfinity (n != signBit b) := by
  rw [fDiv, unpack_packInfinity, unpack_of_finite hb]

theorem fDiv_finite_infinity : fDiv b (packInfinity n) = packSigned (n != signBit b) 0 := by
  rw [fDiv, unpack_packInfinity, unpack_of_finite hb]
  simp only [bne_comm]

end Infinite

section TwoInfinities

variable (n m : Bool)

theorem fAdd_infinities :
    fAdd (packInfinity n) (packInfinity m) = if n = m then packInfinity n else canonicalNaN := by
  rw [fAdd, unpack_packInfinity, unpack_packInfinity]

theorem fMul_infinities : fMul (packInfinity n) (packInfinity m) = packInfinity (n != m) := by
  rw [fMul, unpack_packInfinity, unpack_packInfinity]

theorem fDiv_infinities : fDiv (packInfinity n) (packInfinity m) = canonicalNaN := by
  rw [fDiv, unpack_packInfinity, unpack_packInfinity]

end TwoInfinities

/-- Settles O49: one rounding of the exact result (`RoundsTo.nearestWord`), then the operands it leaves out. -/
theorem arithmeticRoundsToNearest : Obligations.ArithmeticRoundsToNearest := by
  refine ⟨fun a b ha hb => ?_, fun n b hb => ?_, fun n m => ?_⟩
  · have mul_sign : signBit (fMul a b) = (signBit a != signBit b) := by
      rw [fMul_finite ha hb, signBit_roundSigned]
    have div_sign (h : wordValue b ≠ 0) : signBit (fDiv a b) = (signBit a != signBit b) := by
      rw [fDiv_finite ha hb h, signBit_roundSigned]
    have div_zero (ha' : wordValue a ≠ 0) (hb' : wordValue b = 0) :
        fDiv a b = packInfinity (signBit a != signBit b) := by
      rw [fDiv_by_zero ha hb hb', if_neg ha']
    exact ⟨nearestWord_fAdd ha hb, nearestWord_fSub ha hb, nearestWord_fMul ha hb, nearestWord_fDiv ha hb,
      fAdd_eq_zero ha hb, fSub_eq_zero ha hb, mul_sign, div_sign, div_zero⟩
  · have sub_infinity : fSub b (packInfinity n) = packInfinity (!n) := by
      rw [fSub, fNeg_packInfinity, fAdd_finite_infinity _ hb]
    have mul_nonzero (h : wordValue b ≠ 0) : fMul (packInfinity n) b = packInfinity (n != signBit b) ∧
        fMul b (packInfinity n) = packInfinity (n != signBit b) := by
      rw [fMul_infinity_finite n hb, fMul_finite_infinity n hb, if_neg h]
      exact ⟨rfl, rfl⟩
    exact ⟨fAdd_infinity_finite n hb, fAdd_finite_infinity n hb, fAdd_infinity_finite n (finiteWord_fNeg hb),
      sub_infinity, mul_nonzero, fDiv_infinity_finite n hb, fDiv_finite_infinity n hb⟩
  · rw [fSub, fNeg_packInfinity, Bool.not_not, fAdd_infinities, if_pos rfl]
    exact ⟨rfl, rfl, fMul_infinities n m⟩

/-! ### NaN (R17) -/

section NaNOperand

variable {a : Word} (h : NaNWord a) (b : Word)
include h

theorem nanWord_fNeg : NaNWord (fNeg a) := by
  rwa [NaNWord, exponentField_eq, fractionField_eq, magnitudeBits_fNeg, ← exponentField_eq,
    ← fractionField_eq]

theorem fAdd_nan_left : fAdd a b = canonicalNaN := by rw [fAdd, unpack_of_nan h]

theorem fMul_nan_left : fMul a b = canonicalNaN := by rw [fMul, unpack_of_nan h]

theorem fDiv_nan_left : fDiv a b = canonicalNaN := by rw [fDiv, unpack_of_nan h]

theorem fAdd_nan_right : fAdd b a = canonicalNaN := by rw [fAdd, unpack_of_nan h]; cases unpack b <;> rfl

theorem fMul_nan_right : fMul b a = canonicalNaN := by rw [fMul, unpack_of_nan h]; cases unpack b <;> rfl

theorem fDiv_nan_right : fDiv b a = canonicalNaN := by rw [fDiv, unpack_of_nan h]; cases unpack b <;> rfl

theorem fSqrt_nan : fSqrt a = canonicalNaN := by rw [fSqrt, unpack_of_nan h]

theorem fLn_nan : fLn a = canonicalNaN := by rw [fLn, unpack_of_nan h]

end NaNOperand

theorem not_nan_packSigned (neg : Bool) {m : Nat} (h : m ≤ infinityMagnitude) :
    ¬ NaNWord (packSigned neg m) := by
  rw [infinityMagnitude] at h
  rw [NaNWord, exponentField_eq, fractionField_eq, magnitudeBits_packSigned neg (by omega)]
  omega

theorem not_nan_packInfinity (neg : Bool) : ¬ NaNWord (packInfinity neg) := not_nan_packSigned neg le_rfl

theorem not_nan_of_finite {w : Word} (h : FiniteWord w) : ¬ NaNWord w := fun hn => h hn.1

theorem nearestFrom_le (value : Nat → Nat) : ∀ ws last, last ≤ infinityMagnitude →
    nearestFrom value ws last ≤ infinityMagnitude
  | [], _, h => h
  | w :: ws, _, _ => by
    have le : roundMagnitude ((value w - enclosureRadius) * 2 ^ 149) (2 ^ w) ≤ infinityMagnitude :=
      Nat.min_le_right ..
    rw [nearestFrom]
    split
    · exact le
    · exact nearestFrom_le value ws _ le

theorem nearest_le (value : Nat → Nat) : nearest value ≤ infinityMagnitude :=
  nearestFrom_le value precisions 0 (Nat.zero_le _)

/-- What R17 asks of a result: it is the canonical NaN or no NaN at all. -/
def QuietResult (w : Word) : Prop := NaNWord w → w = canonicalNaN

theorem quiet_canonicalNaN : QuietResult canonicalNaN := fun _ => rfl

theorem quiet_packSigned (neg : Bool) {m : Nat} (h : m ≤ infinityMagnitude) :
    QuietResult (packSigned neg m) := fun hn => absurd hn (not_nan_packSigned neg h)

theorem quiet_packInfinity (neg : Bool) : QuietResult (packInfinity neg) := quiet_packSigned neg le_rfl

theorem quiet_roundSigned (neg : Bool) (num den : Nat) : QuietResult (roundSigned neg num den) :=
  quiet_packSigned neg (Nat.min_le_right ..)

theorem quiet_ite {p : Prop} [Decidable p] {v w : Word} (hv : QuietResult v) (hw : QuietResult w) :
    QuietResult (if p then v else w) := by
  split <;> assumption

section NaNResult

variable (a b : Word)

theorem quiet_fAdd : QuietResult (fAdd a b) := by
  rw [fAdd]
  split
  · exact quiet_canonicalNaN
  · exact quiet_canonicalNaN
  · exact quiet_ite (quiet_packInfinity _) quiet_canonicalNaN
  · exact quiet_packInfinity _
  · exact quiet_packInfinity _
  · exact quiet_roundSigned _ _ _

theorem quiet_fMul : QuietResult (fMul a b) := by
  rw [fMul]
  split
  · exact quiet_canonicalNaN
  · exact quiet_canonicalNaN
  · exact quiet_packInfinity _
  · exact quiet_ite quiet_canonicalNaN (quiet_packInfinity _)
  · exact quiet_ite quiet_canonicalNaN (quiet_packInfinity _)
  · exact quiet_roundSigned _ _ _

theorem quiet_fDiv : QuietResult (fDiv a b) := by
  rw [fDiv]
  split
  · exact quiet_canonicalNaN
  · exact quiet_canonicalNaN
  · exact quiet_canonicalNaN
  · exact quiet_packInfinity _
  · exact quiet_packSigned _ (Nat.zero_le _)
  · exact quiet_ite (quiet_ite quiet_canonicalNaN (quiet_packInfinity _)) (quiet_roundSigned _ _ _)

theorem quiet_fSqrt : QuietResult (fSqrt a) := by
  rcases word_cases a with ha | ⟨n, rfl⟩ | ha
  · exact fun _ => fSqrt_nan ha
  · rw [fSqrt, unpack_packInfinity]
    exact quiet_ite quiet_canonicalNaN (quiet_packInfinity _)
  · rw [fSqrt, unpack_of_finite ha]
    exact quiet_ite (fun hn => absurd hn.1 ha) (quiet_ite quiet_canonicalNaN (quiet_roundSigned _ _ _))

theorem quiet_fLn : QuietResult (fLn a) := by
  rw [fLn]
  split
  · exact quiet_canonicalNaN
  · exact quiet_ite quiet_canonicalNaN (quiet_packInfinity _)
  · exact quiet_ite (quiet_packInfinity _) (quiet_ite quiet_canonicalNaN
      (quiet_ite (quiet_packSigned false (Nat.zero_le _)) (quiet_packSigned _ (nearest_le _))))

end NaNResult

section Negative

variable {a : Word} (ha : FiniteWord a) (h : wordValue a < 0)
include ha h

theorem fSqrt_of_neg : fSqrt a = canonicalNaN := by
  obtain ⟨hs, hu⟩ := (wordValue_neg_iff a).mp h
  rw [fSqrt, unpack_of_finite ha, hs]
  exact if_neg hu

theorem fLn_of_neg : fLn a = canonicalNaN := by
  obtain ⟨hs, hu⟩ := (wordValue_neg_iff a).mp h
  rw [fLn, unpack_of_finite ha, hs]
  exact if_neg hu

end Negative

theorem fSqrt_negInfinity : fSqrt (packInfinity true) = canonicalNaN := by
  rw [fSqrt, unpack_packInfinity]; rfl

theorem fLn_negInfinity : fLn (packInfinity true) = canonicalNaN := by
  rw [fLn, unpack_packInfinity]; rfl

/-- Settles O52: no operation packs a NaN other than the canonical one. -/
theorem naNResultsAreCanonical : Obligations.NaNResultsAreCanonical := by
  refine ⟨fun a b => ⟨?_, fun ha => ?_, fun hb => ?_⟩, fun n m => ⟨?_, ?_, fDiv_infinities n m⟩,
    fun n a ha hz => ⟨?_, ?_⟩, fun a b ha hb za zb => ?_, fun a ha => ?_⟩
  · simp only [List.forall_mem_cons, List.not_mem_nil, false_implies, implies_true, and_true]
    exact ⟨quiet_fAdd a b, quiet_fAdd a _, quiet_fMul a b, quiet_fDiv a b, quiet_fSqrt a, quiet_fLn a⟩
  · simp only [List.forall_mem_cons, List.not_mem_nil, false_implies, implies_true, and_true]
    exact ⟨fAdd_nan_left ha b, fAdd_nan_left ha _, fMul_nan_left ha b, fDiv_nan_left ha b, fSqrt_nan ha,
      fLn_nan ha⟩
  · simp only [List.forall_mem_cons, List.not_mem_nil, false_implies, implies_true, and_true]
    exact ⟨fAdd_nan_right hb a, fAdd_nan_right (nanWord_fNeg hb) a, fMul_nan_right hb a, fDiv_nan_right hb a⟩
  · rw [fAdd_infinities, if_neg (by simp)]; rfl
  · rw [fSub, fNeg_packInfinity, fAdd_infinities, if_neg (by simp)]; rfl
  · rw [fMul_infinity_finite n ha, if_pos hz]; rfl
  · rw [fMul_finite_infinity n ha, if_pos hz]; rfl
  · rw [fDiv_by_zero ha hb zb, if_pos za]; rfl
  · rcases ha with ⟨ha, hneg⟩ | rfl
    · exact ⟨fSqrt_of_neg ha hneg, fLn_of_neg ha hneg⟩
    · exact ⟨fSqrt_negInfinity, fLn_negInfinity⟩

/-! ### LT (R19) -/

theorem extendedValue_packInfinity (n : Bool) :
    extendedValue (packInfinity n) = if n then ⊥ else ⊤ := by
  have he : exponentField (packInfinity n) = 255 := by cases n <;> decide
  rw [extendedValue, if_pos he, packInfinity, signBit_packSigned n (by decide)]

theorem extendedValue_of_finite {w : Word} (h : FiniteWord w) : extendedValue w = (wordValue w : EReal) :=
  if_neg h

theorem ltSigned_iff (na nb : Bool) (ma mb : Nat) :
    ltSigned na ma nb mb = true ↔ signed na ma < signed nb mb := by
  have ha : (0 : ℝ) ≤ ma := Nat.cast_nonneg _
  have hb : (0 : ℝ) ≤ mb := Nat.cast_nonneg _
  cases na <;> cases nb
  · simp [ltSigned]
  · simp [ltSigned]; linarith
  · have : -(ma : ℝ) < mb ↔ 0 < ma + mb := by
      rw [neg_lt_iff_pos_add, ← Nat.cast_add, ← Nat.cast_pos (α := ℝ), add_comm]
    simp only [ltSigned, signed_true, signed_false, this, Bool.or_eq_true, bne_iff_ne]
    omega
  · simp [ltSigned]

theorem fLt_finite {a b : Word} (ha : FiniteWord a) (hb : FiniteWord b) :
    fLt a b = true ↔ wordValue a < wordValue b := by
  rw [fLt, unpack_of_finite ha, unpack_of_finite hb, wordValue_eq, wordValue_eq,
    mul_lt_mul_iff_left₀ ulp_pos]
  exact ltSigned_iff ..

/-- Settles O54, by the kinds of the two operands. -/
theorem ltIsQuietLessThan : Obligations.LtIsQuietLessThan := by
  intro a b
  rcases word_cases a with ha | ⟨n, rfl⟩ | ha
  · simp [fLt, unpack_of_nan ha, ha]
  · rcases word_cases b with hb | ⟨m, rfl⟩ | hb
    · simp [fLt, unpack_of_nan hb, unpack_packInfinity, hb]
    · cases n <;> cases m <;>
        simp [fLt, unpack_packInfinity, not_nan_packInfinity, extendedValue_packInfinity, -not_and]
    · cases n <;>
        simp [fLt, unpack_packInfinity, unpack_of_finite hb, not_nan_packInfinity, not_nan_of_finite hb,
          extendedValue_packInfinity, extendedValue_of_finite hb, -not_and]
  · rcases word_cases b with hb | ⟨m, rfl⟩ | hb
    · simp [fLt, unpack_of_nan hb, unpack_of_finite ha, hb]
    · cases m <;>
        simp [fLt, unpack_packInfinity, unpack_of_finite ha, not_nan_packInfinity, not_nan_of_finite ha,
          extendedValue_packInfinity, extendedValue_of_finite ha, -not_and]
    · rw [fLt_finite ha hb, extendedValue_of_finite ha, extendedValue_of_finite hb, EReal.coe_lt_coe_iff]
      exact ⟨fun h => ⟨not_nan_of_finite ha, not_nan_of_finite hb, h⟩, fun h => h.2.2⟩

/-! ### SQRT (R20) -/

/-- The root `r` so far is not above the root of `x`, and the `b` bits still to settle suffice. -/
theorem isqrtFrom_spec (x : Nat) : ∀ b r, r * r ≤ x → x < (r + 2 ^ b) * (r + 2 ^ b) →
    isqrtFrom x b r * isqrtFrom x b r ≤ x ∧ x < (isqrtFrom x b r + 1) * (isqrtFrom x b r + 1)
  | 0, _, hle, hlt => ⟨hle, hlt⟩
  | b + 1, r, hle, hlt => by
    rw [isqrtFrom]
    split
    · refine isqrtFrom_spec x b _ ‹_› ?_
      rwa [Nat.add_assoc, ← Nat.two_mul, ← Nat.pow_succ']
    · exact isqrtFrom_spec x b r hle (Nat.lt_of_not_le ‹_›)

theorem isqrt_spec (x : Nat) : isqrt x * isqrt x ≤ x ∧ x < (isqrt x + 1) * (isqrt x + 1) := by
  refine isqrtFrom_spec x _ 0 (Nat.zero_le _) ?_
  rw [Nat.zero_add, ← Nat.pow_add]
  exact Nat.lt_log2_self.trans_le (Nat.pow_le_pow_right (by decide) (by omega))

/-- Where the step is at least 2, all numbers strictly between `r` and `r + 1` round as `r + 1/2` does. -/
theorem RoundsTo.near_of_half {y : ℝ} {r k q : Nat} (h : RoundsTo ((r : ℝ) + 1 / 2) k q) (hk : k ≠ 0)
    (hlt : r < y) (hgt : y < r + 1) : |(q : ℝ) * 2 ^ k - y| < 2 ^ k / 2 := by
  obtain ⟨j, rfl⟩ := Nat.exists_eq_add_one_of_ne_zero hk
  have step : (2 : ℝ) ^ (j + 1) / 2 = (2 ^ j : ℤ) := by rw [pow_succ]; push_cast; ring
  have grid : (q : ℝ) * 2 ^ (j + 1) = (q * 2 ^ (j + 1) : ℤ) := by push_cast; rfl
  have near := h.near
  rw [step, grid, abs_le] at near
  obtain ⟨near_lo, near_hi⟩ := near
  have lo : -(2 ^ j : ℤ) + r + 1 ≤ q * 2 ^ (j + 1) := by
    have : ((-(2 ^ j : ℤ) + r : ℤ) : ℝ) < (q * 2 ^ (j + 1) : ℤ) := by push_cast at near_lo ⊢; linarith
    exact_mod_cast this
  have hi : q * 2 ^ (j + 1) ≤ (2 ^ j + r : ℤ) := by
    have : ((q * 2 ^ (j + 1) : ℤ) : ℝ) < ((2 ^ j + r + 1 : ℤ) : ℝ) := by push_cast at near_hi ⊢; linarith
    exact Int.lt_add_one_iff.mp (by exact_mod_cast this)
  have lo' : ((-(2 ^ j : ℤ) + r + 1 : ℤ) : ℝ) ≤ (q * 2 ^ (j + 1) : ℤ) := by exact_mod_cast lo
  have hi' : ((q * 2 ^ (j + 1) : ℤ) : ℝ) ≤ ((2 ^ j + r : ℤ) : ℝ) := by exact_mod_cast hi
  rw [step, grid, abs_lt]
  push_cast at lo' hi' ⊢
  constructor <;> linarith

/-- The doubled root with its sticky bit rounds as the root of `x` does. -/
theorem nearestWord_isqrt {x : Nat} (hx : 2 ^ 149 ≤ x) :
    NearestWord (√x * ulp)
      (roundSigned false (2 * isqrt x + (if isqrt x * isqrt x = x then 0 else 1)) 2) := by
  obtain ⟨hle, hlt⟩ := isqrt_spec x
  generalize isqrt x = r at *
  have round := roundsTo_div (2 * r + (if r * r = x then 0 else 1)) two_pos
  have floor : (2 * r + (if r * r = x then 0 else 1)) / 2 = r := by split <;> omega
  refine RoundsTo.nearestWord (y := √x) ?_ false
  by_cases exact : r * r = x
  · have root : √(x : ℝ) = ((2 * r + 0 : ℕ) : ℝ) / 2 := by
      rw [← exact, Nat.cast_mul, Real.sqrt_mul_self (Nat.cast_nonneg r)]
      push_cast; ring
    rw [if_pos exact] at round ⊢
    rw [root]
    exact round
  · have half : (((2 * r + 1 : ℕ) : ℝ) / (2 : ℕ)) = r + 1 / 2 := by push_cast; ring
    have large : 2 ^ 24 ≤ r := by
      by_contra h
      have : (r + 1) * (r + 1) ≤ 2 ^ 24 * 2 ^ 24 := Nat.mul_le_mul (by omega) (by omega)
      omega
    have coarse : r.log2 - 23 ≠ 0 := by
      have : 24 ≤ r.log2 := (Nat.le_log2 (by omega)).mpr large
      omega
    rw [floor, if_neg exact, half] at round
    rw [floor, if_neg exact]
    have above : (r : ℝ) < √x := Real.lt_sqrt_of_sq_lt (by exact_mod_cast (by rw [sq]; omega : r ^ 2 < x))
    have below : √(x : ℝ) < r + 1 :=
      (Real.sqrt_lt' (by positivity)).mpr (by exact_mod_cast (by rwa [sq] : x < (r + 1) ^ 2))
    obtain ⟨low, high⟩ := binade_of_floor above.le below
    have near := round.near_of_half coarse above below
    exact ⟨low, Real.sqrt_nonneg _, high, near.le, fun e => absurd e near.ne⟩

theorem nearestWord_fSqrt {a : Word} (ha : FiniteWord a) (h : 0 ≤ wordValue a) :
    NearestWord (√(wordValue a)) (fSqrt a) := by
  by_cases hu : units a = 0
  · have keeps : fSqrt a = roundSigned (signBit a) 0 1 := by
      rw [fSqrt, unpack_of_finite ha]
      exact (if_pos hu).trans (eq_packSigned_zero hu)
    have := nearestWord_roundSigned (signBit a) 0 one_pos
    rw [keeps, (wordValue_eq_zero_iff a).mpr hu, Real.sqrt_zero]
    convert this using 1
    cases signBit a <;> simp
  · have hs := signBit_of_nonneg h hu
    have root : √(wordValue a) = √((units a * 2 ^ 149 : ℕ) : ℝ) * ulp := by
      rw [← Real.sqrt_sq ulp_pos.le, ← Real.sqrt_mul (Nat.cast_nonneg _), wordValue_eq, hs, signed_false]
      congr 1
      rw [ulp]; push_cast; norm_num; ring
    have word : fSqrt a = roundSigned false (2 * isqrt (units a * 2 ^ 149) +
        (if isqrt (units a * 2 ^ 149) * isqrt (units a * 2 ^ 149) = units a * 2 ^ 149 then 0 else 1)) 2 := by
      rw [fSqrt, unpack_of_finite ha, hs]
      exact (if_neg hu).trans (if_neg Bool.false_ne_true)
    rw [root, word]
    exact nearestWord_isqrt (Nat.le_mul_of_pos_left _ (Nat.pos_of_ne_zero hu))

/-! ### I2F (R20) -/

/-- Up to 2^24 a natural is a whole number of the steps at its own size. -/
theorem units_are_steps {n : Nat} (h : n ≤ 2 ^ 24) :
    ∃ m, n * 2 ^ 149 = m * 2 ^ ((n * 2 ^ 149).log2 - 23) := by
  rcases h.lt_or_eq with h | rfl
  · have hk : (n * 2 ^ 149).log2 - 23 ≤ 149 := by
      by_contra hk
      have h1 := Nat.log2_self_le (n := n * 2 ^ 149) (by intro h0; rw [h0] at hk; simp at hk)
      have h2 : 2 ^ 173 ≤ 2 ^ (n * 2 ^ 149).log2 := Nat.pow_le_pow_right (by decide) (by omega)
      omega
    exact ⟨n * 2 ^ (149 - ((n * 2 ^ 149).log2 - 23)), by rw [Nat.mul_assoc, ← Nat.pow_add, Nat.sub_add_cancel hk]⟩
  · exact ⟨2 ^ 23, by rw [← Nat.pow_add, Nat.log2_two_pow, ← Nat.pow_add]⟩

theorem fOfNat_exact {n : Nat} (h : n ≤ 2 ^ 24) : FiniteWord (fOfNat n) ∧ wordValue (fOfNat n) = n := by
  have round := roundsTo_div (n * 2 ^ 149) one_pos
  have word : fOfNat n = encodedWord false (((n * 2 ^ 149) / 1).log2 - 23)
    (roundDiv (n * 2 ^ 149) (1 * 2 ^ (((n * 2 ^ 149) / 1).log2 - 23))) := rfl
  obtain ⟨m, hm⟩ := units_are_steps h
  rw [Nat.div_one] at round word
  rw [Nat.cast_one, div_one] at round
  generalize (n * 2 ^ 149).log2 - 23 = k at *
  generalize roundDiv (n * 2 ^ 149) (1 * 2 ^ k) = q at *
  have exact : (q : ℝ) * 2 ^ k = (n * 2 ^ 149 : ℕ) := by
    have near := (round.nearest_multiple m).1
    have : ((m : ℤ) : ℝ) * 2 ^ k = (n * 2 ^ 149 : ℕ) := by rw [hm]; push_cast; rfl
    rw [this, sub_self, abs_zero, abs_nonpos_iff, sub_eq_zero] at near
    exact near
  have hlt : k * 2 ^ 23 + q < infinityMagnitude := round.encoding_lt (by
    have : ((n * 2 ^ 149 : ℕ) : ℝ) ≤ ((2 ^ 24 * 2 ^ 149 : ℕ) : ℝ) := by
      exact_mod_cast Nat.mul_le_mul_right _ h
    norm_num at this ⊢; linarith)
  rw [word, finiteWord_iff, magnitudeBits_encodedWord, round.wordValue_encodedWord false hlt, exact]
  refine ⟨min_lt_of_left_lt hlt, ?_⟩
  rw [ulp, signed_false]; push_cast; rw [mul_assoc]; norm_num

/-- Settles O50: the sticky bit stands for the rest of the root (`RoundsTo.near_of_half`). -/
theorem sqrtRoundsToNearest : Obligations.SqrtRoundsToNearest :=
  ⟨fun _ ha h => nearestWord_fSqrt ha h, by decide, by decide, by decide, by decide,
    fun _ ha h => fSqrt_of_neg ha h, fun _ h => fOfNat_exact h⟩

end Sys2Proof.Machine
end

section
/-!
PROOFS for 00_scope.md R21, R22: SINQ and COSQ as functions of the fraction p/q.
-/
namespace Sys2Proof.Machine

/-! ### SINQ depends on p/q only -/

theorem sinMagnitude_le (a b : Nat) : sinMagnitude a b ≤ infinityMagnitude := by
  rw [sinMagnitude]
  split
  · decide
  · exact nearest_le _

theorem sinMagnitude_lt (a b : Nat) : sinMagnitude a b < 2 ^ 31 := (sinMagnitude_le a b).trans_lt (by decide)

theorem sinMagnitude_scale {k : Nat} (hk : 0 < k) (a b : Nat) :
    sinMagnitude (k * a) (k * b) = sinMagnitude a b := by
  have fold : min (k * a) (k * b - k * a) = k * min a (b - a) := by
    rw [← Nat.mul_sub, Nat.mul_min_mul_left]
  have half : 2 * (k * min a (b - a)) = k * b ↔ 2 * min a (b - a) = b := by
    rw [Nat.mul_left_comm]; exact Nat.mul_right_inj hk.ne'
  simp only [sinMagnitude, fold, half, Nat.gcd_mul_left, Nat.mul_div_mul_left _ _ hk]

theorem fSinq_scale {k : Nat} (hk : 0 < k) (p q : Nat) : fSinq (k * p) (k * q) = fSinq p q := by
  have zero : k * (p % q) = 0 ↔ p % q = 0 := by simp [hk.ne']
  have half : 2 * (k * (p % q)) = k * q ↔ 2 * (p % q) = q := by
    rw [Nat.mul_left_comm]; exact Nat.mul_right_inj hk.ne'
  have below : 2 * (k * (p % q)) < k * q ↔ 2 * (p % q) < q := by
    rw [Nat.mul_left_comm]; exact Nat.mul_lt_mul_left hk
  have twice : 2 * (k * (p % q)) = k * (2 * (p % q)) := Nat.mul_left_comm ..
  have rest : k * (2 * (p % q)) - k * q = k * (2 * (p % q) - q) := (Nat.mul_sub ..).symm
  simp only [fSinq, Nat.mul_mod_mul_left, zero, half, below]
  simp only [twice, rest, sinMagnitude_scale hk]

theorem fSinq_congr {p q p' q' : Nat} (hq : 0 < q) (hq' : 0 < q') (h : p * q' = p' * q) :
    fSinq p q = fSinq p' q' := by
  rw [← fSinq_scale hq' p q, ← fSinq_scale hq p' q', Nat.mul_comm q' p, h, Nat.mul_comm p' q, Nat.mul_comm q' q]

theorem fCosq_congr {p q p' q' : Nat} (hq : 0 < q) (hq' : 0 < q') (h : p * q' = p' * q) :
    fCosq p q = fCosq p' q' := by
  refine fSinq_congr (by omega) (by omega) ?_
  calc (4 * p + q) * (4 * q') = 16 * (p * q') + 4 * (q * q') := by ring
    _ = (4 * p' + q') * (4 * q) := by rw [h]; ring

theorem fSinq_zero (q : Nat) : fSinq 0 q = 0#32 := by simp [fSinq]

theorem fSinq_half : fSinq 1 2 = 0#32 := by simp [fSinq]

theorem fSinq_quarter : fSinq 1 4 = 0x3F800000#32 := by decide

theorem fSinq_three_quarters : fSinq 3 4 = 0xBF800000#32 := by decide

/-- Half a turn on, the reduced angle is folded to the same sine with the other sign. -/
theorem fSinq_half_turn {p h : Nat} (hh : 0 < h) (hne : fSinq p (2 * h) ≠ 0#32) :
    fSinq (p + h) (2 * h) = fNeg (fSinq p (2 * h)) := by
  obtain ⟨r, hr⟩ : ∃ r, r = p % (2 * h) := ⟨_, rfl⟩
  have hlt : r < 2 * h := hr ▸ Nat.mod_lt _ (by omega)
  have nonzero : ¬ (r = 0 ∨ 2 * r = 2 * h) := fun h0 => hne (by rw [fSinq, ← hr]; exact if_pos h0)
  have shifted : (p + h) % (2 * h) = if r < h then r + h else r - h := by
    rw [← Nat.mod_add_mod, ← hr]
    split
    · exact Nat.mod_eq_of_lt (by omega)
    · rw [Nat.mod_eq_sub_mod (by omega), Nat.mod_eq_of_lt (by omega)]
      omega
  rcases Nat.lt_or_ge r h with hrh | hrh
  · have e : 2 * (r + h) - 2 * h = 2 * r := by omega
    rw [if_pos hrh] at shifted
    simp only [fSinq, ← hr, shifted]
    rw [if_neg (by omega), if_neg (by omega), if_neg nonzero, if_pos (by omega), e,
      fNeg_packSigned _ (sinMagnitude_lt ..)]
    rfl
  · have e : 2 * (r - h) = 2 * r - 2 * h := by omega
    rw [if_neg (by omega)] at shifted
    simp only [fSinq, ← hr, shifted]
    rw [if_neg (by omega), if_pos (by omega), if_neg nonzero, if_neg (by omega), e,
      fNeg_packSigned _ (sinMagnitude_lt ..)]
    rfl

/-- Settles O55: the quarter turns by reducing the fraction, the half turn by folding the angle. -/
theorem sineDependsOnFractionOnly : Obligations.SineDependsOnFractionOnly := by
  refine ⟨fun q hq => ⟨fSinq_zero q, ?_⟩, fun q hq hd => ?_, fun q hq hd => ⟨?_, ?_⟩,
    fun p q p' q' hq hq' h => ⟨fSinq_congr hq hq' h, fCosq_congr hq hq' h⟩, fun p q hq hd hne => ?_⟩
  · exact (fSinq_congr (by omega) four_pos (by omega)).trans fSinq_quarter
  · exact (fSinq_congr hq two_pos (by omega)).trans fSinq_half
  · exact (fSinq_congr hq four_pos (by omega)).trans fSinq_quarter
  · exact (fSinq_congr hq four_pos (by omega)).trans fSinq_three_quarters
  · obtain ⟨h, rfl⟩ := hd
    rw [Nat.mul_div_cancel_left h two_pos]
    exact fSinq_half_turn (by omega) hne

end Sys2Proof.Machine
end

section
/-!
PROOFS for 00_scope.md R21 to R23: fixed-point numbers, their rounding to a word, and the enclosures that
`nearest` tries.
-/
namespace Sys2Proof.Machine

open Sys2Proof.Ideal (FiniteWord wordValue)

/-! ### The size of one rounding -/

/-- The rounding step is at most 2^−24 of a number in the normal range. -/
theorem RoundsTo.relative_error {y : ℝ} {k q : Nat} (h : RoundsTo y k q) (hy : 2 ^ 23 ≤ y) :
    |(q : ℝ) * 2 ^ k - y| ≤ y / 2 ^ 24 := by
  refine h.near.trans ?_
  rcases Nat.eq_zero_or_pos k with rfl | hk
  · norm_num at hy ⊢; linarith
  · have low := h.low hk.ne'
    rw [pow_add] at low
    linarith

/-- Below 1.0 (2^149 units) half a rounding step is at most 2^−25 (2^124 units), and a little past 1.0, which is
a multiple of the step there, the rounding costs no more. -/
theorem RoundsTo.error_to_one {y : ℝ} {k q : Nat} (h : RoundsTo y k q) (hy : y ≤ 2 ^ 149 + 2 ^ 124) :
    |(q : ℝ) * 2 ^ k - y| ≤ 2 ^ 124 := by
  have exponent_le : ∀ n, y < 2 ^ (n + 24) → k ≤ n := fun n hn => by
    by_contra hk
    have low := h.low (by omega)
    have : (2 : ℝ) ^ (n + 24) ≤ 2 ^ (k + 23) := pow_le_pow_right₀ one_le_two (by omega)
    linarith
  rcases lt_or_ge y (2 ^ 149) with below | above
  · have : (2 : ℝ) ^ k ≤ 2 ^ 125 := pow_le_pow_right₀ one_le_two (exponent_le 125 below)
    have near := h.near
    linarith
  · have hk := exponent_le 126 (hy.trans_lt (by norm_num))
    have one : ((2 ^ (149 - k) : ℤ) : ℝ) * 2 ^ k = 2 ^ 149 := by
      push_cast
      rw [← pow_add, Nat.sub_add_cancel (by omega)]
    have near := (h.nearest_multiple (2 ^ (149 - k))).1
    rw [one, abs_of_nonpos (by linarith : (2 : ℝ) ^ 149 - y ≤ 0)] at near
    linarith

/-- The word that rounds the fixed-point number u·2^−w. -/
def fixedWord (neg : Bool) (w u : Nat) : Word := roundSigned neg (u * 2 ^ 149) (2 ^ w)

section Fixed

variable (neg : Bool) (w u : Nat)

/-- The operands of `roundMagnitude` for u·2^−w. -/
theorem fixed_units : ((u * 2 ^ 149 : ℕ) : ℝ) / (2 ^ w : ℕ) = (u : ℝ) / 2 ^ w * 2 ^ 149 := by
  push_cast; ring

theorem units_ulp (x : ℝ) : x * 2 ^ 149 * ulp = x := by rw [mul_assoc]; norm_num [ulp]

/-- A number within 2^99, rounded as the multiple of a power of two. -/
theorem fixedWord_rounds (hx : (u : ℝ) / 2 ^ w ≤ 2 ^ 99) :
    ∃ k q, RoundsTo ((u : ℝ) / 2 ^ w * 2 ^ 149) k q ∧ FiniteWord (fixedWord neg w u) ∧
      wordValue (fixedWord neg w u) = signed neg ((q : ℝ) * 2 ^ k) * ulp := by
  have round := roundsTo_div (u * 2 ^ 149) (Nat.two_pow_pos w)
  rw [fixed_units] at round
  have hlt := round.encoding_lt (by norm_num at hx ⊢; linarith)
  refine ⟨_, _, round, (finiteWord_iff _).mpr ?_, round.wordValue_encodedWord neg hlt⟩
  exact (magnitudeBits_encodedWord ..).trans_lt (min_lt_of_left_lt hlt)

/-- The error of a word, in units, carried over to its value. -/
theorem rounding_error (a x : ℝ) :
    |signed neg a * ulp - signed neg x| = |a - x * 2 ^ 149| * ulp := by
  have : signed neg a * ulp - signed neg x = signed neg ((a - x * 2 ^ 149) * ulp) := by
    rw [sub_mul, units_ulp, ← signed_sub, signed_mul]
  rw [this, abs_signed, abs_mul, abs_of_pos ulp_pos]

theorem fixedWord_relative_error (hlo : 2 ^ (-126 : ℤ) ≤ (u : ℝ) / 2 ^ w) (hhi : (u : ℝ) / 2 ^ w ≤ 2 ^ 99) :
    FiniteWord (fixedWord neg w u) ∧
    |wordValue (fixedWord neg w u) - signed neg ((u : ℝ) / 2 ^ w)| ≤ (u : ℝ) / 2 ^ w / 2 ^ 24 := by
  obtain ⟨k, q, round, finite, value⟩ := fixedWord_rounds neg w u hhi
  refine ⟨finite, ?_⟩
  rw [value, rounding_error]
  have normal : (2 : ℝ) ^ 23 ≤ (u : ℝ) / 2 ^ w * 2 ^ 149 := by
    calc (2 : ℝ) ^ 23 = 2 ^ (-126 : ℤ) * 2 ^ 149 := by norm_num
      _ ≤ _ := by gcongr
  calc |(q : ℝ) * 2 ^ k - (u : ℝ) / 2 ^ w * 2 ^ 149| * ulp
      ≤ (u : ℝ) / 2 ^ w * 2 ^ 149 / 2 ^ 24 * ulp :=
        mul_le_mul_of_nonneg_right (round.relative_error normal) ulp_pos.le
    _ = (u : ℝ) / 2 ^ w / 2 ^ 24 := by rw [div_mul_eq_mul_div, units_ulp]

theorem fixedWord_error_to_one (hx : (u : ℝ) / 2 ^ w ≤ 1 + 2 ^ (-25 : ℤ)) :
    FiniteWord (fixedWord neg w u) ∧
    |wordValue (fixedWord neg w u) - signed neg ((u : ℝ) / 2 ^ w)| ≤ 2 ^ (-25 : ℤ) := by
  obtain ⟨k, q, round, finite, value⟩ := fixedWord_rounds neg w u (hx.trans (by norm_num))
  refine ⟨finite, ?_⟩
  rw [value, rounding_error]
  have to_one : (u : ℝ) / 2 ^ w * 2 ^ 149 ≤ 2 ^ 149 + 2 ^ 124 := by
    calc (u : ℝ) / 2 ^ w * 2 ^ 149 ≤ (1 + 2 ^ (-25 : ℤ)) * 2 ^ 149 := by gcongr
      _ = 2 ^ 149 + 2 ^ 124 := by norm_num
  calc |(q : ℝ) * 2 ^ k - (u : ℝ) / 2 ^ w * 2 ^ 149| * ulp
      ≤ 2 ^ 124 * ulp := mul_le_mul_of_nonneg_right (round.error_to_one to_one) ulp_pos.le
    _ = 2 ^ (-25 : ℤ) := by norm_num [ulp]

end Fixed

/-- The word of the nearest magnitude is the rounding of the lower end at one of the precisions. -/
theorem nearestFrom_lower_end (value : Nat → Nat) : ∀ ws last, ws ≠ [] →
    ∃ w ∈ ws, nearestFrom value ws last = roundMagnitude ((value w - enclosureRadius) * 2 ^ 149) (2 ^ w)
  | [], _, h => absurd rfl h
  | [w], _, _ => ⟨w, List.mem_singleton_self w, by simp [nearestFrom]⟩
  | w :: w' :: ws, _, _ => by
    rw [nearestFrom]
    split
    · exact ⟨w, List.mem_cons_self, rfl⟩
    · obtain ⟨v, hv, h⟩ := nearestFrom_lower_end value (w' :: ws) _ (List.cons_ne_nil w' ws)
      exact ⟨v, List.mem_cons_of_mem w hv, h⟩

theorem packSigned_nearest (neg : Bool) (value : Nat → Nat) :
    ∃ w ∈ precisions, packSigned neg (nearest value) = fixedWord neg w (value w - enclosureRadius) := by
  obtain ⟨w, hw, h⟩ := nearestFrom_lower_end value precisions 0 (by decide)
  exact ⟨w, hw, congrArg (packSigned neg) h⟩

theorem precision_bounds {w : Nat} (h : w ∈ precisions) : 128 ≤ w ∧ w ≤ 1024 := by
  revert w; decide

end Sys2Proof.Machine
end

section
/-!
PROOFS for 00_scope.md R21, R22: the Taylor series of the sine in fixed point, and how near SINQ and COSQ are.
-/
namespace Sys2Proof.Machine

open Sys2Proof.Ideal (FiniteWord wordValue)

/-! ### Truncated quotients -/

theorem cast_div_bounds (a : Nat) {b : Nat} (hb : 0 < b) :
    (a : ℝ) / b - 1 ≤ (a / b : ℕ) ∧ ((a / b : ℕ) : ℝ) ≤ a / b := by
  refine ⟨?_, Nat.cast_div_le⟩
  have : a < (a / b + 1) * b := by rw [Nat.mul_comm]; exact Nat.lt_mul_div_succ a hb
  rw [sub_le_iff_le_add, div_le_iff₀ (by exact_mod_cast hb)]
  exact_mod_cast this.le

/-- A fixed-point quotient is at most one unit 2^−w below the exact one. -/
theorem fixed_div_bounds (w a : Nat) {b : Nat} (hb : 0 < b) :
    (a : ℝ) / b / 2 ^ w - 1 / 2 ^ w ≤ (a / b : ℕ) / 2 ^ w ∧ ((a / b : ℕ) : ℝ) / 2 ^ w ≤ (a : ℝ) / b / 2 ^ w := by
  obtain ⟨lo, hi⟩ := cast_div_bounds a hb
  rw [← sub_div]
  constructor <;> gcongr

/-- The truncated square of a fixed-point number. -/
theorem fixed_square_bounds (w x : Nat) :
    ((x : ℝ) / 2 ^ w) ^ 2 - 1 / 2 ^ w ≤ (x * x / 2 ^ w : ℕ) / 2 ^ w ∧
    ((x * x / 2 ^ w : ℕ) : ℝ) / 2 ^ w ≤ ((x : ℝ) / 2 ^ w) ^ 2 := by
  have square : ((x * x : ℕ) : ℝ) / (2 ^ w : ℕ) / 2 ^ w = ((x : ℝ) / 2 ^ w) ^ 2 := by push_cast; field_simp
  rw [← square]
  exact fixed_div_bounds w (x * x) (Nat.two_pow_pos w)

/-- The unit 2^−w of every precision is as short as that of the first. -/
theorem unit_le {w : Nat} (hw : 128 ≤ w) : (1 : ℝ) / 2 ^ w ≤ 2 ^ (-128 : ℤ) := by
  rw [zpow_neg, ← one_div]
  exact one_div_le_one_div_of_le (by positivity) (by exact_mod_cast pow_le_pow_right₀ (one_le_two (α := ℝ)) hw)

/-- The lower end of an enclosure is 2^−116 from its middle at most. -/
theorem lower_end_error (v : Nat) {w : Nat} (hw : 128 ≤ w) :
    |((v - enclosureRadius : ℕ) : ℝ) / 2 ^ w - v / 2 ^ w| ≤ 2 ^ (-116 : ℤ) := by
  have hi : ((v - enclosureRadius : ℕ) : ℝ) ≤ v := by exact_mod_cast Nat.sub_le v enclosureRadius
  have lo : (v : ℝ) ≤ (v - enclosureRadius : ℕ) + 4096 := by
    exact_mod_cast (by rw [enclosureRadius]; omega : v ≤ v - enclosureRadius + 4096)
  have radius : |((v - enclosureRadius : ℕ) : ℝ) - v| ≤ 4096 := by rw [abs_le]; constructor <;> linarith
  rw [← sub_div, abs_div, abs_of_pos (by positivity : (0 : ℝ) < 2 ^ w), ← mul_one_div]
  calc _ ≤ 4096 * 2 ^ (-128 : ℤ) := mul_le_mul radius (unit_le hw) (by positivity) (by positivity)
    _ = 2 ^ (-116 : ℤ) := by norm_num

/-! ### The series of the sine -/

/-- The n-th term of the Taylor series of the sine, without its sign. -/
noncomputable def sinTerm (x : ℝ) (n : Nat) : ℝ := x ^ (2 * n + 1) / (2 * n + 1).factorial

theorem sinTerm_zero (x : ℝ) : sinTerm x 0 = x := by simp [sinTerm]

theorem sinTerm_succ (x : ℝ) (n : Nat) :
    sinTerm x (n + 1) = sinTerm x n * x ^ 2 / ((2 * n + 2 : ℕ) * (2 * n + 2 + 1 : ℕ)) := by
  have h : ((2 * n + 1).factorial : ℝ) ≠ 0 := by exact_mod_cast Nat.factorial_ne_zero _
  rw [sinTerm, sinTerm, show 2 * (n + 1) + 1 = 2 * n + 1 + 1 + 1 by ring, Nat.factorial_succ,
    Nat.factorial_succ]
  push_cast
  field_simp
  ring

section Series

variable {x : ℝ} (h0 : 0 ≤ x) (h2 : x ≤ 2)
include h0

theorem sinTerm_nonneg (n : Nat) : 0 ≤ sinTerm x n := by unfold sinTerm; positivity

include h2

theorem sinTerm_antitone : Antitone (sinTerm x) := by
  refine antitone_nat_of_succ_le fun n => ?_
  have hn : (0 : ℝ) ≤ n := Nat.cast_nonneg n
  rw [sinTerm_succ, div_le_iff₀ (by positivity)]
  refine mul_le_mul_of_nonneg_left ?_ (sinTerm_nonneg h0 n)
  push_cast
  nlinarith

theorem sinTerm_le_two (n : Nat) : sinTerm x n ≤ 2 :=
  (sinTerm_antitone h0 h2 (Nat.zero_le n)).trans ((sinTerm_zero x).le.trans h2)

theorem sin_series_error (n : Nat) :
    |Real.sin x - ∑ i ∈ Finset.range n, (-1) ^ i * sinTerm x i| ≤ sinTerm x n := by
  have series : HasSum (fun i => (-1) ^ i * sinTerm x i) (Real.sin x) := by
    simpa only [sinTerm, mul_div_assoc] using Real.hasSum_sin x
  have summable : Summable (sinTerm x) := by
    have := series.summable.abs
    simpa [abs_mul, abs_of_nonneg (sinTerm_nonneg h0 _)] using this
  rw [← series.tsum_eq]
  exact alternating_series_error_bound _ (sinTerm_antitone h0 h2) summable n

/-- From the 25th term on, the fewest that `sinValue` takes, the series is shorter than 2^−40. -/
theorem sinTerm_small {n : Nat} (hn : 25 ≤ n) : sinTerm x n ≤ 2 ^ (-40 : ℤ) := by
  refine (sinTerm_antitone h0 h2 hn).trans ?_
  calc sinTerm x 25 ≤ 2 ^ (2 * 25 + 1) / (2 * 25 + 1).factorial := by unfold sinTerm; gcongr
    _ ≤ 2 ^ (-40 : ℤ) := by norm_num [Nat.factorial]

end Series

theorem sinTail_le (w x2 fuel j t : Nat) : sinTail w x2 fuel j t ≤ t := by
  cases fuel
  · exact Nat.zero_le t
  · exact Nat.sub_le ..

section Tail

variable {w x2 : Nat} {x : ℝ} (h0 : 0 ≤ x) (h2 : x ≤ 2)
  (hlo : x ^ 2 - 1 / 2 ^ w ≤ (x2 : ℝ) / 2 ^ w) (hhi : (x2 : ℝ) / 2 ^ w ≤ x ^ 2)
include h0 h2 hhi

/-- The terms fall, so that no subtraction of the tail is cut off at 0. -/
theorem next_term_le (n t : Nat) : t * x2 / 2 ^ w / ((2 * n + 2) * (2 * n + 2 + 1)) ≤ t := by
  have hx2 : x2 ≤ 4 * 2 ^ w := by
    have : (x2 : ℝ) ≤ x ^ 2 * 2 ^ w := (div_le_iff₀ (by positivity)).mp hhi
    have : (x2 : ℝ) ≤ 4 * 2 ^ w := this.trans (by gcongr; nlinarith)
    exact_mod_cast this
  rw [Nat.div_div_eq_div_mul]
  refine Nat.div_le_of_le_mul ?_
  calc t * x2 ≤ t * (4 * 2 ^ w) := Nat.mul_le_mul_left t hx2
    _ = 2 ^ w * 4 * t := by ring
    _ ≤ 2 ^ w * ((2 * n + 2) * (2 * n + 2 + 1)) * t := by
      gcongr
      nlinarith

include hlo

/-- A term within six units of the exact one gives a next term that is, too. -/
theorem next_term_error {n t : Nat} (ht : |(t : ℝ) / 2 ^ w - sinTerm x n| ≤ 6 / 2 ^ w) :
    |((t * x2 / 2 ^ w / ((2 * n + 2) * (2 * n + 2 + 1)) : ℕ) : ℝ) / 2 ^ w - sinTerm x (n + 1)| ≤ 6 / 2 ^ w := by
  rw [Nat.div_div_eq_div_mul]
  obtain ⟨lo, hi⟩ := fixed_div_bounds w (t * x2) (b := 2 ^ w * ((2 * n + 2) * (2 * n + 2 + 1))) (by positivity)
  obtain ⟨c, hc⟩ : ∃ c : ℝ, c = (2 * n + 2 : ℕ) * (2 * n + 2 + 1 : ℕ) := ⟨_, rfl⟩
  have hc6 : 6 ≤ c := by
    have hn : (0 : ℝ) ≤ n := Nat.cast_nonneg n
    rw [hc]; push_cast; nlinarith
  have hS : (0 : ℝ) < 2 ^ w := by positivity
  have product : ((t * x2 : ℕ) : ℝ) / (2 ^ w * ((2 * n + 2) * (2 * n + 2 + 1)) : ℕ) / 2 ^ w =
      (t : ℝ) / 2 ^ w * (x2 / 2 ^ w) / c := by
    rw [hc]; push_cast; field_simp
  rw [product] at lo hi
  have inputs : |(t : ℝ) / 2 ^ w * (x2 / 2 ^ w) - sinTerm x n * x ^ 2| ≤ 26 / 2 ^ w := by
    have square : |(x2 : ℝ) / 2 ^ w - x ^ 2| ≤ 1 / 2 ^ w := by rw [abs_le]; constructor <;> linarith
    have square_le : |(x2 : ℝ) / 2 ^ w| ≤ 4 := by
      rw [abs_of_nonneg (by positivity)]; nlinarith
    have term_le : |sinTerm x n| ≤ 2 := by
      rw [abs_of_nonneg (sinTerm_nonneg h0 n)]; exact sinTerm_le_two h0 h2 n
    calc |(t : ℝ) / 2 ^ w * (x2 / 2 ^ w) - sinTerm x n * x ^ 2|
        = |((t : ℝ) / 2 ^ w - sinTerm x n) * (x2 / 2 ^ w) + sinTerm x n * (x2 / 2 ^ w - x ^ 2)| := by
          congr 1; ring
      _ ≤ |(t : ℝ) / 2 ^ w - sinTerm x n| * |(x2 : ℝ) / 2 ^ w| + |sinTerm x n| * |(x2 : ℝ) / 2 ^ w - x ^ 2| := by
          rw [← abs_mul, ← abs_mul]; exact abs_add_le ..
      _ ≤ 6 / 2 ^ w * 4 + 2 * (1 / 2 ^ w) := by gcongr
      _ = 26 / 2 ^ w := by ring
  have quotient : |(t : ℝ) / 2 ^ w * (x2 / 2 ^ w) / c - sinTerm x (n + 1)| ≤ 5 / 2 ^ w := by
    rw [sinTerm_succ, ← hc, ← sub_div, abs_div, abs_of_pos (by linarith : 0 < c), div_le_iff₀ (by linarith)]
    calc _ ≤ 26 / 2 ^ w := inputs
      _ ≤ 5 / 2 ^ w * 6 := by rw [div_mul_eq_mul_div]; gcongr; norm_num
      _ ≤ 5 / 2 ^ w * c := by gcongr
  have : (6 : ℝ) / 2 ^ w = 5 / 2 ^ w + 1 / 2 ^ w := by ring
  rw [this]
  obtain ⟨_, _⟩ := abs_le.mp quotient
  rw [abs_le]
  constructor <;> linarith

/-- Six units of error for each term of the tail. -/
theorem sinTail_error : ∀ fuel n t : Nat, |(t : ℝ) / 2 ^ w - sinTerm x n| ≤ 6 / 2 ^ w →
    |(sinTail w x2 fuel (2 * n + 2) t : ℝ) / 2 ^ w - ∑ i ∈ Finset.range fuel, (-1) ^ i * sinTerm x (n + i)| ≤
      fuel * (6 / 2 ^ w)
  | 0, _, _, _ => by simp [sinTail]
  | fuel + 1, n, t, ht => by
    have ih := sinTail_error fuel (n + 1) _ (next_term_error h0 h2 hlo hhi ht)
    have next_le := (sinTail_le w x2 fuel (2 * (n + 1) + 2) _).trans (next_term_le h0 h2 hhi n t)
    have rest : ∑ i ∈ Finset.range fuel, (-1 : ℝ) ^ (i + 1) * sinTerm x (n + (i + 1)) =
        -∑ i ∈ Finset.range fuel, (-1) ^ i * sinTerm x (n + 1 + i) := by
      rw [← Finset.sum_neg_distrib]
      refine Finset.sum_congr rfl fun i _ => ?_
      rw [pow_succ, Nat.add_right_comm n 1 i]
      ring_nf
    rw [sinTail, show 2 * n + 2 + 2 = 2 * (n + 1) + 2 by ring, Nat.cast_sub next_le,
      Finset.sum_range_succ', rest, sub_div]
    obtain ⟨_, _⟩ := abs_le.mp ih
    obtain ⟨_, _⟩ := abs_le.mp ht
    push_cast at *
    rw [abs_le]
    constructor <;> simp only [pow_zero, one_mul, add_zero] <;> linarith

end Tail

/-! ### The stored constants -/

/-- A constant held with m + k bits behind the point, of which the k high ones show that it is near `p`, is near
`p` at each precision that it is cut down to. -/
theorem cut_constant_error {c n m k : Nat} {p e : ℝ} (h : c / 2 ^ m = n) (hlo : p - e ≤ n / 2 ^ k)
    (hhi : ((n : ℝ) + 1) / 2 ^ k ≤ p + e) {w : Nat} (hw : w ≤ m + k) :
    |((c / 2 ^ (m + k - w) : ℕ) : ℝ) / 2 ^ w - p| ≤ 1 / 2 ^ w + e := by
  obtain ⟨high_lo, high_hi⟩ := fixed_div_bounds k c (Nat.two_pow_pos m)
  obtain ⟨cut_lo, cut_hi⟩ := fixed_div_bounds w c (Nat.two_pow_pos (m + k - w))
  have whole : (c : ℝ) / (2 ^ (m + k - w) : ℕ) / 2 ^ w = c / (2 ^ m : ℕ) / 2 ^ k := by
    rw [div_div, div_div, Nat.cast_pow, Nat.cast_pow, Nat.cast_ofNat, ← pow_add, ← pow_add,
      Nat.sub_add_cancel hw]
  rw [whole] at cut_lo cut_hi
  rw [h] at high_lo high_hi
  rw [add_div] at hhi
  have unit_pos : (0 : ℝ) < 1 / 2 ^ w := by positivity
  rw [abs_le]
  constructor <;> linarith

theorem piFixed_error {w : Nat} (hw : w ≤ 1024) :
    |(piFixed w : ℝ) / 2 ^ w - Real.pi| ≤ 1 / 2 ^ w + 2 ^ (-60 : ℤ) := by
  have high : piFixed1024 / 2 ^ 960 = 0x3243f6a8885a308d3 := by decide +kernel
  have pi_lo := Real.pi_gt_d20
  have pi_hi := Real.pi_lt_d20
  refine cut_constant_error (k := 64) high ?_ ?_ hw <;> norm_num <;> linarith

/-! ### SINQ -/

/-- The fixed-point angle is near π·a/b and stays in the range of the series. -/
theorem angle_error {a b w : Nat} (hb : 0 < b) (hab : 2 * a ≤ b) (hw : 128 ≤ w) (hw' : w ≤ 1024) :
    |((piFixed w * a / b : ℕ) : ℝ) / 2 ^ w - Real.pi * a / b| ≤ 2 ^ (-59 : ℤ) ∧
    ((piFixed w * a / b : ℕ) : ℝ) / 2 ^ w ≤ 2 := by
  have hb' : (0 : ℝ) < b := by exact_mod_cast hb
  have fraction : (a : ℝ) / b ≤ 1 / 2 := by
    rw [div_le_div_iff₀ hb' two_pos]; exact_mod_cast (by omega : a * 2 ≤ 1 * b)
  have fraction_nonneg : (0 : ℝ) ≤ a / b := by positivity
  have unit := unit_le hw
  obtain ⟨lo, hi⟩ := fixed_div_bounds w (piFixed w * a) hb
  have product : ((piFixed w * a : ℕ) : ℝ) / b / 2 ^ w = piFixed w / 2 ^ w * (a / b) := by push_cast; ring
  rw [product] at lo hi
  have angle : |(piFixed w : ℝ) / 2 ^ w * (a / b) - Real.pi * a / b| ≤ 2 ^ (-60 : ℤ) := by
    have e : (piFixed w : ℝ) / 2 ^ w * (a / b) - Real.pi * a / b = (piFixed w / 2 ^ w - Real.pi) * (a / b) := by
      ring
    rw [e, abs_mul, abs_of_nonneg fraction_nonneg]
    calc _ ≤ (1 / 2 ^ w + 2 ^ (-60 : ℤ)) * (1 / 2 : ℝ) :=
          mul_le_mul (piFixed_error hw') fraction fraction_nonneg (by positivity)
      _ ≤ 2 ^ (-60 : ℤ) := by norm_num at unit ⊢; linarith
  have small : Real.pi * a / b ≤ 1.6 := by
    rw [mul_div_assoc]
    nlinarith [Real.pi_lt_d2, Real.pi_pos]
  obtain ⟨_, _⟩ := abs_le.mp angle
  have sum : (2 : ℝ) ^ (-60 : ℤ) + 2 ^ (-128 : ℤ) ≤ 2 ^ (-59 : ℤ) := by norm_num
  have unit_pos : (0 : ℝ) < 1 / 2 ^ w := by positivity
  have slack : (2 : ℝ) ^ (-60 : ℤ) + 1.6 ≤ 2 := by norm_num
  refine ⟨?_, by linarith⟩
  rw [abs_le]
  constructor <;> linarith

/-- The series of `sinValue` gives the sine to 2^−38, whatever the precision. -/
theorem sinValue_error {a b w : Nat} (hb : 0 < b) (hab : 2 * a ≤ b) (hw : 128 ≤ w) (hw' : w ≤ 1024) :
    |(sinValue a b w : ℝ) / 2 ^ w - Real.sin (Real.pi * a / b)| ≤ 2 ^ (-38 : ℤ) := by
  obtain ⟨angle, range⟩ := angle_error hb hab hw hw'
  rw [sinValue]
  generalize piFixed w * a / b = x at *
  generalize hfuel : w / 6 + 4 = fuel
  have hx : (0 : ℝ) ≤ x / 2 ^ w := by positivity
  obtain ⟨lo, hi⟩ := fixed_square_bounds w x
  have tail := sinTail_error hx range lo hi fuel 0 x (by rw [sinTerm_zero, sub_self, abs_zero]; positivity)
  have series := sin_series_error hx range fuel
  have small := sinTerm_small hx range (n := fuel) (by omega)
  have close := (Real.abs_sin_sub_sin_le (x / 2 ^ w) (Real.pi * a / b)).trans angle
  have rounding : (fuel : ℝ) * (6 / 2 ^ w) ≤ 2 ^ (-40 : ℤ) := by
    have hf : (fuel : ℝ) ≤ 175 := by exact_mod_cast (by omega : fuel ≤ 175)
    have unit := unit_le hw
    calc (fuel : ℝ) * (6 / 2 ^ w) = fuel * 6 * (1 / 2 ^ w) := by ring
      _ ≤ 175 * 6 * 2 ^ (-128 : ℤ) := by gcongr
      _ ≤ 2 ^ (-40 : ℤ) := by norm_num
  simp only [Nat.mul_zero, Nat.zero_add] at tail
  obtain ⟨_, _⟩ := abs_le.mp tail
  obtain ⟨_, _⟩ := abs_le.mp series
  obtain ⟨_, _⟩ := abs_le.mp close
  have sum : (2 : ℝ) ^ (-40 : ℤ) + 2 ^ (-40 : ℤ) + 2 ^ (-59 : ℤ) ≤ 2 ^ (-38 : ℤ) := by norm_num
  rw [abs_le]
  constructor <;> linarith

theorem nearest_sin_error (neg : Bool) {a b : Nat} (hb : 0 < b) (hab : 2 * a ≤ b) :
    FiniteWord (packSigned neg (nearest (sinValue a b))) ∧
    |wordValue (packSigned neg (nearest (sinValue a b))) - signed neg (Real.sin (Real.pi * a / b))| ≤
      2 ^ (-24 : ℤ) := by
  obtain ⟨w, hw, word⟩ := packSigned_nearest neg (sinValue a b)
  obtain ⟨hw128, hw1024⟩ := precision_bounds hw
  have radius := lower_end_error (sinValue a b w) hw128
  have value := sinValue_error hb hab hw128 hw1024
  have sin_le := Real.sin_le_one (Real.pi * a / b)
  rw [word]
  generalize sinValue a b w - enclosureRadius = u at *
  generalize Real.sin (Real.pi * a / b) = s at *
  have lower_end : |(u : ℝ) / 2 ^ w - s| ≤ 2 ^ (-25 : ℤ) := by
    have sum : (2 : ℝ) ^ (-116 : ℤ) + 2 ^ (-38 : ℤ) ≤ 2 ^ (-25 : ℤ) := by norm_num
    linarith [abs_sub_le ((u : ℝ) / 2 ^ w) (sinValue a b w / 2 ^ w) s]
  have to_one : (u : ℝ) / 2 ^ w ≤ 1 + 2 ^ (-25 : ℤ) := by linarith [(abs_le.mp lower_end).2]
  obtain ⟨finite, error⟩ := fixedWord_error_to_one neg w u to_one
  refine ⟨finite, (abs_sub_le _ (signed neg ((u : ℝ) / 2 ^ w)) _).trans ?_⟩
  have sum : (2 : ℝ) ^ (-25 : ℤ) + 2 ^ (-25 : ℤ) = 2 ^ (-24 : ℤ) := by norm_num
  rw [signed_sub, abs_signed, ← sum]
  exact add_le_add error lower_end

theorem packSigned_one (neg : Bool) :
    FiniteWord (packSigned neg 0x3F800000) ∧ wordValue (packSigned neg 0x3F800000) = signed neg 1 := by
  have grid : gridValue 0x3F800000 = 2 ^ 149 := by decide
  rw [finiteWord_iff, wordValue_eq, units, magnitudeBits_packSigned neg (by decide),
    signBit_packSigned neg (by decide), grid, signed_mul]
  refine ⟨by decide, ?_⟩
  push_cast
  rw [ulp]; norm_num

/-- Folding the angle into the first quadrant and reducing the fraction keep the sine. -/
theorem sin_folded {a b : Nat} (hab : a < b) :
    Real.sin (Real.pi * (min a (b - a) : ℕ) / b) = Real.sin (Real.pi * a / b) := by
  have hb : (b : ℝ) ≠ 0 := by exact_mod_cast (by omega : b ≠ 0)
  rcases Nat.le_total a (b - a) with h | h
  · rw [min_eq_left h]
  · rw [min_eq_right h, Nat.cast_sub hab.le, ← Real.sin_pi_sub (Real.pi * a / b)]
    congr 1
    field_simp

theorem cast_reduced_div {a b : Nat} (hb : 0 < b) :
    ((a / Nat.gcd a b : ℕ) : ℝ) / (b / Nat.gcd a b : ℕ) = a / b := by
  have hg : (Nat.gcd a b : ℝ) ≠ 0 := by exact_mod_cast (Nat.gcd_pos_of_pos_right a hb).ne'
  rw [Nat.cast_div (Nat.gcd_dvd_left a b) hg, Nat.cast_div (Nat.gcd_dvd_right a b) hg]
  field_simp

theorem sinMagnitude_error (neg : Bool) {a b : Nat} (hab : a < b) :
    FiniteWord (packSigned neg (sinMagnitude a b)) ∧
    |wordValue (packSigned neg (sinMagnitude a b)) - signed neg (Real.sin (Real.pi * a / b))| ≤
      2 ^ (-24 : ℤ) := by
  have hb : 0 < b := by omega
  have fold_le : 2 * min a (b - a) ≤ b := by omega
  rw [← sin_folded hab, sinMagnitude]
  generalize min a (b - a) = c at *
  split_ifs with half
  · obtain ⟨finite, value⟩ := packSigned_one neg
    have right_angle : Real.pi * c / b = Real.pi / 2 := by
      have hb' : (b : ℝ) ≠ 0 := by exact_mod_cast hb.ne'
      have : (b : ℝ) = 2 * c := by exact_mod_cast half.symm
      rw [div_eq_div_iff hb' two_ne_zero, this]; ring
    rw [right_angle, Real.sin_pi_div_two, value, sub_self, abs_zero]
    exact ⟨finite, by positivity⟩
  · have hg := Nat.gcd_pos_of_pos_right c hb
    have reduced : 2 * (c / Nat.gcd c b) ≤ b / Nat.gcd c b := by
      rw [← Nat.mul_div_assoc 2 (Nat.gcd_dvd_left c b)]
      exact Nat.div_le_div_right fold_le
    have := nearest_sin_error neg (Nat.div_pos (Nat.gcd_le_right c hb) hg) reduced
    rwa [mul_div_assoc, cast_reduced_div hb, ← mul_div_assoc] at this

theorem fSinq_error {p q : Nat} (hq : 0 < q) :
    FiniteWord (fSinq p q) ∧ |wordValue (fSinq p q) - Real.sin (2 * Real.pi * p / q)| ≤ 2 ^ (-24 : ℤ) := by
  have hq' : (q : ℝ) ≠ 0 := by exact_mod_cast hq.ne'
  have period : Real.sin (2 * Real.pi * p / q) = Real.sin (Real.pi * (2 * (p % q) : ℕ) / q) := by
    have turns : (p : ℝ) = q * (p / q : ℕ) + (p % q : ℕ) := by exact_mod_cast (Nat.div_add_mod p q).symm
    have angle : 2 * Real.pi * p / q = Real.pi * (2 * (p % q) : ℕ) / q + (p / q : ℕ) * (2 * Real.pi) := by
      rw [turns]; push_cast; field_simp; ring
    rw [angle, Real.sin_add_nat_mul_two_pi]
  have hr : p % q < q := Nat.mod_lt p hq
  rw [period, fSinq]
  generalize p % q = r at *
  split_ifs with zero below
  · have sin_zero : Real.sin (Real.pi * (2 * r : ℕ) / q) = 0 := by
      rcases zero with rfl | h
      · simp
      · rw [h, mul_div_cancel_right₀ _ hq', Real.sin_pi]
    rw [sin_zero, wordValue_plusZero, sub_self, abs_zero]
    exact ⟨by decide, by positivity⟩
  · exact sinMagnitude_error false below
  · have turned : Real.sin (Real.pi * (2 * r : ℕ) / q) =
        signed true (Real.sin (Real.pi * (2 * r - q : ℕ) / q)) := by
      have angle : Real.pi * (2 * r : ℕ) / q = Real.pi * (2 * r - q : ℕ) / q + Real.pi := by
        rw [Nat.cast_sub (by omega)]; field_simp; ring
      rw [angle, Real.sin_add_pi, signed_true]
    rw [turned]
    exact sinMagnitude_error true (by omega)

/-- Settles O56: the series is far nearer than the rounding (`sinValue_error`, `fixedWord_error_to_one`); the
cosine is the sine a quarter turn on. -/
theorem sineIsAccurate : Obligations.SineIsAccurate := by
  refine fun p q hq => ⟨fSinq_error hq, ?_⟩
  have quarter : Real.cos (2 * Real.pi * p / q) = Real.sin (2 * Real.pi * (4 * p + q : ℕ) / (4 * q : ℕ)) := by
    have hq' : (q : ℝ) ≠ 0 := by exact_mod_cast hq.ne'
    rw [← Real.sin_add_pi_div_two]
    congr 1
    push_cast; field_simp; ring
  rw [quarter]
  exact fSinq_error (by omega)

end Sys2Proof.Machine
end

section
/-!
PROOFS for 00_scope.md R23: the series of artanh in fixed point, and how near LN is.
-/
namespace Sys2Proof.Machine

open Sys2Proof.Ideal (FiniteWord wordValue)

/-! ### The series of artanh -/

section Tail

variable {w z2 : Nat} {z : ℝ} (h0 : 0 ≤ z) (h5 : z ≤ 1 / 5)
  (hz2 : |(z2 : ℝ) / 2 ^ w - z ^ 2| ≤ 2 / 2 ^ w)
include h0 h5 hz2

/-- A power within two units of the exact one gives a next power that is, too. -/
theorem next_power_error (hw : 128 ≤ w) {n p : Nat} (hp : |(p : ℝ) / 2 ^ w - z ^ (2 * n + 1)| ≤ 2 / 2 ^ w) :
    |((p * z2 / 2 ^ w : ℕ) : ℝ) / 2 ^ w - z ^ (2 * (n + 1) + 1)| ≤ 2 / 2 ^ w := by
  obtain ⟨lo, hi⟩ := fixed_div_bounds w (p * z2) (Nat.two_pow_pos w)
  have product : ((p * z2 : ℕ) : ℝ) / (2 ^ w : ℕ) / 2 ^ w = (p : ℝ) / 2 ^ w * (z2 / 2 ^ w) := by
    push_cast; field_simp
  rw [product] at lo hi
  have square_le : |(z2 : ℝ) / 2 ^ w| ≤ 1 / 10 := by
    have unit := unit_le hw
    rw [abs_of_nonneg (by positivity)]
    have double : (2 : ℝ) / 2 ^ w = 2 * (1 / 2 ^ w) := by ring
    have square : z ^ 2 ≤ 1 / 25 := by nlinarith
    have near := (abs_le.mp hz2).2
    have tiny : (2 : ℝ) ^ (-128 : ℤ) ≤ 1 / 100 := by norm_num
    linarith
  have power_le : |z ^ (2 * n + 1)| ≤ 1 / 5 := by
    rw [abs_of_nonneg (by positivity)]
    calc z ^ (2 * n + 1) ≤ z ^ 1 := pow_le_pow_of_le_one h0 (by linarith) (by omega)
      _ ≤ 1 / 5 := by rwa [pow_one]
  have inputs : |(p : ℝ) / 2 ^ w * (z2 / 2 ^ w) - z ^ (2 * (n + 1) + 1)| ≤ 1 / 2 ^ w := by
    calc |(p : ℝ) / 2 ^ w * (z2 / 2 ^ w) - z ^ (2 * (n + 1) + 1)|
        = |((p : ℝ) / 2 ^ w - z ^ (2 * n + 1)) * (z2 / 2 ^ w) + z ^ (2 * n + 1) * (z2 / 2 ^ w - z ^ 2)| := by
          congr 1; ring
      _ ≤ |(p : ℝ) / 2 ^ w - z ^ (2 * n + 1)| * |(z2 : ℝ) / 2 ^ w| +
            |z ^ (2 * n + 1)| * |(z2 : ℝ) / 2 ^ w - z ^ 2| := by
          rw [← abs_mul, ← abs_mul]; exact abs_add_le ..
      _ ≤ 2 / 2 ^ w * (1 / 10) + 1 / 5 * (2 / 2 ^ w) := by gcongr
      _ = 3 / 5 * (1 / 2 ^ w) := by ring
      _ ≤ 1 / 2 ^ w := by linarith [(by positivity : (0 : ℝ) < 1 / 2 ^ w)]
  have : (2 : ℝ) / 2 ^ w = 1 / 2 ^ w + 1 / 2 ^ w := by ring
  obtain ⟨_, _⟩ := abs_le.mp inputs
  rw [abs_le]
  constructor <;> linarith

/-- Three units of error for each term of the tail. -/
theorem artanhTail_error (hw : 128 ≤ w) :
    ∀ fuel n p : Nat, |(p : ℝ) / 2 ^ w - z ^ (2 * n + 1)| ≤ 2 / 2 ^ w →
    |(artanhTail w z2 fuel (2 * n + 1) p : ℝ) / 2 ^ w -
        ∑ i ∈ Finset.range fuel, z ^ (2 * (n + i) + 1) / (2 * (n + i : ℕ) + 1)| ≤ fuel * (3 / 2 ^ w)
  | 0, _, _, _ => by simp [artanhTail]
  | fuel + 1, n, p, hp => by
    have ih := artanhTail_error hw fuel (n + 1) _ (next_power_error h0 h5 hz2 hw hp)
    obtain ⟨lo, hi⟩ := fixed_div_bounds w p (Nat.succ_pos (2 * n))
    have hj : (1 : ℝ) ≤ 2 * n + 1 := by have := Nat.cast_nonneg (α := ℝ) n; linarith
    have first : |((p / (2 * n + 1) : ℕ) : ℝ) / 2 ^ w - z ^ (2 * n + 1) / (2 * n + 1)| ≤ 3 / 2 ^ w := by
      have e : (p : ℝ) / (2 * n + 1 : ℕ) / 2 ^ w - z ^ (2 * n + 1) / (2 * n + 1) =
          ((p : ℝ) / 2 ^ w - z ^ (2 * n + 1)) / (2 * n + 1) := by push_cast; ring
      have quotient : |(p : ℝ) / (2 * n + 1 : ℕ) / 2 ^ w - z ^ (2 * n + 1) / (2 * n + 1)| ≤ 2 / 2 ^ w := by
        rw [e, abs_div, abs_of_pos (by linarith : (0 : ℝ) < 2 * n + 1)]
        exact (div_le_self (abs_nonneg _) hj).trans hp
      have : (3 : ℝ) / 2 ^ w = 2 / 2 ^ w + 1 / 2 ^ w := by ring
      obtain ⟨_, _⟩ := abs_le.mp quotient
      rw [abs_le]
      constructor <;> linarith
    rw [artanhTail, show 2 * n + 1 + 2 = 2 * (n + 1) + 1 by ring, Finset.sum_range_succ', Nat.cast_add, add_div]
    simp only [Nat.add_right_comm n _ 1, ← Nat.add_assoc, Nat.add_zero] at ih ⊢
    obtain ⟨_, _⟩ := abs_le.mp ih
    obtain ⟨_, _⟩ := abs_le.mp first
    push_cast at *
    rw [abs_le]
    constructor <;> linarith

end Tail

/-- The argument of artanh for two numbers in a ratio of at most √2. -/
theorem ratio_argument {M N : ℝ} (hN : 0 < N) (hNM : N ≤ M) (hratio : M * M ≤ 2 * (N * N)) :
    0 ≤ (M - N) / (M + N) ∧ (M - N) / (M + N) ≤ 1 / 5 ∧
    (1 + (M - N) / (M + N)) / (1 - (M - N) / (M + N)) = M / N := by
  have sum_pos : 0 < M + N := by linarith
  have ratio : 2 * M ≤ 3 * N := by nlinarith
  have plus : 1 + (M - N) / (M + N) = 2 * M / (M + N) := by field_simp; ring
  have minus : 1 - (M - N) / (M + N) = 2 * N / (M + N) := by field_simp; ring
  refine ⟨div_nonneg (by linarith) sum_pos.le, ?_, ?_⟩
  · rw [div_le_iff₀ sum_pos]; linarith
  · rw [plus, minus]; field_simp

/-- From the 27th term on, the fewest that `lnValue` takes, the series of artanh is shorter than 2^−93. -/
theorem artanh_series_error {y : ℝ} (h0 : 0 ≤ y) (h5 : y ≤ 1 / 5) {n : Nat} (hn : 27 ≤ n) :
    |1 / 2 * Real.log ((1 + y) / (1 - y)) - ∑ i ∈ Finset.range n, y ^ (2 * i + 1) / (2 * i + 1)| ≤
      2 ^ (-93 : ℤ) := by
  have power : |y| ^ (2 * n + 1) ≤ (1 / 5) ^ 55 := by
    rw [abs_of_nonneg h0]
    calc y ^ (2 * n + 1) ≤ y ^ 55 := pow_le_pow_of_le_one h0 (by linarith) (by omega)
      _ ≤ (1 / 5) ^ 55 := by gcongr
  have denominator : 1 / 2 ≤ 1 - y ^ 2 := by nlinarith
  calc _ ≤ |y| ^ (2 * n + 1) / (1 - y ^ 2) :=
        Real.sum_range_sub_log_div_le (by rw [abs_of_nonneg h0]; linarith) n
    _ ≤ (1 / 5) ^ 55 / (1 / 2) := by gcongr
    _ ≤ 2 ^ (-93 : ℤ) := by norm_num

/-- A fixed-point number up to 1/5 that is truncated has its square within two units. -/
theorem truncated_square_error {w z : Nat} {y : ℝ} (h5 : y ≤ 1 / 5) (hlo : y - 1 / 2 ^ w ≤ (z : ℝ) / 2 ^ w)
    (hhi : (z : ℝ) / 2 ^ w ≤ y) : |((z * z / 2 ^ w : ℕ) : ℝ) / 2 ^ w - y ^ 2| ≤ 2 / 2 ^ w := by
  have unit_pos : (0 : ℝ) < 1 / 2 ^ w := by positivity
  have z_nonneg : (0 : ℝ) ≤ z / 2 ^ w := by positivity
  obtain ⟨lo, hi⟩ := fixed_square_bounds w z
  rw [← mul_one_div (2 : ℝ), abs_le]
  constructor <;> nlinarith

/-- `lnValue`'s series for two numbers in a ratio of at most √2 gives the logarithm of the ratio. -/
theorem artanhTail_log {M N w : Nat} (hN : 0 < N) (hNM : N ≤ M) (hratio : M * M ≤ 2 * (N * N))
    (hw : 128 ≤ w) (hw' : w ≤ 1024) (z : Nat) (hz : z = (M - N) * 2 ^ w / (M + N)) :
    |2 * (artanhTail w (z * z / 2 ^ w) (w / 5 + 2) 1 z : ℝ) / 2 ^ w - Real.log (M / N)| ≤ 2 ^ (-90 : ℤ) := by
  obtain ⟨y_nonneg, y_le, log_ratio⟩ := ratio_argument (M := M) (N := N) (by exact_mod_cast hN)
    (by exact_mod_cast hNM) (by exact_mod_cast hratio)
  obtain ⟨lo, hi⟩ := fixed_div_bounds w ((M - N) * 2 ^ w) (b := M + N) (by omega)
  have whole : (((M - N) * 2 ^ w : ℕ) : ℝ) / (M + N : ℕ) / 2 ^ w = ((M : ℝ) - N) / (M + N) := by
    push_cast [Nat.cast_sub hNM]; field_simp
  rw [whole, ← hz] at lo hi
  generalize ((M : ℝ) - N) / (M + N) = y at *
  have first : |(z : ℝ) / 2 ^ w - y ^ (2 * 0 + 1)| ≤ 2 / 2 ^ w := by
    have unit_pos : (0 : ℝ) < 1 / 2 ^ w := by positivity
    rw [Nat.mul_zero, Nat.zero_add, pow_one, ← mul_one_div (2 : ℝ), abs_le]
    constructor <;> linarith
  have tail := artanhTail_error y_nonneg y_le (truncated_square_error y_le lo hi) hw (w / 5 + 2) 0 z first
  generalize hfuel : w / 5 + 2 = fuel at *
  have series := artanh_series_error y_nonneg y_le (n := fuel) (by omega)
  have rounding : (fuel : ℝ) * (3 / 2 ^ w) ≤ 2 ^ (-93 : ℤ) := by
    have hf : (fuel : ℝ) ≤ 207 := by exact_mod_cast (by omega : fuel ≤ 207)
    calc (fuel : ℝ) * (3 / 2 ^ w) = fuel * 3 * (1 / 2 ^ w) := by ring
      _ ≤ 207 * 3 * 2 ^ (-128 : ℤ) := by gcongr; exact unit_le hw
      _ ≤ 2 ^ (-93 : ℤ) := by norm_num
  rw [log_ratio] at series
  simp only [Nat.mul_zero, Nat.zero_add] at tail
  have sum : (2 : ℝ) * (2 ^ (-93 : ℤ) + 2 ^ (-93 : ℤ)) ≤ 2 ^ (-90 : ℤ) := by norm_num
  obtain ⟨_, _⟩ := abs_le.mp tail
  obtain ⟨_, _⟩ := abs_le.mp series
  rw [mul_div_assoc, abs_le]
  constructor <;> linarith

theorem ln2Fixed_error {w : Nat} (hw : w ≤ 1024) :
    |(ln2Fixed w : ℝ) / 2 ^ w - Real.log 2| ≤ 1 / 2 ^ w + 2 ^ (-30 : ℤ) := by
  have high : ln2Fixed1024 / 2 ^ 960 = 0xb17217f7d1cf79ab := by decide +kernel
  have log_lo := Real.log_two_gt_d9
  have log_hi := Real.log_two_lt_d9
  refine cut_constant_error (k := 64) high ?_ ?_ hw <;> norm_num <;> linarith

/-- The power of two taken out of `m` is within a factor √2 of it. -/
theorem centredLog2_ratio {m : Nat} (hm : m ≠ 0) :
    m * m ≤ 2 * (2 ^ centredLog2 m * 2 ^ centredLog2 m) ∧
    2 ^ centredLog2 m * 2 ^ centredLog2 m ≤ 2 * (m * m) := by
  have lo := Nat.log2_self_le hm
  have hi := (Nat.lt_log2_self (n := m)).le
  rw [centredLog2]
  generalize m.log2 = l at *
  have square_lo := Nat.mul_le_mul lo lo
  have square_hi := Nat.mul_le_mul hi hi
  have e : 2 ^ (2 * l + 1) = 2 * (2 ^ l * 2 ^ l) := by ring
  have e' : 2 ^ (l + 1) * 2 ^ (l + 1) = 4 * (2 ^ l * 2 ^ l) := by ring
  rw [e]
  rw [e'] at square_hi
  split_ifs
  · rw [e']; omega
  · omega

/-! ### LN -/

section Log

variable {m : Nat} (hm : m ≠ 0)
include hm

/-- The logarithm of m·2^−149, as `lnValue` takes it apart. -/
theorem log_split :
    Real.log (m * ulp) = Real.log (m / 2 ^ centredLog2 m) + ((centredLog2 m : ℤ) - 149 : ℤ) * Real.log 2 := by
  have hm' : (m : ℝ) ≠ 0 := by exact_mod_cast hm
  rw [Real.log_mul hm' ulp_pos.ne', Real.log_div hm' (by positivity), ulp, Real.log_zpow, Real.log_pow]
  push_cast; ring

/-- Half a bit at most is left to the series. -/
theorem abs_log_mantissa_le : |Real.log (m / 2 ^ centredLog2 m)| ≤ Real.log 2 / 2 := by
  obtain ⟨hi, lo⟩ := centredLog2_ratio hm
  have hm' : (0 : ℝ) < m := by exact_mod_cast Nat.pos_of_ne_zero hm
  have hc : (0 : ℝ) < 2 ^ centredLog2 m := by positivity
  have hi' : (m : ℝ) * m ≤ 2 * (2 ^ centredLog2 m * 2 ^ centredLog2 m) := by exact_mod_cast hi
  have lo' : (2 : ℝ) ^ centredLog2 m * 2 ^ centredLog2 m ≤ 2 * (m * m) := by exact_mod_cast lo
  have log_hi := Real.log_le_log (by positivity) hi'
  have log_lo := Real.log_le_log (by positivity) lo'
  rw [Real.log_mul two_ne_zero (by positivity), Real.log_mul hm'.ne' hm'.ne', Real.log_mul hc.ne' hc.ne']
    at log_hi log_lo
  rw [Real.log_div hm'.ne' hc.ne', abs_le]
  constructor <;> linarith

/-- The series of `lnValue`, with the sign that the side of the power of two gives it. -/
theorem mantissa_error {w : Nat} (hw : 128 ≤ w) (hw' : w ≤ 1024) (z : Nat)
    (hz : z = (max m (2 ^ centredLog2 m) - min m (2 ^ centredLog2 m)) * 2 ^ w / (m + 2 ^ centredLog2 m)) :
    |((if 2 ^ centredLog2 m ≤ m then 2 * (artanhTail w (z * z / 2 ^ w) (w / 5 + 2) 1 z : ℤ)
        else -(2 * (artanhTail w (z * z / 2 ^ w) (w / 5 + 2) 1 z : ℤ)) : ℤ) : ℝ) / 2 ^ w -
      Real.log (m / 2 ^ centredLog2 m)| ≤ 2 ^ (-90 : ℤ) := by
  obtain ⟨hi, lo⟩ := centredLog2_ratio hm
  generalize centredLog2 m = l at *
  split_ifs with side
  · rw [max_eq_left side, min_eq_right side] at hz
    have := artanhTail_log (Nat.two_pow_pos l) side hi hw hw' z hz
    push_cast at this ⊢
    exact this
  · have side' : m ≤ 2 ^ l := by omega
    rw [max_eq_right side', min_eq_left side', Nat.add_comm] at hz
    have := artanhTail_log (Nat.pos_of_ne_zero hm) side' lo hw hw' z hz
    rw [← inv_div ((2 : ℝ) ^ l) m, Real.log_inv, Int.cast_neg, neg_div, neg_sub_neg, abs_sub_comm]
    push_cast at this ⊢
    exact this

theorem lnValue_error {w : Nat} (hw : 128 ≤ w) (hw' : w ≤ 1024) :
    |(lnValue m w : ℝ) / 2 ^ w - Real.log (m * ulp)| ≤
      2 ^ (-90 : ℤ) + |(((centredLog2 m : ℤ) - 149 : ℤ) : ℝ)| * 2 ^ (-29 : ℤ) := by
  have constant : |(ln2Fixed w : ℝ) / 2 ^ w - Real.log 2| ≤ 2 ^ (-29 : ℤ) := by
    have := ln2Fixed_error hw'
    have := unit_le hw
    have : (2 : ℝ) ^ (-128 : ℤ) + 2 ^ (-30 : ℤ) ≤ 2 ^ (-29 : ℤ) := by norm_num
    linarith
  have mantissa := mantissa_error hm hw hw' _ rfl
  rw [log_split hm, lnValue]
  generalize ((centredLog2 m : ℤ) - 149) = e
  rw [Int.cast_add, Int.cast_mul, add_div]
  have exponent : |(e : ℝ) * ((ln2Fixed w : ℤ) : ℝ) / 2 ^ w - e * Real.log 2| ≤ |(e : ℝ)| * 2 ^ (-29 : ℤ) := by
    rw [mul_div_assoc, ← mul_sub, abs_mul, Int.cast_natCast]
    gcongr
  rw [add_sub_add_comm]
  exact (abs_add_le ..).trans (add_le_add mantissa exponent)

/-- The exponent's share of the logarithm outweighs what the series can take from it. -/
theorem exponent_le_log : |(((centredLog2 m : ℤ) - 149 : ℤ) : ℝ)| ≤ 4 * |Real.log (m * ulp)| := by
  have mantissa := abs_log_mantissa_le hm
  have log_two := Real.log_two_gt_d9
  rw [log_split hm]
  generalize (centredLog2 m : ℤ) - 149 = e at *
  generalize Real.log (m / 2 ^ centredLog2 m) = r at *
  have apart : |(e : ℝ)| * Real.log 2 ≤ |r + e * Real.log 2| + |r| := by
    calc |(e : ℝ)| * Real.log 2 = |(r + e * Real.log 2) - r| := by
          rw [add_sub_cancel_left, abs_mul, abs_of_pos (by linarith : 0 < Real.log 2)]
      _ ≤ _ := abs_sub _ _
  rcases eq_or_ne e 0 with rfl | he
  · simp
  · have : (1 : ℝ) ≤ |(e : ℝ)| := by exact_mod_cast Int.one_le_abs he
    nlinarith

end Log


/-! ### LN at the finite words above zero -/

/-- A finite word other than 1.0 is at least 2^−24 away from it. -/
theorem units_apart_from_one {w : Word} (h : units w ≠ 2 ^ 149) :
    units w + 2 ^ 125 ≤ 2 ^ 149 ∨ 2 ^ 149 + 2 ^ 125 ≤ units w := by
  rcases gridValue_cases (magnitudeBits w) 125 with ⟨n, hn⟩ | ⟨_, hlt⟩
  · rw [units, hn] at h ⊢
    rcases Nat.lt_or_gt_of_ne (show n ≠ 2 ^ 24 by rintro rfl; exact h (by norm_num)) with hn | hn
    · exact .inl (by omega)
    · exact .inr (by omega)
  · exact .inl (by rw [units]; omega)

theorem units_lt {w : Word} (h : FiniteWord w) : units w < 2 ^ (253 + 24) := by
  have hm := (finiteWord_iff w).mp h
  rw [infinityMagnitude] at hm
  exact gridValue_lt (by omega)

theorem log_ge_of_ne_one {w : Word} (h0 : units w ≠ 0) (h1 : units w ≠ 2 ^ 149) :
    2 ^ (-25 : ℤ) ≤ |Real.log (units w * ulp)| := by
  have hu := ulp_pos
  have hx : 0 < (units w : ℝ) * ulp := mul_pos (by exact_mod_cast Nat.pos_of_ne_zero h0) hu
  rcases units_apart_from_one h1 with h | h
  · have le : (units w : ℝ) + 2 ^ 125 ≤ 2 ^ 149 := by exact_mod_cast h
    have below : (units w : ℝ) * ulp ≤ 1 - 2 ^ (-24 : ℤ) := by
      calc (units w : ℝ) * ulp ≤ (2 ^ 149 - 2 ^ 125) * ulp := by gcongr; linarith
        _ = 1 - 2 ^ (-24 : ℤ) := by norm_num [ulp]
    have log_le := Real.log_le_sub_one_of_pos hx
    have : (2 : ℝ) ^ (-25 : ℤ) ≤ 2 ^ (-24 : ℤ) := by norm_num
    exact le_abs.mpr (.inr (by linarith))
  · have le : (2 : ℝ) ^ 149 + 2 ^ 125 ≤ units w := by exact_mod_cast h
    have above : 1 + 2 ^ (-24 : ℤ) ≤ (units w : ℝ) * ulp := by
      calc (1 : ℝ) + 2 ^ (-24 : ℤ) = (2 ^ 149 + 2 ^ 125) * ulp := by norm_num [ulp]
        _ ≤ (units w : ℝ) * ulp := by gcongr
    have le_log := Real.one_sub_inv_le_log_of_pos hx
    have inv_le : ((units w : ℝ) * ulp)⁻¹ ≤ (1 + 2 ^ (-24 : ℤ))⁻¹ := inv_anti₀ (by positivity) above
    have : (1 + 2 ^ (-24 : ℤ) : ℝ)⁻¹ ≤ 1 - 2 ^ (-25 : ℤ) := by norm_num
    exact le_abs.mpr (.inl ((le_sub_comm.mp (inv_le.trans this)).trans le_log))

theorem abs_log_le {w : Word} (h : FiniteWord w) (h0 : units w ≠ 0) :
    |Real.log (units w * ulp)| ≤ 149 := by
  have hu := ulp_pos
  have one_le : (1 : ℝ) ≤ units w := by exact_mod_cast Nat.pos_of_ne_zero h0
  have le : (units w : ℝ) ≤ 2 ^ (253 + 24) := by exact_mod_cast (units_lt h).le
  have log_two := Real.log_two_lt_d9
  have lo := Real.log_le_log hu (le_mul_of_one_le_left hu.le one_le)
  have hi := Real.log_le_log (by positivity) (mul_le_mul_of_nonneg_right le hu.le)
  have top : (2 : ℝ) ^ (253 + 24) * ulp = 2 ^ (128 : ℤ) := by
    rw [ulp, ← zpow_natCast, ← zpow_add₀ two_ne_zero]; norm_num
  rw [top, Real.log_zpow] at hi
  rw [ulp, Real.log_zpow, ← ulp] at lo
  push_cast at lo hi
  rw [abs_le]
  constructor <;> linarith

theorem log_eq_signed {a : Word} (h0 : units a ≠ 0) :
    Real.log (units a * ulp) = signed (units a < 2 ^ 149) |Real.log (units a * ulp)| := by
  have hu := ulp_pos
  have one : (2 : ℝ) ^ 149 * ulp = 1 := by norm_num [ulp]
  have hx : 0 < (units a : ℝ) * ulp := mul_pos (by exact_mod_cast Nat.pos_of_ne_zero h0) hu
  by_cases h : units a < 2 ^ 149
  · have lt : (units a : ℝ) < 2 ^ 149 := by exact_mod_cast h
    have := Real.log_neg hx (by rw [← one]; gcongr)
    rw [decide_eq_true h, signed_true, abs_of_neg this, neg_neg]
  · have le : (2 : ℝ) ^ 149 ≤ units a := by exact_mod_cast Nat.le_of_not_lt h
    have := Real.log_nonneg (by rw [← one]; gcongr : 1 ≤ (units a : ℝ) * ulp)
    rw [decide_eq_false h, signed_false, abs_of_nonneg this]

section Positive

variable {a : Word} (h0 : units a ≠ 0)
include h0

/-- At every precision the lower end is a relative 2^−25 from the logarithm's magnitude. -/
theorem lnValue_lower_end_error (h1 : units a ≠ 2 ^ 149) {w : Nat} (hw : 128 ≤ w) (hw' : w ≤ 1024) :
    |(((lnValue (units a) w).natAbs - enclosureRadius : ℕ) : ℝ) / 2 ^ w - (|Real.log (units a * ulp)|)| ≤
      2 ^ (-25 : ℤ) * |Real.log (units a * ulp)| := by
  have value := lnValue_error h0 hw hw'
  have exponent := exponent_le_log h0
  have large := log_ge_of_ne_one h0 h1
  have radius := lower_end_error (lnValue (units a) w).natAbs hw
  generalize Real.log (units a * ulp) = x at *
  have magnitude : |((lnValue (units a) w).natAbs : ℝ) / 2 ^ w - (|x|)| ≤ |(lnValue (units a) w : ℝ) / 2 ^ w - x| := by
    have e : ((lnValue (units a) w).natAbs : ℝ) / 2 ^ w = |(lnValue (units a) w : ℝ) / 2 ^ w| := by
      rw [abs_div, abs_of_pos (by positivity : (0 : ℝ) < 2 ^ w), Nat.cast_natAbs, Int.cast_abs]
    rw [e]
    exact abs_abs_sub_abs_le ..
  have scaled : (2 : ℝ) ^ (-90 : ℤ) + 2 ^ (-116 : ℤ) ≤ 2 ^ (-27 : ℤ) * |x| := by
    calc (2 : ℝ) ^ (-90 : ℤ) + 2 ^ (-116 : ℤ) ≤ 2 ^ (-27 : ℤ) * 2 ^ (-25 : ℤ) := by norm_num
      _ ≤ _ := by gcongr
  have exponent' : |(((centredLog2 (units a) : ℤ) - 149 : ℤ) : ℝ)| * 2 ^ (-29 : ℤ) ≤ 2 ^ (-27 : ℤ) * |x| := by
    calc _ ≤ 4 * |x| * 2 ^ (-29 : ℤ) := by gcongr
      _ = 2 ^ (-27 : ℤ) * |x| := by ring
  have sum : (2 : ℝ) ^ (-27 : ℤ) + 2 ^ (-27 : ℤ) ≤ 2 ^ (-25 : ℤ) := by norm_num
  have sum' := mul_le_mul_of_nonneg_right sum (abs_nonneg x)
  rw [add_mul] at sum'
  calc _ ≤ _ := abs_sub_le _ (((lnValue (units a) w).natAbs : ℝ) / 2 ^ w) _
    _ ≤ 2 ^ (-116 : ℤ) + (2 ^ (-90 : ℤ) + 2 ^ (-27 : ℤ) * |x|) :=
      add_le_add radius (magnitude.trans (value.trans (add_le_add_right exponent' _)))
    _ ≤ 2 ^ (-25 : ℤ) * |x| := by linarith

variable (ha : FiniteWord a) (hs : signBit a = false)
include ha hs

theorem fLn_of_pos : fLn a = if units a = 2 ^ 149 then 0#32
    else packSigned (units a < 2 ^ 149) (nearest fun w => (lnValue (units a) w).natAbs) := by
  rw [fLn, unpack_of_finite ha, hs]
  exact (if_neg h0).trans (if_neg Bool.false_ne_true)

theorem fLn_error_of_ne_one (h1 : units a ≠ 2 ^ 149) : FiniteWord (fLn a) ∧
    |wordValue (fLn a) - Real.log (units a * ulp)| ≤ 2 ^ (-23 : ℤ) * |Real.log (units a * ulp)| := by
  obtain ⟨w, hw, fixed⟩ := packSigned_nearest (units a < 2 ^ 149) fun w => (lnValue (units a) w).natAbs
  obtain ⟨hw128, hw1024⟩ := precision_bounds hw
  have lower_end := lnValue_lower_end_error h0 h1 hw128 hw1024
  have large := log_ge_of_ne_one h0 h1
  have small := abs_log_le ha h0
  have sign := log_eq_signed h0
  rw [fLn_of_pos h0 ha hs, if_neg h1, fixed]
  generalize (lnValue (units a) w).natAbs - enclosureRadius = u at *
  generalize decide (units a < 2 ^ 149) = neg at *
  generalize Real.log (units a * ulp) = x at *
  have close := abs_le.mp lower_end
  have tiny : (2 : ℝ) ^ (-25 : ℤ) ≤ 1 / 2 := by norm_num
  have bounds : 1 / 2 * |x| ≤ (u : ℝ) / 2 ^ w ∧ (u : ℝ) / 2 ^ w ≤ 3 / 2 * |x| := by
    have := mul_le_mul_of_nonneg_right tiny (abs_nonneg x)
    constructor <;> linarith [close.1, close.2]
  have normal : (2 : ℝ) ^ (-126 : ℤ) ≤ 1 / 2 * |x| := by
    calc (2 : ℝ) ^ (-126 : ℤ) ≤ 1 / 2 * 2 ^ (-25 : ℤ) := by norm_num
      _ ≤ 1 / 2 * |x| := by gcongr
  obtain ⟨finite, error⟩ := fixedWord_relative_error neg w u (normal.trans bounds.1)
    (by have : (3 : ℝ) / 2 * 149 ≤ 2 ^ 99 := by norm_num
        linarith [bounds.2])
  refine ⟨finite, (abs_sub_le _ (signed neg ((u : ℝ) / 2 ^ w)) _).trans ?_⟩
  have carried : |signed neg ((u : ℝ) / 2 ^ w) - x| ≤ 2 ^ (-25 : ℤ) * |x| := by
    conv_lhs => rw [sign]
    rwa [signed_sub, abs_signed]
  have rounding : (u : ℝ) / 2 ^ w / 2 ^ 24 ≤ 3 / 2 / 2 ^ 24 * |x| := by
    rw [div_mul_eq_mul_div]
    gcongr
    exact bounds.2
  calc _ ≤ 3 / 2 / 2 ^ 24 * |x| + 2 ^ (-25 : ℤ) * |x| := add_le_add (error.trans rounding) carried
    _ = (3 / 2 / 2 ^ 24 + 2 ^ (-25 : ℤ)) * |x| := (add_mul ..).symm
    _ ≤ 2 ^ (-23 : ℤ) * |x| := by gcongr; norm_num

end Positive

theorem fLn_error {a : Word} (ha : FiniteWord a) (h : 0 < wordValue a) :
    FiniteWord (fLn a) ∧
    |wordValue (fLn a) - Real.log (wordValue a)| ≤ 2 ^ (-23 : ℤ) * |Real.log (wordValue a)| := by
  have h0 : units a ≠ 0 := fun h0 => h.ne' ((wordValue_eq_zero_iff a).mpr h0)
  have hs := signBit_of_nonneg h.le h0
  rw [wordValue_eq a, hs, signed_false]
  by_cases h1 : units a = 2 ^ 149
  · have one : (units a : ℝ) * ulp = 1 := by rw [h1]; norm_num [ulp]
    rw [fLn_of_pos h0 ha hs, if_pos h1, one, wordValue_plusZero, Real.log_one]
    exact ⟨by decide, by simp⟩
  · exact fLn_error_of_ne_one h0 ha hs h1

/-- Settles O51: the series is far nearer than the rounding (`lnValue_error`, `fixedWord_relative_error`). -/
theorem lnIsAccurate : Obligations.LnIsAccurate :=
  ⟨fun _ ha h => fLn_error ha h, by decide, by decide, by decide, by decide, fLn_negInfinity,
    fun _ ha h => fLn_of_neg ha h⟩

end Sys2Proof.Machine
end

section
/-!
PROOFS for 20_memory.md R73 to R77: where elements lie, which accesses reach them, and what an element holds
after the write of another.
-/
namespace Sys2Proof.Machine

theorem mem_allBuffers (b : Buffer) : b ∈ allBuffers := by cases b <;> decide

/-! ### Elements and windows -/

theorem covers_iff {c : Config} {off : Nat} {b : Buffer} :
    b.covers c off = true ↔ b.base ≤ off ∧ off < b.base + 4 * b.elements c := by
  show _ ↔ b.base ≤ off ∧ off < b.elemOffset (b.elements c)
  simp [Buffer.covers]

theorem base_aligned (b : Buffer) : b.base % 4 = 0 := by cases b <;> rfl

theorem elemOffset_succ (b : Buffer) (i : Nat) : b.elemOffset (i + 1) = b.elemOffset i + 4 := by
  simp only [Buffer.elemOffset]; omega

theorem elemOffset_aligned (b : Buffer) (i : Nat) : b.elemOffset i % 4 = 0 := by
  have := base_aligned b
  simp only [Buffer.elemOffset]; omega

/-- The windows lie above the registers and inside the block's window, each below the next (R73). -/
theorem windows_disjoint : ∀ b ∈ allBuffers,
    0x4000 ≤ b.base ∧ b.base + b.windowSize ≤ windowSize ∧
    ∀ b' ∈ allBuffers, b ≠ b' → b.base + b.windowSize ≤ b'.base ∨ b'.base + b'.windowSize ≤ b.base := by
  decide

theorem Config.Legal.mmax_le {c : Config} (hc : c.Legal) : c.mmax ≤ 4096 := by
  have all : ∀ m ∈ [4, 8, 16, 32, 64, 128, 256, 512, 1024, 2048, 4096], m ≤ 4096 := by decide
  exact all _ hc.1

section Window

variable {c : Config} (hc : c.Legal)
include hc

/-- The implemented elements of a buffer fit in its window. -/
theorem elements_fit (b : Buffer) : 4 * b.elements c ≤ b.windowSize := by
  have hm := Config.Legal.mmax_le hc
  obtain ⟨-, ⟨-, hnb⟩, ⟨-, hnd⟩, -⟩ := hc
  cases b <;> simp only [Buffer.elements, Buffer.windowSize] <;> omega

section Element

variable {b : Buffer} {i : Nat} (hi : i < b.elements c)
include hi

theorem elemOffset_in_window : b.base ≤ b.elemOffset i ∧ b.elemOffset i + 4 ≤ b.base + b.windowSize := by
  have := elements_fit hc b
  simp only [Buffer.elemOffset]; omega

theorem accessAllowed_elemOffset : accessAllowed (b.elemOffset i) 4 = true := by
  have inside := elemOffset_in_window hc hi
  have window := (windows_disjoint b (mem_allBuffers b)).2.1
  simp [accessAllowed, elemOffset_aligned]; omega

theorem registerAt_elemOffset : registerAt (b.elemOffset i) = none := by
  have low : ∀ r ∈ allRegisters, r.offset < 0x4000 := by decide
  have inside := elemOffset_in_window hc hi
  have above := (windows_disjoint b (mem_allBuffers b)).1
  refine List.find?_eq_none.mpr fun r hr => ?_
  have := low r hr
  simp; omega

/-- Two elements share no byte (R73, R76). -/
theorem elements_disjoint {b' : Buffer} {j : Nat} (hj : j < b'.elements c) (hne : b ≠ b' ∨ i ≠ j) :
    b.elemOffset i + 4 ≤ b'.elemOffset j ∨ b'.elemOffset j + 4 ≤ b.elemOffset i := by
  by_cases hb : b = b'
  · have index := hne.resolve_left (not_not_intro hb)
    simp only [Buffer.elemOffset, hb]; omega
  · have inside := elemOffset_in_window hc hi
    have inside' := elemOffset_in_window hc hj
    have windows := (windows_disjoint b (mem_allBuffers b)).2.2 b' (mem_allBuffers b') hb
    omega

/-- The access at an element's offset finds that element (R76). -/
theorem locate_elemOffset : locate c (b.elemOffset i) = some (b, i) := by
  have covered : b.covers c (b.elemOffset i) = true := by
    rw [covers_iff, Buffer.elemOffset]; omega
  have only : ∀ b', b'.covers c (b.elemOffset i) = true → b' = b := fun b' h => by
    by_contra hne
    have inside' := covers_iff.mp h
    have inside := elemOffset_in_window hc hi
    have fit := elements_fit hc b'
    have windows := (windows_disjoint b (mem_allBuffers b)).2.2 b' (mem_allBuffers b') (Ne.symm hne)
    omega
  have found : allBuffers.find? (Buffer.covers c (b.elemOffset i)) = some b := by
    cases h : allBuffers.find? (Buffer.covers c (b.elemOffset i)) with
    | none => exact absurd covered (List.find?_eq_none.mp h b (mem_allBuffers b))
    | some b' => rw [only b' (List.find?_some h)]
  have index : (b.elemOffset i - b.base) / 4 = i := by simp only [Buffer.elemOffset]; omega
  simp [locate, found, index]

end Element

end Window

/-- What an access finds is an implemented element. -/
theorem lt_elements_of_locate {c : Config} {off : Nat} {b : Buffer} {i : Nat} (h : locate c off = some (b, i)) :
    i < b.elements c := by
  obtain ⟨b', found, rfl, rfl⟩ : ∃ b', allBuffers.find? (Buffer.covers c off) = some b' ∧
      b' = b ∧ (off - b'.base) / 4 = i := by simpa [locate] using h
  have covered := covers_iff.mp (List.find?_some found)
  omega

/-! ### Elements after a write -/

@[simp] theorem elem?_writeElem_same (b : Buffer) (i : Nat) (w : Word) (s : State) :
    (writeElem b i w s).2.elem? b i = some w := by
  simp [State.elem?]

theorem elem?_writeElem_other {c : Config} (hc : c.Legal) {b b' : Buffer} {i j : Nat} (hi : i < b.elements c)
    (hj : j < b'.elements c) (hne : b ≠ b' ∨ i ≠ j) (w : Word) (s : State) :
    (writeElem b' j w s).2.elem? b i = s.elem? b i :=
  Memory.word?_setWord_disjoint s.mem w (elements_disjoint hc hi hj hne)

/-- The pseudocode leaves every element alone that it is not allowed to write. -/
theorem EngineEffect.elem?_outside {A : Buffer → Nat → Prop} {s t : State} (h : EngineEffect A s t)
    (hc : s.cfg.Legal) {b : Buffer} {i : Nat} (hi : i < b.elements s.cfg)
    (hA : ∀ b' j, A b' j → j < b'.elements s.cfg ∧ (b ≠ b' ∨ i ≠ j)) : t.elem? b i = s.elem? b i := by
  refine Memory.word?_congr fun a h1 h2 => h.byte?_outside fun b' j hj => ?_
  have := elements_disjoint hc hi (hA b' j hj).1 (hA b' j hj).2
  omega

/-! ### Reading an element -/

theorem hostRead_elemOffset {s : State} (hc : s.cfg.Legal) {b : Buffer} {i : Nat}
    (hi : i < b.elements s.cfg) :
    hostRead (b.elemOffset i) 4 s = (hostReadElem b i s).2.respond (.readOk (hostReadElem b i s).1) := by
  simp [hostRead, hostReadWindow, accessAllowed_elemOffset hc hi, registerAt_elemOffset hc hi,
    locate_elemOffset hc hi]

theorem hostReadElem_of_written {s : State} {b : Buffer} {i : Nat} {w : Word}
    (hs : s.elemSpecified b i = true) (hw : s.elem? b i = some w) : hostReadElem b i s = (w, s) := by
  simp [hostReadElem, hs, readElem_of_some s hw]

theorem hostReadElem_of_unspecified {s : State} {b : Buffer} {i : Nat}
    (h : s.elemSpecified b i = false ∨ s.elem? b i = none) : hostReadElem b i s = drawWord s := by
  unfold hostReadElem
  split
  · rename_i hs
    exact readElem_of_none s (h.resolve_left (by simp [hs]))
  · rfl

/-- Settles O39: the access finds the element (`hostRead_elemOffset`), whose read has the two cases. -/
theorem elementReads : Obligations.ElementReads := by
  intro s rest b i hc hi
  let u := s.withHost rest
  have read : step { s with host := .read (b.elemOffset i) 4 :: rest } =
      .next ((hostReadElem b i u).2.respond (.readOk (hostReadElem b i u).1)) :=
    congrArg Host.Outcome.next (hostRead_elemOffset (s := u) hc hi)
  refine ⟨fun w hs hw => ?_, fun h => ?_⟩
  · rw [read, hostReadElem_of_written (s := u) hs hw]; rfl
  · rw [read, hostReadElem_of_unspecified (s := u) h]; rfl

/-- Settles O33: the model's write of MEL_FLOOR has no condition, so the step computes to the state written. -/
theorem melFloorTakesAnyPattern : Obligations.MelFloorTakesAnyPattern := fun _ _ _ => rfl

end Sys2Proof.Machine
end

section
/-!
PROOFS for 10_state.md R33, R67: what a command and a host access can do, said once, and from it the
parameters and the sticky flags after a step.
-/
namespace Sys2Proof.Machine

/-! ### What a command can do -/

/-- The elements that the commands other than INIT may write, by the sizes of the units (20_memory.md R88). -/
def State.workElements (s : State) : Buffer → Nat → Prop
  | .real, i | .imag, i => i < s.fftSize
  | .dctd, i => i < 2 * s.dctSize
  | .spec, i => i ≤ s.melLength
  | .chan, i => i < s.melChannels + 2
  | .sintab, _ | .bin, _ | .wgt, _ | .dctwr, _ | .dctwi, _ => False

theorem workElements_of_fftElements {s : State} {n : Nat} (h : n ≤ s.fftSize) {b : Buffer} {i : Nat}
    (hi : fftElements n b i) : s.workElements b i := by
  obtain ⟨rfl | rfl, hi⟩ := hi <;> exact hi.trans_le h

section Bodies

variable (s : State)

theorem fftBody_effect (rlen ilen : Nat) : EngineEffect s.workElements s (fftBody rlen ilen s).2 := by
  unfold fftBody
  split_ifs with lengths range
  · exact .refl _ s
  · exact .refl _ s
  · exact (fftCore_effect _ rlen s).mono fun _ _ => workElements_of_fftElements (by omega)

theorem fftrBody_effect (rlen ilen : Nat) : EngineEffect s.workElements s (fftrBody rlen ilen s).2 := by
  unfold fftrBody
  split_ifs with lengths range
  · exact .refl _ s
  · exact .refl _ s
  · obtain ⟨high, low⟩ : rlen ≤ s.fftSize ∧ 0 < rlen := by omega
    dsimp only
    exact (fftrCore_effect _ low s).mono fun _ _ => workElements_of_fftElements high

theorem dctApplyBody_effect (dlen : Nat) : EngineEffect s.workElements s (dctApplyBody dlen s).2 := by
  unfold dctApplyBody
  split_ifs with range
  · exact .refl _ s
  · refine (dctCore_effect s.dctSize s).mono ?_
    rintro _ i ⟨rfl, hi⟩
    exact hi

theorem melMagBody_effect : EngineEffect s.workElements s (melMagBody s).2 := by
  unfold melMagBody
  split_ifs with range
  · exact .refl _ s
  · refine (magnitude_effect s.melLength s).mono ?_
    rintro _ i ⟨rfl, -, hi⟩
    exact hi

theorem melAccBody_effect : EngineEffect s.workElements s (melAccBody s).2 := by
  have bins : EngineEffect s.workElements s (readBins s.melLength s).2 :=
    (readBins_effect s.melLength s).mono fun _ _ => False.elim
  unfold melAccBody
  simp only
  split_ifs with range table
  · exact .refl _ s
  · exact bins
  · have legal : ∀ f ∈ (readBins s.melLength s).1, f ≤ s.melChannels := by simpa using table
    refine bins.trans _ _ _ ((melCore_effect legal _).mono ?_)
    rintro _ i ⟨rfl, hi⟩
    exact hi

end Bodies

/-- The end of a command of unit `u`: Ok, or an error of some kind (30_encoding.md R114 steps 5 and 6). -/
def Ended (u : EngineUnit) (s t : State) : Prop := t = s.returnOk ∨ ∃ k, t = s.raise (some u) k

/-- What the rule of an INIT command makes of the state: nothing, or the construction of its unit in range
(40_fft.md R131, 41_dct.md R171, 42_mel.md R201). -/
inductive InitEffect (s : State) : Instr → State → Prop
  | refused (i : Instr) : InitEffect s i s
  | fft {m : Nat} (pow2 : isPow2 m = true) (low : 4 ≤ m) (high : m ≤ s.cfg.mmax) :
    InitEffect s (.fftInit m)
      { effect (buildSineTable binary32 fftPorts m) s with fftM := BitVec.ofNat 32 m }
  | dct {n : Nat} (low : 1 ≤ n) (high : n ≤ s.cfg.ndmax) :
    InitEffect s (.dctInit n)
      { effect (buildTwiddle binary32 dctPorts n) s with dctN := BitVec.ofNat 32 n }
  | mel {nb len : Nat} (low : 1 ≤ nb) (high : nb ≤ s.cfg.nbmax) (pow2 : isPow2 len = true)
    (fits : len ≤ s.cfg.mmax / 2) :
    InitEffect s (.melInit nb len) { s with melNb := BitVec.ofNat 32 nb, melLen := BitVec.ofNat 32 len }

theorem fftInitBody_effect (m : Nat) (s : State) : InitEffect s (.fftInit m) (fftInitBody m s).2 := by
  unfold fftInitBody
  split_ifs with range
  · exact .refused _
  · simp only [not_or, Bool.not_eq_false, not_lt] at range
    exact .fft range.1 range.2.1 range.2.2

theorem dctInitBody_effect (n : Nat) (s : State) : InitEffect s (.dctInit n) (dctInitBody n s).2 := by
  unfold dctInitBody
  split_ifs with range
  · exact .refused _
  · exact .dct (by omega) (by omega)

theorem melInitBody_effect (nb len : Nat) (s : State) :
    InitEffect s (.melInit nb len) (melInitBody nb len s).2 := by
  unfold melInitBody
  split_ifs with channels length
  · exact .refused _
  · exact .refused _
  · simp only [not_or, Bool.not_eq_false, not_lt] at channels length
    exact .mel channels.1 channels.2 length.1 length.2

theorem runCommand_ended (u : EngineUnit) {body : CommandBody} {A : Buffer → Nat → Prop} {s : State}
    (h : EngineEffect A s (body s).2) : ∃ r, EngineEffect A s r ∧ Ended u r (runCommand u body s) := by
  obtain ⟨-, e⟩ | ⟨-, k, -, e⟩ | ⟨-, -, e⟩ := runCommand_cases u body s
  · exact ⟨s, .refl _ s, .inr ⟨_, e⟩⟩
  · exact ⟨_, h, .inr ⟨k, e⟩⟩
  · exact ⟨_, h, .inl e⟩

theorem runInit_ended (u : EngineUnit) (body : CommandBody) (s : State) :
    Ended u (body (s.discard u)).2 (runInit u body s) := by
  obtain ⟨k, -, e⟩ | ⟨-, e⟩ := runInit_cases u body s
  · exact .inr ⟨k, e⟩
  · exact .inl e

/-- The cases of a command: SYS.RESET, a command of a unit other than INIT, an INIT command. -/
theorem exec_cases {i : Instr} {s t : State} (h : exec i s = .next t) :
    (i = .sysReset ∧ t = s.resetRegisters.returnOk) ∨
    (∃ u, commandUnit i = some u ∧ ∃ r, EngineEffect s.workElements s r ∧ Ended u r t) ∨
    (∃ u, initUnit i = some u ∧ ∃ r, InitEffect (s.discard u) i r ∧ Ended u r t) := by
  cases i <;> obtain rfl := Host.Outcome.next.inj h
  case sysReset => exact .inl ⟨rfl, rfl⟩
  case fftInit m => exact .inr (.inr ⟨.fft, rfl, _, fftInitBody_effect m _, runInit_ended _ _ s⟩)
  case fft rlen ilen => exact .inr (.inl ⟨.fft, rfl, runCommand_ended _ (fftBody_effect s rlen ilen)⟩)
  case fftr rlen ilen => exact .inr (.inl ⟨.fft, rfl, runCommand_ended _ (fftrBody_effect s rlen ilen)⟩)
  case dctInit n => exact .inr (.inr ⟨.dct, rfl, _, dctInitBody_effect n _, runInit_ended _ _ s⟩)
  case dctApply dlen => exact .inr (.inl ⟨.dct, rfl, runCommand_ended _ (dctApplyBody_effect s dlen)⟩)
  case melInit nb len => exact .inr (.inr ⟨.mel, rfl, _, melInitBody_effect nb len _, runInit_ended _ _ s⟩)
  case melMag => exact .inr (.inl ⟨.mel, rfl, runCommand_ended _ (melMagBody_effect s)⟩)
  case melAcc => exact .inr (.inl ⟨.mel, rfl, runCommand_ended _ (melAccBody_effect s)⟩)

/-! ### What a host access can do -/

/-- A host read changes the response and at most the count of free values. -/
theorem hostRead_cases (off size : Nat) (s : State) :
    ∃ d r, hostRead off size s = ({ s with draws := d }).respond r := by
  have refused : ∃ d r, busErrorAt s = ({ s with draws := d }).respond r := ⟨s.draws, .busError, rfl⟩
  unfold hostRead
  split_ifs
  · split
    · unfold hostReadRegister
      split
      · exact ⟨s.draws, _, rfl⟩
      · exact refused
    · unfold hostReadWindow
      split
      · rename_i b i _
        simp only [hostReadElem]
        split_ifs
        · obtain e | e := readElem_cases s b i <;> rw [e]
          · exact ⟨s.draws, _, rfl⟩
          · exact ⟨s.draws + 1, _, rfl⟩
        · exact ⟨s.draws + 1, _, rfl⟩
      · exact refused
  · exact refused

/-- A host write to another offset than CMD is refused, sets MEL_FLOOR, or writes one element of a writable
buffer. -/
theorem hostWrite_cases (off size : Nat) (v : Word) (s : State) :
    hostWrite off size v s = s.respond .busError ∨
    hostWrite off size v s = ({ s with melFloor := v }).respond .writeOk ∨
    ∃ b i, b.hostWritable = true ∧ i < b.elements s.cfg ∧
      hostWrite off size v s = (writeElem b i v s).2.respond .writeOk := by
  unfold hostWrite
  split_ifs
  · split
    · rename_i r _
      cases r with
      | melFloor => exact .inr (.inl rfl)
      | id | cmd | result | status | fftM | dctN | melNb | melLen | cap0 | cap1 => exact .inl rfl
    · unfold hostWriteWindow
      split
      · rename_i b i found
        split_ifs with writable
        · exact .inr (.inr ⟨b, i, writable, lt_elements_of_locate found, rfl⟩)
        · exact .inl rfl
      · exact .inl rfl
  · exact .inl rfl

/-! ### The parameters -/

theorem Ended.cfg {u : EngineUnit} {s t : State} (h : Ended u s t) : t.cfg = s.cfg := by
  obtain rfl | ⟨k, rfl⟩ := h <;> simp

/-- The registers that the rule of an INIT command never touches. -/
theorem InitEffect.kept {i : Instr} {s t : State} (h : InitEffect s i t) :
    t.cfg = s.cfg ∧ t.status = s.status := by
  cases h with
  | refused => exact ⟨rfl, rfl⟩
  | @fft m =>
    obtain ⟨cfg, -, status, -⟩ := (buildSineTable_effect m s).registers
    exact ⟨cfg, status⟩
  | @dct n low =>
    obtain ⟨cfg, -, status, -⟩ := (buildTwiddle_effect low s).registers
    exact ⟨cfg, status⟩
  | mel => exact ⟨rfl, rfl⟩

theorem exec_cfg {i : Instr} {s t : State} (h : exec i s = .next t) : t.cfg = s.cfg := by
  obtain ⟨-, rfl⟩ | ⟨u, -, r, written, ended⟩ | ⟨u, -, r, built, ended⟩ := exec_cases h
  · rfl
  · rw [ended.cfg, written.registers.1]
  · simp [ended.cfg, built.kept.1]

/-- Settles O43, by the cases of the step. -/
theorem parametersNeverChange : Obligations.ParametersNeverChange := by
  intro s t h
  obtain ⟨-, rfl⟩ | ⟨off, size, rest, -, rfl⟩ | ⟨off, size, v, rest, -, -, rfl⟩ |
    ⟨-, -, -, rest, i, -, -, -, run⟩ | ⟨-, -, -, rest, -, -, -, -, rfl⟩ | ⟨rest, -, rfl⟩ := step_cases h
  · rfl
  · obtain ⟨d, r, e⟩ := hostRead_cases off size (s.withHost rest)
    rw [e]; rfl
  · obtain e | e | ⟨b, i, -, -, e⟩ := hostWrite_cases off size v (s.withHost rest) <;> rw [e] <;> rfl
  · rw [exec_cfg run]; rfl
  · rfl
  · rfl

/-! ### The sticky flags -/

/-- `raise` writes RESULT and sets one of the four bits of STATUS, or none (60_exceptions.md R247). -/
theorem raise_eq (u : Option EngineUnit) (k : ErrorKind) (s : State) :
    ∃ c : Word, c.toNat < 16 ∧ s.raise u k = { s with result := k.code, status := s.status ||| c } := by
  cases k with
  | illegalCommand => exact ⟨illBit, by decide, by cases u <;> rfl⟩
  | badState => exact ⟨0#32, by decide, by rw [BitVec.or_zero]; cases u <;> rfl⟩
  | dataSizeMismatch | invalidSize | badTable =>
    cases u with
    | none => exact ⟨0#32, by decide, by rw [BitVec.or_zero]; rfl⟩
    | some u => exact ⟨u.badBit, by cases u <;> decide, rfl⟩

/-- Setting bits clears no flag. -/
theorem flag_or {x b : Word} (c : Word) (h : x &&& b ≠ 0#32) : (x ||| c) &&& b ≠ 0#32 := by
  rw [BitVec.and_or_distrib_right, Ne, BitVec.or_eq_zero_iff]
  exact fun zero => h zero.1

theorem flag_raise {s : State} {b : Word} (h : s.status &&& b ≠ 0#32) (u : Option EngineUnit)
    (k : ErrorKind) : (s.raise u k).status &&& b ≠ 0#32 := by
  obtain ⟨c, -, e⟩ := raise_eq u k s
  exact e ▸ flag_or c h

theorem Ended.flag {u : EngineUnit} {s t : State} (ended : Ended u s t) {b : Word}
    (h : s.status &&& b ≠ 0#32) : t.status &&& b ≠ 0#32 := by
  obtain rfl | ⟨k, rfl⟩ := ended
  · exact h
  · exact flag_raise h _ k

/-- Discarding a construction clears no flag but its unit's. -/
theorem flag_discard {u : EngineUnit} {b : Word} (other : u.badBit &&& b = 0#32) (s : State) :
    (s.discard u).status &&& b = s.status &&& b := by
  have kept : ~~~u.badBit &&& b = b := by
    ext j hj
    have disjoint := congrArg (·[j]) other
    simp only [BitVec.getElem_and, BitVec.getElem_not, BitVec.getElem_zero] at disjoint ⊢
    revert disjoint
    cases u.badBit[j] <;> simp
  simp [BitVec.and_assoc, kept]

/-- A command that clears a flag is SYS.RESET or the INIT command of the flag's unit. -/
theorem exec_flag {i : Instr} {s t : State} (run : exec i s = .next t) {b : Word} (h : s.status &&& b ≠ 0#32)
    (cleared : t.status &&& b = 0#32) :
    i = .sysReset ∨ ∃ u, initUnit i = some u ∧ u.badBit &&& b ≠ 0#32 := by
  obtain ⟨reset, -⟩ | ⟨u, -, r, written, ended⟩ | ⟨u, unit, r, built, ended⟩ := exec_cases run
  · exact .inl reset
  · obtain ⟨-, -, status, -⟩ := written.registers
    exact absurd cleared (ended.flag (by rwa [status]))
  · refine .inr ⟨u, unit, fun other => ended.flag ?_ cleared⟩
    rwa [built.kept.2, flag_discard other]

/-- A step that clears a flag is a hardware reset, SYS.RESET or the INIT command of the flag's unit. -/
theorem step_flag {s t : State} (h : step s = .next t) {b : Word} (set : s.status &&& b ≠ 0#32)
    (cleared : t.status &&& b = 0#32) :
    nextIsReset s ∨ nextCommand s = some .sysReset ∨
      ∃ i u, nextCommand s = some i ∧ initUnit i = some u ∧ u.badBit &&& b ≠ 0#32 := by
  obtain ⟨-, rfl⟩ | ⟨off, size, rest, -, rfl⟩ | ⟨off, size, v, rest, -, -, rfl⟩ |
    ⟨off, size, w, rest, i, event, access, word, run⟩ | ⟨-, -, -, rest, -, -, -, -, rfl⟩ |
    ⟨rest, event, -⟩ := step_cases h
  · exact absurd cleared set
  · obtain ⟨d, r, e⟩ := hostRead_cases off size (s.withHost rest)
    rw [e] at cleared
    exact absurd cleared set
  · obtain e | e | ⟨_, _, -, -, e⟩ := hostWrite_cases off size v (s.withHost rest) <;>
      · rw [e] at cleared
        exact absurd cleared set
  · have next : nextCommand s = some i := by simp [nextCommand, event, access, word, Except.toOption]
    obtain reset | ⟨u, unit, bit⟩ := exec_flag run set cleared
    · exact .inr (.inl (reset ▸ next))
    · exact .inr (.inr ⟨i, u, next, unit, bit⟩)
  · exact absurd cleared (flag_raise (s := (s.withHost rest).respond .writeOk) set none _)
  · exact .inl (by simp [nextIsReset, event])

theorem isBad_iff {s : State} {u : EngineUnit} : s.isBad u = true ↔ s.status &&& u.badBit ≠ 0#32 := by
  simp [State.isBad]

theorem isIll_iff {s : State} : s.isIll = true ↔ s.status &&& illBit ≠ 0#32 := by simp [State.isIll]

/-- Settles O45: the four flags are different bits, so `step_flag` names the unit. -/
theorem stickyFlagsClearedOnlyAsStated : Obligations.StickyFlagsClearedOnlyAsStated := by
  have own : ∀ u v : EngineUnit, u.badBit &&& v.badBit ≠ 0#32 → u = v := by
    intro u v
    cases u <;> cases v <;> decide
  have ill : ∀ u : EngineUnit, u.badBit &&& illBit = 0#32 := fun u => by cases u <;> rfl
  intro s t h
  refine ⟨fun u set cleared => ?_, fun set cleared => ?_⟩
  · have zero : t.status &&& u.badBit = 0#32 := by simpa [State.isBad] using cleared
    obtain reset | reset | ⟨i, v, next, unit, bit⟩ := step_flag h (isBad_iff.mp set) zero
    · exact .inl reset
    · exact .inr (.inl reset)
    · exact .inr (.inr ⟨i, next, own v u bit ▸ unit⟩)
  · have zero : t.status &&& illBit = 0#32 := by simpa [State.isIll] using cleared
    obtain reset | reset | ⟨-, v, -, -, bit⟩ := step_flag h (isIll_iff.mp set) zero
    · exact .inl reset
    · exact .inr reset
    · exact absurd (ill v) bit

end Sys2Proof.Machine
end

section
/-!
PROOFS for 10_state.md R43 to R48, R55, R62 and 20_memory.md R72, R73: every step keeps the invariant. The
elements written are implemented ones; the tables change only where an INIT command builds them.
-/
namespace Sys2Proof.Machine

/-! ### Legal memories -/

theorem Memory.mem_setWord {m : Memory} {off : Nat} {w : Word} {c : Host.Cell} (h : c ∈ m.setWord off w) :
    (off ≤ c.1 ∧ c.1 < off + 4) ∨ c ∈ m := by
  unfold Memory.setWord at h
  rcases Memory.mem_setByte h with h | h
  · omega
  rcases Memory.mem_setByte h with h | h
  · omega
  rcases Memory.mem_setByte h with h | h
  · omega
  exact (Memory.mem_setByte h).imp_left (by omega)

theorem Memory.isSome_word? (m : Memory) (off : Nat) : (m.word? off).isSome = true ↔
    ∀ a, off ≤ a → a < off + 4 → (m.byte? a).isSome = true := by
  refine ⟨fun h a h1 h2 => ?_, fun h => ?_⟩
  · unfold Memory.word? at h
    split at h
    · obtain rfl | rfl | rfl | rfl : a = off ∨ a = off + 1 ∨ a = off + 2 ∨ a = off + 3 := by omega
      all_goals simp_all
    · cases h
  · obtain ⟨b0, h0⟩ := Option.isSome_iff_exists.mp (h off (by omega) (by omega))
    obtain ⟨b1, h1⟩ := Option.isSome_iff_exists.mp (h (off + 1) (by omega) (by omega))
    obtain ⟨b2, h2⟩ := Option.isSome_iff_exists.mp (h (off + 2) (by omega) (by omega))
    obtain ⟨b3, h3⟩ := Option.isSome_iff_exists.mp (h (off + 3) (by omega) (by omega))
    simp [Memory.word?, h0, h1, h2, h3]

/-- A word that has been written stays written. -/
theorem Memory.isSome_word?_setWord {m : Memory} {off : Nat} (h : (m.word? off).isSome = true) (off' : Nat)
    (w : Word) : ((m.setWord off' w).word? off).isSome = true := by
  rw [Memory.isSome_word?] at h ⊢
  intro a h1 h2
  rw [Memory.byte?_setWord]
  split_ifs
  exacts [rfl, rfl, rfl, rfl, h a h1 h2]

/-- Writing an implemented element keeps a memory legal (20_memory.md R72, R73). -/
theorem MemoryLegal.setWord {s : State} (h : s.MemoryLegal) {b : Buffer} {i : Nat} (hi : i < b.elements s.cfg)
    (w : Word) : ({ s with mem := s.mem.setWord (b.elemOffset i) w } : State).MemoryLegal := by
  obtain ⟨wf, implemented, whole⟩ := h
  refine ⟨Memory.wf_setWord wf _ _, fun cell hcell => ?_, fun cell hcell => ?_⟩
  · obtain written | old := Memory.mem_setWord hcell
    · refine ⟨b, mem_allBuffers b, ?_⟩
      simp only [Buffer.elemOffset] at written ⊢
      omega
    · exact implemented cell old
  · obtain written | old := Memory.mem_setWord hcell
    · have word : cell.1 / 4 * 4 = b.elemOffset i := by have := elemOffset_aligned b i; omega
      simp [word]
    · exact Memory.isSome_word?_setWord (whole cell old) _ w

section Effect

variable {A : Buffer → Nat → Prop} {s t : State} (h : EngineEffect A s t)
include h

/-- The pseudocode changes the memory and the count of free values. -/
theorem EngineEffect.frame : t = { s with mem := t.mem, draws := t.draws } := by
  obtain ⟨ws, d, -, rfl⟩ := h
  rfl

theorem EngineEffect.memoryLegal (legal : s.MemoryLegal) (hA : ∀ b i, A b i → i < b.elements s.cfg) :
    ({ s with mem := t.mem } : State).MemoryLegal :=
  h.mem_induction (p := fun m => ({ s with mem := m } : State).MemoryLegal)
    (fun _ b i w hi hm => MemoryLegal.setWord hm (hA b i hi) w) legal

end Effect

/-! ### The tables that INIT builds -/

/-- What each round of a loop establishes and the later rounds keep holds after the loop. -/
theorem loop_establishes {σ : Type} {p : Nat → σ → Prop} {f : Nat → StateM σ Unit} {a k : Nat}
    (own : ∀ i s, i < a + k → p i (f i s).2) (later : ∀ i j s, i < j → j < a + k → p i s → p i (f j s).2)
    (s : σ) {i : Nat} (h1 : a ≤ i) (h2 : i < a + k) : p i (loop a k f s).2 := by
  induction k generalizing a s with
  | zero => omega
  | succ k ih =>
    show p i (loop (a + 1) k f (f a s).2).2
    obtain rfl | after := h1.eq_or_lt
    · exact keeps_loop (R := fun s t => p a s → p a t) (fun _ => id) (fun _ _ _ h h' => h' ∘ h)
        (fun j _ _ s => later a j s (by omega) (by omega)) _ (own a s h2)
    · exact ih (fun i s _ => own i s (by omega)) (fun i j s _ _ => later i j s (by omega) (by omega)) _ after
        (by omega)

/-- SINTAB after FFT.INIT m (40_fft.md R131, R132). -/
theorem buildSineTable_elem {c : Config} (hc : c.Legal) {m i : Nat} (hm : m ≤ c.mmax)
    (hi : i < m - m / 4 + 1) (s : State) : (effect (buildSineTable binary32 fftPorts m) s).elem? .sintab i =
      some (fSinq i m) := by
  have inside : ∀ j, j < m - m / 4 + 1 → j < Buffer.elements c .sintab := fun j hj => by
    simp only [Buffer.elements]; omega
  exact loop_establishes (k := m - m / 4 + 1) (p := fun j s => s.elem? .sintab j = some (fSinq j m))
    (fun j s _ => elem?_writeElem_same .sintab j _ s)
    (fun j k s hjk hk h => (elem?_writeElem_other hc (inside j (by omega)) (inside k (by omega))
      (.inr hjk.ne) _ s).trans h)
    s (Nat.zero_le i) (by omega)

/-- Entry k of both twiddle tables. -/
def State.TwiddleAt (s : State) (k : Nat) (t : Word × Word) : Prop :=
  s.elem? .dctwr k = some t.1 ∧ s.elem? .dctwi k = some t.2

/-- The write of entry k of both twiddle tables. -/
def writeTwiddle (k : Nat) (t : Word × Word) (s : State) : State :=
  (writeElem .dctwi k t.2 (writeElem .dctwr k t.1 s).2).2

section Kernel

variable {σ F : Type} (N : Numerics F)

/-- The entry of 41_dct.md R172 before entry 0 is scaled. -/
def plainTwiddle (n k : Nat) : F × F :=
  (N.div (N.cosq k (4 * n)) (N.sqrt (N.ofNat (2 * n))),
    N.div (N.neg (N.sinq k (4 * n))) (N.sqrt (N.ofNat (2 * n))))

/-- The scaling of entry 0 of one table (R172). -/
def scaleEntry (B : Port σ F) : StateM σ Unit := do
  B.wr 0 (N.mul (← B.rd 0) N.invSqrt2)

/-- The loop of R172. -/
def plainLoop (P : DctPorts σ F) (n : Nat) : StateM σ Unit :=
  loop 0 n fun k => do
    P.wr.wr k (plainTwiddle N n k).1
    P.wi.wr k (plainTwiddle N n k).2

/-- The scaling of both entries 0. -/
def scaleEntries (P : DctPorts σ F) : StateM σ Unit := do
  scaleEntry N P.wr
  scaleEntry N P.wi

theorem buildTwiddle_eq (P : DctPorts σ F) (n : Nat) (s : σ) :
    effect (buildTwiddle N P n) s = effect (scaleEntries N P) (effect (plainLoop N P n) s) := rfl

theorem twiddle_zero (n : Nat) : (Reference.twiddleRe N n 0, Reference.twiddleIm N n 0) =
    (N.mul (plainTwiddle N n 0).1 N.invSqrt2, N.mul (plainTwiddle N n 0).2 N.invSqrt2) := rfl

theorem twiddle_of_ne_zero (n : Nat) {k : Nat} (h : k ≠ 0) :
    (Reference.twiddleRe N n k, Reference.twiddleIm N n k) = plainTwiddle N n k := by
  simp only [Reference.twiddleRe, Reference.twiddleIm, if_neg h, plainTwiddle]

end Kernel

theorem scaleEntry_of_some {N : Numerics Word} {b : Buffer} {s : State} {x : Word} (h : s.elem? b 0 = some x) :
    scaleEntry N (elemPort b) s = writeElem b 0 (N.mul x N.invSqrt2) s := by
  show writeElem b 0 (N.mul (readElem b 0 s).1 N.invSqrt2) (readElem b 0 s).2 = _
  rw [readElem_of_some s h]

section Twiddle

variable {c : Config} (hc : c.Legal)
include hc

theorem twiddleAt_writeTwiddle_same {k : Nat} (hk : k < c.ndmax) (t : Word × Word) (s : State) :
    (writeTwiddle k t s).TwiddleAt k t :=
  ⟨(elem?_writeElem_other hc hk hk (.inl (by decide)) _ _).trans (elem?_writeElem_same _ _ _ _),
    elem?_writeElem_same _ _ _ _⟩

theorem twiddleAt_writeTwiddle_other {j k : Nat} (hj : j < c.ndmax) (hk : k < c.ndmax) (hne : j ≠ k)
    {t : Word × Word} {s : State} (h : s.TwiddleAt j t) (u : Word × Word) :
    (writeTwiddle k u s).TwiddleAt j t := by
  have kept : ∀ b : Buffer, b.elements c = c.ndmax → (writeTwiddle k u s).elem? b j = s.elem? b j :=
    fun b hb => (elem?_writeElem_other hc (hb ▸ hj) hk (.inr hne) _ _).trans
      (elem?_writeElem_other hc (hb ▸ hj) hk (.inr hne) _ _)
  exact ⟨(kept .dctwr rfl).trans h.1, (kept .dctwi rfl).trans h.2⟩

theorem plainLoop_twiddleAt (N : Numerics Word) {n k : Nat} (hn : n ≤ c.ndmax) (hk : k < n) (s : State) :
    (effect (plainLoop N dctPorts n) s).TwiddleAt k (plainTwiddle N n k) :=
  loop_establishes (k := n) (p := fun k s => s.TwiddleAt k (plainTwiddle N n k))
    (fun k s h => twiddleAt_writeTwiddle_same hc (by omega) _ s)
    (fun j k s hjk h hs => twiddleAt_writeTwiddle_other hc (by omega) (by omega) hjk.ne hs _)
    s (Nat.zero_le k) (by omega)

theorem scaleEntries_eq (N : Numerics Word) (hn : 0 < c.ndmax) {s : State} {t : Word × Word}
    (h : s.TwiddleAt 0 t) : effect (scaleEntries N dctPorts) s =
      writeTwiddle 0 (N.mul t.1 N.invSqrt2, N.mul t.2 N.invSqrt2) s := by
  obtain ⟨re, im⟩ := h
  have im' : ∀ w, (writeElem .dctwr 0 w s).2.elem? .dctwi 0 = some t.2 := fun w =>
    (elem?_writeElem_other hc hn hn (.inl (by decide)) w s).trans im
  show (scaleEntry N (elemPort .dctwi) (scaleEntry N (elemPort .dctwr) s).2).2 = _
  rw [scaleEntry_of_some re, scaleEntry_of_some (im' _)]
  rfl

/-- DCTWR and DCTWI after DCT.INIT n (41_dct.md R172). -/
theorem buildTwiddle_twiddleAt (N : Numerics Word) {n k : Nat} (hn : n ≤ c.ndmax) (hk : k < n) (s : State) :
    (effect (buildTwiddle N dctPorts n) s).TwiddleAt k
      (Reference.twiddleRe N n k, Reference.twiddleIm N n k) := by
  have positive : 0 < n := by omega
  rw [buildTwiddle_eq, scaleEntries_eq hc N (by omega) (plainLoop_twiddleAt hc N hn positive s)]
  by_cases h0 : k = 0
  · rw [h0, twiddle_zero]
    exact twiddleAt_writeTwiddle_same hc (by omega) _ _
  · rw [twiddle_of_ne_zero N n h0]
    exact twiddleAt_writeTwiddle_other hc (by omega) (by omega) h0 (plainLoop_twiddleAt hc N hn hk s) _

end Twiddle

/-! ### The parts of a step keep the invariant -/

theorem State.Inv.ending {s : State} (h : s.Inv) {r x : Word} (hr : r.toNat ≤ 5) (hx : x.toNat < 16) :
    ({ s with result := r, status := x } : State).Inv := by
  obtain ⟨hc, ⟨-, -, sizes⟩, memory, tables⟩ := h
  exact ⟨hc, ⟨hr, hx, sizes⟩, memory, tables⟩

theorem State.Inv.raise {s : State} (h : s.Inv) (u : Option EngineUnit) (k : ErrorKind) :
    (s.raise u k).Inv := by
  obtain ⟨c, hbit, e⟩ := raise_eq u k s
  obtain ⟨-, ⟨-, hstatus, -⟩, -⟩ := id h
  rw [e]
  refine h.ending (by cases k <;> decide) ?_
  rw [BitVec.toNat_or]
  exact Nat.or_lt_two_pow (n := 4) hstatus hbit

theorem Ended.inv {u : EngineUnit} {s t : State} (ended : Ended u s t) (h : s.Inv) : t.Inv := by
  obtain rfl | ⟨k, rfl⟩ := ended
  · obtain ⟨-, ⟨-, hstatus, -⟩, -⟩ := id h
    exact h.ending (r := okCode) (by decide) hstatus
  · exact h.raise _ k

theorem tablesBuilt_of_unconstructed {s : State} (hfft : s.fftSize = 0) (hdct : s.dctSize = 0) :
    s.TablesBuilt :=
  ⟨fun h0 => absurd hfft h0, fun k hk => by omega⟩

theorem State.Inv.discard {s : State} (h : s.Inv) (u : EngineUnit) : (s.discard u).Inv := by
  obtain ⟨hc, ⟨hresult, hstatus, hfft, hdct, hmel⟩, memory, sine, twiddle⟩ := h
  have status : (s.status &&& ~~~u.badBit).toNat < 16 := by
    rw [BitVec.toNat_and]
    exact Nat.and_le_left.trans_lt hstatus
  cases u with
  | fft => exact ⟨hc, ⟨hresult, status, .inl rfl, hdct, hmel⟩, memory, fun h0 => absurd rfl h0, twiddle⟩
  | dct => exact ⟨hc, ⟨hresult, status, hfft, Nat.zero_le _, hmel⟩, memory, sine,
      fun k hk => absurd hk (Nat.not_lt_zero k)⟩
  | mel => exact ⟨hc, ⟨hresult, status, hfft, hdct, .inl ⟨rfl, rfl⟩⟩, memory, sine, twiddle⟩

theorem State.Inv.resetRegisters {s : State} (h : s.Inv) : s.resetRegisters.Inv := by
  obtain ⟨hc, -, memory, -⟩ := h
  exact ⟨hc, ⟨Nat.zero_le 5, Nat.zero_lt_succ 15, .inl rfl, Nat.zero_le _, .inl ⟨rfl, rfl⟩⟩, memory,
    tablesBuilt_of_unconstructed rfl rfl⟩

theorem State.Inv.hardwareReset {s : State} (h : s.Inv) : s.hardwareReset.Inv := by
  obtain ⟨hc, registers, -⟩ := h.resetRegisters
  have memory : s.hardwareReset.MemoryLegal := by simp [State.MemoryLegal, Memory.wf]
  exact ⟨hc, registers, memory, tablesBuilt_of_unconstructed rfl rfl⟩

/-- The sine table of a constructed unit lies in implemented elements. -/
theorem sineEntry_lt {s : State} (h : s.RegistersLegal) (h0 : s.fftSize ≠ 0) {i : Nat}
    (hi : i < s.fftSize - s.fftSize / 4 + 1) : i < Buffer.elements s.cfg .sintab := by
  obtain ⟨-, -, hfft, -⟩ := h
  have := (hfft.resolve_left h0).2.2
  simp only [Buffer.elements]; omega

/-- What the units write lies in implemented elements of buffers that are no tables. -/
theorem workElements_legal {s : State} (h : s.RegistersLegal) {b : Buffer} {i : Nat}
    (hi : s.workElements b i) : b.hostWritable = true ∧ i < b.elements s.cfg := by
  obtain ⟨-, -, hfft, hdct, hmel⟩ := h
  cases b with
  | sintab | bin | wgt | dctwr | dctwi => exact hi.elim
  | real | imag | dctd | spec | chan =>
    refine ⟨rfl, ?_⟩
    simp only [State.workElements, Buffer.elements] at hi ⊢
    omega

section Writes

variable {A : Buffer → Nat → Prop} {s t : State} (h : EngineEffect A s t) (hs : s.Inv)
variable (inside : ∀ b i, A b i → i < b.elements s.cfg)
include h hs inside

/-- Writes to implemented elements outside a table leave its entries alone. -/
theorem EngineEffect.table_kept {b : Buffer} (hb : ∀ i, ¬ A b i) {i : Nat} (hi : i < b.elements s.cfg) :
    t.elem? b i = s.elem? b i :=
  h.elem?_outside hs.1 hi fun b' j hj => ⟨inside b' j hj, .inl fun e => hb j (e ▸ hj)⟩

theorem EngineEffect.sine_kept (hb : ∀ i, ¬ A .sintab i) (h0 : s.fftSize ≠ 0) (i : Nat)
    (hi : i < s.fftSize - s.fftSize / 4 + 1) : t.elem? .sintab i = some (fSinq i s.fftSize) := by
  obtain ⟨-, registers, -, sine, -⟩ := id hs
  exact (h.table_kept hs inside hb (sineEntry_lt registers h0 hi)).trans (sine h0 i hi)

theorem EngineEffect.twiddle_kept (hr : ∀ i, ¬ A .dctwr i) (hi : ∀ i, ¬ A .dctwi i) (k : Nat)
    (hk : k < s.dctSize) : t.TwiddleAt k
      (Reference.twiddleRe binary32 s.dctSize k, Reference.twiddleIm binary32 s.dctSize k) := by
  obtain ⟨-, ⟨-, -, -, hdct, -⟩, -, -, twiddle⟩ := id hs
  have small : k < s.cfg.ndmax := hk.trans_le hdct
  exact ⟨(h.table_kept hs inside hr small).trans (twiddle k hk).1,
    (h.table_kept hs inside hi small).trans (twiddle k hk).2⟩

omit inside in
/-- Writes to implemented elements of buffers that are no tables keep the invariant. -/
theorem EngineEffect.inv (hA : ∀ b i, A b i → b.hostWritable = true ∧ i < b.elements s.cfg) : t.Inv := by
  have inside : ∀ b i, A b i → i < b.elements s.cfg := fun b i hi => (hA b i hi).2
  have noTable : ∀ {b : Buffer}, b.hostWritable = false → ∀ i, ¬ A b i := fun hb i hi => by
    simp [(hA _ i hi).1] at hb
  obtain ⟨hc, registers, memory, -⟩ := id hs
  have legal := h.memoryLegal memory inside
  have sine := h.sine_kept hs inside (noTable rfl)
  have twiddle := h.twiddle_kept hs inside (noTable rfl) (noTable rfl)
  rw [h.frame]
  exact ⟨hc, registers, legal, sine, twiddle⟩

end Writes

/-- A size in the range of a legal parameter fits its register. -/
theorem toNat_ofNat_size {n : Nat} (h : n ≤ 4096) : (BitVec.ofNat 32 n).toNat = n := by
  rw [BitVec.toNat_ofNat]
  omega

section Init

variable {s : State} (hs : s.Inv)
include hs

/-- FFT.INIT in range keeps the invariant: SINTAB is built, the twiddle tables are kept. -/
theorem sineTable_inv {m : Nat} (pow2 : isPow2 m = true) (low : 4 ≤ m) (high : m ≤ s.cfg.mmax) :
    ({ effect (buildSineTable binary32 fftPorts m) s with fftM := BitVec.ofNat 32 m } : State).Inv := by
  obtain ⟨hc, ⟨hresult, hstatus, -, hdct, hmel⟩, memory, -⟩ := id hs
  have size : (BitVec.ofNat 32 m).toNat = m := toNat_ofNat_size (high.trans (Config.Legal.mmax_le hc))
  have written := buildSineTable_effect m s
  have inside : ∀ (b : Buffer) i, b = .sintab ∧ i < m - m / 4 + 1 → i < b.elements s.cfg := by
    rintro _ i ⟨rfl, hi⟩
    simp only [Buffer.elements]; omega
  have legal := written.memoryLegal memory inside
  have sine := fun i (hi : i < m - m / 4 + 1) => buildSineTable_elem hc high hi s
  have twiddle := written.twiddle_kept hs inside (by simp) (by simp)
  rw [written.frame]
  refine ⟨hc, ⟨hresult, hstatus, .inr ?_, hdct, hmel⟩, legal, fun _ => ?_, twiddle⟩
  · simpa only [State.fftSize, size] using ⟨pow2, low, high⟩
  · simp only [State.fftSize, size]
    exact sine

/-- DCT.INIT in range keeps the invariant: the twiddle tables are built, SINTAB is kept. -/
theorem twiddleTables_inv {n : Nat} (low : 1 ≤ n) (high : n ≤ s.cfg.ndmax) :
    ({ effect (buildTwiddle binary32 dctPorts n) s with dctN := BitVec.ofNat 32 n } : State).Inv := by
  obtain ⟨hc, ⟨hresult, hstatus, hfft, -, hmel⟩, memory, -⟩ := id hs
  obtain ⟨-, -, ⟨-, hndmax⟩, -⟩ := id hc
  have size : (BitVec.ofNat 32 n).toNat = n := toNat_ofNat_size (by omega)
  have written := buildTwiddle_effect low s
  have inside : ∀ (b : Buffer) i, (b = .dctwr ∨ b = .dctwi) ∧ i < n → i < b.elements s.cfg := by
    rintro _ i ⟨rfl | rfl, hi⟩ <;> exact hi.trans_le high
  have legal := written.memoryLegal memory inside
  have sine := written.sine_kept hs inside (by simp)
  have twiddle := fun k (hk : k < n) => buildTwiddle_twiddleAt hc binary32 high hk s
  rw [written.frame]
  refine ⟨hc, ⟨hresult, hstatus, hfft, ?_, hmel⟩, legal, sine, ?_⟩
  · simpa only [State.dctSize, size] using high
  · simp only [State.dctSize, size]
    exact twiddle

/-- MEL.INIT in range keeps the invariant: it writes no element. -/
theorem channels_inv {nb len : Nat} (low : 1 ≤ nb) (high : nb ≤ s.cfg.nbmax) (pow2 : isPow2 len = true)
    (fits : len ≤ s.cfg.mmax / 2) :
    ({ s with melNb := BitVec.ofNat 32 nb, melLen := BitVec.ofNat 32 len } : State).Inv := by
  obtain ⟨hc, ⟨hresult, hstatus, hfft, hdct, -⟩, memory, tables⟩ := id hs
  have hmmax := Config.Legal.mmax_le hc
  obtain ⟨-, ⟨-, hnbmax⟩, -⟩ := id hc
  have size : (BitVec.ofNat 32 nb).toNat = nb := toNat_ofNat_size (by omega)
  have size' : (BitVec.ofNat 32 len).toNat = len := toNat_ofNat_size (by omega)
  refine ⟨hc, ⟨hresult, hstatus, hfft, hdct, .inr ?_⟩, memory, tables⟩
  simpa only [State.melChannels, State.melLength, size, size'] using ⟨low, high, pow2, fits⟩

theorem InitEffect.inv {i : Instr} {t : State} (h : InitEffect s i t) : t.Inv := by
  cases h with
  | refused => exact hs
  | fft pow2 low high => exact sineTable_inv hs pow2 low high
  | dct low high => exact twiddleTables_inv hs low high
  | mel low high pow2 fits => exact channels_inv hs low high pow2 fits

end Init

/-! ### Every step keeps the invariant -/

theorem exec_inv {i : Instr} {s t : State} (run : exec i s = .next t) (h : s.Inv) : t.Inv := by
  obtain ⟨-, rfl⟩ | ⟨u, -, r, written, ended⟩ | ⟨u, -, r, built, ended⟩ := exec_cases run
  · exact h.resetRegisters
  · exact ended.inv (written.inv h fun _ _ => workElements_legal h.2.1)
  · exact ended.inv (InitEffect.inv (h.discard u) built)

theorem hostWrite_inv (off size : Nat) (v : Word) {s : State} (h : s.Inv) : (hostWrite off size v s).Inv := by
  obtain e | e | ⟨b, i, writable, hi, e⟩ := hostWrite_cases off size v s <;> rw [e]
  · exact h
  · exact h
  · have written := writeElem_effect (A := fun b' j => b' = b ∧ j = i) ⟨rfl, rfl⟩ v s
    have inv := written.inv h (by rintro _ _ ⟨rfl, rfl⟩; exact ⟨writable, hi⟩)
    exact inv

/-- Settles O42: the cases of the step, each by the lemma that its part keeps the invariant. -/
theorem invariantKeptByStep : Obligations.InvariantKeptByStep := by
  intro s t h run
  obtain ⟨-, rfl⟩ | ⟨off, size, rest, -, rfl⟩ | ⟨off, size, v, rest, -, -, rfl⟩ |
    ⟨-, -, -, rest, i, -, -, -, run⟩ | ⟨-, -, -, rest, -, -, -, -, rfl⟩ | ⟨rest, -, rfl⟩ := step_cases run
  · exact h
  · obtain ⟨d, r, e⟩ := hostRead_cases off size (s.withHost rest)
    rw [e]
    exact h
  · exact hostWrite_inv off size v (s := s.withHost rest) h
  · exact exec_inv run h
  · exact State.Inv.raise (s := (s.withHost rest).respond .writeOk) h none _
  · exact State.Inv.hardwareReset (s := s.withHost rest) h

end Sys2Proof.Machine
end

section
/-!
PROOFS for 20_memory.md R72 to R80: what a host access finds at an offset, what it is refused, and what the
accesses to registers, elements and CMD do.
-/
namespace Sys2Proof.Machine

/-! ### What lies at an offset -/

theorem covers_of_locate {c : Config} {off : Nat} {b : Buffer} {i : Nat} (h : locate c off = some (b, i)) :
    b.covers c off = true ∧ (off - b.base) / 4 = i := by
  obtain ⟨b', found, rfl, index⟩ : ∃ b', allBuffers.find? (Buffer.covers c off) = some b' ∧
      b' = b ∧ (off - b'.base) / 4 = i := by simpa [locate] using h
  exact ⟨List.find?_some found, index⟩

/-- A word-aligned access finds an element at that element's own offset only (R76). -/
theorem eq_elemOffset_of_locate {c : Config} {off : Nat} {b : Buffer} {i : Nat} (aligned : off % 4 = 0)
    (h : locate c off = some (b, i)) : off = b.elemOffset i := by
  obtain ⟨covered, index⟩ := covers_of_locate h
  have low := (covers_iff.mp covered).1
  have := base_aligned b
  simp only [Buffer.elemOffset]; omega

/-- Settles O38: what an aligned access finds lies at its offset, and the access there finds it. -/
theorem elementsLieAtTheirOffsets : Obligations.ElementsLieAtTheirOffsets := by
  intro c hc b i off hi aligned
  constructor
  · exact eq_elemOffset_of_locate aligned
  · rintro rfl
    exact locate_elemOffset hc hi

/-- Whatever an access in a buffer's window finds is an element of that buffer (R73). -/
theorem locate_in_window {c : Config} (hc : c.Legal) {b b' : Buffer} {off i : Nat} (low : b.base ≤ off)
    (high : off < b.base + b.windowSize) (h : locate c off = some (b', i)) : b' = b := by
  have covered := covers_iff.mp (covers_of_locate h).1
  have fit := elements_fit hc b'
  by_contra hne
  have windows := (windows_disjoint b (mem_allBuffers b)).2.2 b' (mem_allBuffers b') (Ne.symm hne)
  omega

theorem mem_allRegisters (r : Register) : r ∈ allRegisters := by cases r <;> decide

theorem registerAt_offset (r : Register) : registerAt r.offset = some r := by cases r <;> rfl

theorem registerAt_eq_none {off : Nat} (h : ∀ r : Register, off ≠ r.offset) : registerAt off = none :=
  List.find?_eq_none.mpr fun r _ => by simpa using (h r).symm

/-- Registers lie below every window (R73). -/
theorem ne_offset_of_base_le {b : Buffer} {off : Nat} (low : b.base ≤ off) (r : Register) : off ≠ r.offset := by
  have below : ∀ r ∈ allRegisters, r.offset < 0x4000 := by decide
  have above := (windows_disjoint b (mem_allBuffers b)).1
  have := below r (mem_allRegisters r)
  omega

/-! ### Refused accesses -/

theorem aligned_of_accessAllowed {off size : Nat} (h : accessAllowed off size = true) :
    size = 4 ∧ off % 4 = 0 := by
  obtain ⟨⟨hsize, aligned⟩, -⟩ : (size = 4 ∧ off % 4 = 0) ∧ off < windowSize := by
    simpa [accessAllowed] using h
  exact ⟨hsize, aligned⟩

theorem accessAllowed_eq_false {off size : Nat} (h : size ≠ 4 ∨ off % 4 ≠ 0) :
    accessAllowed off size = false :=
  Bool.eq_false_iff.mpr fun allowed => by
    have := aligned_of_accessAllowed allowed
    omega

theorem isCommandWrite_eq_false {off size : Nat} (h : size ≠ 4 ∨ off ≠ Register.cmd.offset) :
    isCommandWrite off size = false := by
  simpa [isCommandWrite, Decidable.or_iff_not_imp_left] using h

section Refused

variable {s : State} {off size : Nat} {v : Word}

theorem hostRead_of_not_allowed (h : accessAllowed off size = false) : hostRead off size s = busErrorAt s := by
  simp [hostRead, h]

theorem hostWrite_of_not_allowed (h : accessAllowed off size = false) :
    hostWrite off size v s = busErrorAt s := by
  simp [hostWrite, h]

/-- A read of no register that finds no element is refused, whatever its size (R72, R77). -/
theorem hostRead_of_unimplemented (register : registerAt off = none)
    (element : accessAllowed off size = true → locate s.cfg off = none) :
    hostRead off size s = busErrorAt s := by
  cases allowed : accessAllowed off size with
  | false => exact hostRead_of_not_allowed allowed
  | true => simp [hostRead, hostReadWindow, allowed, register, element allowed]

/-- A write outside the registers is refused unless it finds an element of a writable buffer (R77, R78). -/
theorem hostWrite_of_not_writable (register : registerAt off = none)
    (element : accessAllowed off size = true → ∀ b i, locate s.cfg off = some (b, i) → b.hostWritable = false) :
    hostWrite off size v s = busErrorAt s := by
  cases allowed : accessAllowed off size with
  | false => exact hostWrite_of_not_allowed allowed
  | true =>
    cases found : locate s.cfg off with
    | none => simp [hostWrite, hostWriteWindow, allowed, register, found]
    | some x =>
      have readOnly := element allowed x.1 x.2 found
      simp [hostWrite, hostWriteWindow, allowed, register, found, readOnly]

/-- Every register other than MEL_FLOOR refuses a write that is no command, whatever the size (R72, R78). -/
theorem hostWrite_register_refused {r : Register} (h : r ≠ .melFloor) :
    hostWrite r.offset size v s = busErrorAt s := by
  have refused : hostWriteRegister r v s = busErrorAt s := by
    cases r with
    | melFloor => exact absurd rfl h
    | id | cmd | result | status | fftM | dctN | melNb | melLen | cap0 | cap1 => rfl
  simp [hostWrite, registerAt_offset, refused]

/-- A register that cannot be read refuses the read, whatever the size (R72, R78). -/
theorem hostRead_register_refused {r : Register} (h : s.register? r = none) :
    hostRead r.offset size s = busErrorAt s := by
  simp [hostRead, registerAt_offset, hostReadRegister, h]

end Refused

/-! ### The step of an access -/

section Access

variable (s : State) (rest : List HostEvent) {off size : Nat} {v : Word}

theorem step_read : step { s with host := .read off size :: rest } = .next (hostRead off size (s.withHost rest)) :=
  rfl

theorem step_write (h : isCommandWrite off size = false) :
    step { s with host := .write off size v :: rest } = .next (hostWrite off size v (s.withHost rest)) := by
  show (if isCommandWrite off size then _ else _) = _
  rw [h]; rfl

theorem step_read_refused (h : hostRead off size (s.withHost rest) = busErrorAt (s.withHost rest)) :
    step { s with host := .read off size :: rest } =
      .next { s with host := rest, response := some .busError } :=
  (step_read s rest).trans (congrArg Host.Outcome.next h)

theorem step_write_refused (access : isCommandWrite off size = false)
    (h : hostWrite off size v (s.withHost rest) = busErrorAt (s.withHost rest)) :
    step { s with host := .write off size v :: rest } =
      .next { s with host := rest, response := some .busError } :=
  (step_write s rest access).trans (congrArg Host.Outcome.next h)

end Access

/-- Settles O34: CMD lies at an aligned offset, so no such write is a command. -/
theorem misalignedOrOtherSizeRefused : Obligations.MisalignedOrOtherSizeRefused := by
  intro s rest off size v h
  have refused := accessAllowed_eq_false h
  have access : isCommandWrite off size = false :=
    isCommandWrite_eq_false (h.imp_right fun misaligned e => misaligned (by rw [e]; rfl))
  exact ⟨step_read_refused s rest (hostRead_of_not_allowed refused),
    step_write_refused s rest access (hostWrite_of_not_allowed refused)⟩

/-- Settles O35: an aligned access finds nothing, since it would find an element at its own offset. -/
theorem unimplementedOffsetsRefused : Obligations.UnimplementedOffsetsRefused := by
  intro s rest off size v noRegister noElement
  have register := registerAt_eq_none noRegister
  have nothing : accessAllowed off size = true → ∀ b i, locate s.cfg off ≠ some (b, i) :=
    fun allowed b i found => noElement b i (lt_elements_of_locate found)
      (eq_elemOffset_of_locate (aligned_of_accessAllowed allowed).2 found)
  exact ⟨step_read_refused s rest (hostRead_of_unimplemented register fun allowed =>
      Option.eq_none_iff_forall_ne_some.mpr fun x => nothing allowed x.1 x.2),
    step_write_refused s rest (isCommandWrite_eq_false (.inr (noRegister .cmd)))
      (hostWrite_of_not_writable register fun allowed b i found => absurd found (nothing allowed b i))⟩

/-- Settles O36: in a read-only window only elements of its buffer are found. -/
theorem accessRightsHold : Obligations.AccessRightsHold := by
  intro s rest size v hc
  refine ⟨fun r hr => ?_, fun b hb off low high => ?_, ?_⟩
  · have readOnly : ∀ r ∈ [Register.id, .result, .status, .fftM, .dctN, .melNb, .melLen, .cap0, .cap1],
        r ≠ .melFloor ∧ r.offset ≠ Register.cmd.offset := by decide
    obtain ⟨notFloor, notCmd⟩ := readOnly r hr
    exact step_write_refused s rest (isCommandWrite_eq_false (.inr notCmd))
      (hostWrite_register_refused notFloor)
  · have readOnly : ∀ b ∈ [Buffer.sintab, .dctwr, .dctwi], b.hostWritable = false := by decide
    have noRegister := ne_offset_of_base_le low
    exact step_write_refused s rest (isCommandWrite_eq_false (.inr (noRegister .cmd)))
      (hostWrite_of_not_writable (registerAt_eq_none noRegister) fun _ b' i found =>
        locate_in_window hc low high found ▸ readOnly b hb)
  · exact step_read_refused s rest (hostRead_register_refused rfl)

/-! ### Registers -/

theorem step_read_register (s : State) (rest : List HostEvent) (r : Register) :
    step { s with host := .read r.offset 4 :: rest } = .next (hostReadRegister r (s.withHost rest)) := by
  have allowed : accessAllowed r.offset 4 = true := by cases r <;> rfl
  rw [step_read]
  simp [hostRead, allowed, registerAt_offset]

/-- Settles O32: the read of each register by `step_read_register`. -/
theorem registerReads : Obligations.RegisterReads := fun s rest =>
  have read := step_read_register s rest
  ⟨read .id, read .cmd, read .result, read .status, read .fftM, read .dctN, read .melNb, read .melLen,
    read .melFloor, read .cap0, read .cap1⟩

/-- Settles O40: the cases of a host read. -/
theorem readsHaveNoSideEffect : Obligations.ReadsHaveNoSideEffect := by
  intro s t rest off size event run
  have read : step s = .next (hostRead off size (s.withHost rest)) := by simp only [step, event, perform]
  obtain ⟨d, r, e⟩ := hostRead_cases off size (s.withHost rest)
  rw [e] at read
  injection run.symm.trans read with ht
  rw [ht]; rfl

/-! ### Elements -/

theorem elemSpecified_of_hostWritable {b : Buffer} (h : b.hostWritable = true) (s : State) (i : Nat) :
    s.elemSpecified b i = true := by
  cases b with
  | sintab | dctwr | dctwi => cases h
  | real | imag | spec | bin | wgt | chan | dctd => rfl

/-- The write of one element keeps every byte outside it. -/
theorem writeElem_bytesKept (b : Buffer) (i : Nat) (v : Word) (s : State) :
    BytesKept (Buffer.hasByte b i (i + 1)) s (writeElem b i v s).2 := fun a outside => by
  simp only [Buffer.hasByte, elemOffset_succ] at outside
  exact Memory.byte?_setWord_outside s.mem v outside

theorem hostWrite_elemOffset {s : State} (hc : s.cfg.Legal) {b : Buffer} {i : Nat} (hi : i < b.elements s.cfg)
    (writable : b.hostWritable = true) (v : Word) :
    hostWrite (b.elemOffset i) 4 v s = (writeElem b i v s).2.respond .writeOk := by
  simp [hostWrite, hostWriteWindow, accessAllowed_elemOffset hc hi, registerAt_elemOffset hc hi,
    locate_elemOffset hc hi, writable]

/-- Settles O37: the write is `writeElem`, and the read that follows is that of a written element
(`elementReads`). -/
theorem hostWriteThenRead : Obligations.HostWriteThenRead := by
  intro s rest b i v hc writable hi
  let read := HostEvent.read (b.elemOffset i) 4 :: rest
  let t := (writeElem b i v (s.withHost read)).2.respond .writeOk
  have access : isCommandWrite (b.elemOffset i) 4 = false :=
    isCommandWrite_eq_false (.inr (ne_offset_of_base_le (elemOffset_in_window hc hi).1 .cmd))
  have written : t.elem? b i = some v := elem?_writeElem_same b i v (s.withHost read)
  refine ⟨t, ?_, rfl, writeElem_bytesKept b i v s, ?_⟩
  · rw [step_write s read access, hostWrite_elemOffset (s := s.withHost read) hc hi writable]
  · exact (elementReads t rest b i hc hi).1 v (elemSpecified_of_hostWritable writable t i) written

/-! ### Commands -/

theorem command_of_decode {w : Word} {i : Instr} (h : decode w = .ok i) (s : State) :
    command w s = exec i (s.respond .writeOk) := by
  simp only [command, h]

/-- Settles O5. -/
theorem stepRunsTheDecodedCommand : Obligations.StepRunsTheDecodedCommand := by
  intro s rest w i event word
  have run : step s = command w (s.withHost rest) := by
    simp only [step, event]; rfl
  rw [run, command_of_decode word]

/-- Settles O6: the word placed is a CMD write, after which the host's own events are left. -/
theorem fetchedWordRunsNext : Obligations.FetchedWordRunsNext := by
  intro s w i h
  have word : decode (tableWord 32 w) = .ok i := by
    cases hd : decode (tableWord 32 w) with
    | ok j => simpa [decodeTableWord, hd, Except.toOption] using h
    | error e => simp [decodeTableWord, hd, Except.toOption] at h
  exact stepRunsTheDecodedCommand (s.withFetchWord 32 w) s.host _ i rfl word

end Sys2Proof.Machine
end

section
/-!
PROOFS for 30_encoding.md R101 to R112 and 60_exceptions.md R244: the decoder in terms of the three fields of a word,
the rows of the opcode map in the same terms, the listing lines of commands, and a word that does not decode.
-/
namespace Sys2Proof

open Sys2Proof.Laws (opOf)

/-! ### The operands of a command (R102 to R104) -/

/-- What the A field of a command's word holds: 0 in format Z. -/
def Instr.operandA : Instr → Nat
  | .sysReset | .melMag | .melAcc => 0
  | .fftInit n | .dctInit n | .dctApply n => n
  | .fft a _ | .fftr a _ | .melInit a _ => a

/-- What the B field of a command's word holds: 0 in formats Z and A1. -/
def Instr.operandB : Instr → Nat
  | .sysReset | .melMag | .melAcc | .fftInit _ | .dctInit _ | .dctApply _ => 0
  | .fft _ b | .fftr _ b | .melInit _ b => b

theorem encode_eq_commandWord (i : Instr) : encode i = commandWord (opOf i) i.operandB i.operandA := by
  cases i <;> rfl

theorem wellFormed_iff {i : Instr} : i.WellFormed ↔ i.operandB ≤ maxLength ∧ i.operandA ≤ maxLength := by
  cases i with
  | sysReset | melMag | melAcc => decide
  | fftInit | dctInit | dctApply | fft | fftr | melInit =>
    simp [Instr.WellFormed, Instr.wellFormed, lengthFits, Instr.operandA, Instr.operandB, and_comm]

theorem opOf_lt (i : Instr) : opOf i < 64 := by
  cases i <;> simp [opOf]

theorem toNat_encode {i : Instr} {op : Nat} (hop : opOf i = op) (hb : i.operandB ≤ maxLength)
    (ha : i.operandA ≤ maxLength) : (encode i).toNat = op * 2 ^ 26 + i.operandB * 2 ^ 13 + i.operandA := by
  rw [encode_eq_commandWord, commandWord_toNat (opOf_lt i) hb ha, hop]

theorem toNat_encode_of_operandB_eq_zero {i : Instr} {op : Nat} (hop : opOf i = op) (hb : i.operandB = 0)
    (ha : i.operandA ≤ maxLength) : (encode i).toNat = op * 2 ^ 26 + i.operandA := by
  rw [toNat_encode hop (hb ▸ Nat.zero_le _) ha, hb, Nat.zero_mul, Nat.add_zero]

/-! ### The fields of a word -/

theorem fieldB_le (w : Word) : fieldB w ≤ maxLength := by
  rw [fieldB_toNat, maxLength]; omega

theorem fieldA_le (w : Word) : fieldA w ≤ maxLength := by
  rw [fieldA_toNat, maxLength]; omega

theorem commandWord_fields (w : Word) : commandWord (fieldOp w) (fieldB w) (fieldA w) = w := by
  apply BitVec.eq_of_toNat_eq
  have := w.isLt
  rw [commandWord, BitVec.toNat_ofNat, fieldOp_toNat, fieldB_toNat, fieldA_toNat]
  omega

theorem fieldOp_lt (w : Word) : fieldOp w < 64 := by
  have := w.isLt
  rw [fieldOp_toNat]; omega

theorem eq_commandWord_iff {w : Word} {op b a : Nat} (ho : op < 64) (hb : b ≤ maxLength) (ha : a ≤ maxLength) :
    w = commandWord op b a ↔ fieldOp w = op ∧ fieldB w = b ∧ fieldA w = a := by
  constructor
  · rintro rfl
    exact ⟨fieldOp_commandWord ho hb ha, fieldB_commandWord ho hb ha, fieldA_commandWord ho hb ha⟩
  · rintro ⟨rfl, rfl, rfl⟩
    exact (commandWord_fields w).symm

theorem commandWord_inj {op b a op' b' a' : Nat} (ho : op < 64) (hb : b ≤ maxLength) (ha : a ≤ maxLength)
    (ho' : op' < 64) (hb' : b' ≤ maxLength) (ha' : a' ≤ maxLength) :
    commandWord op b a = commandWord op' b' a' ↔ op = op' ∧ b = b' ∧ a = a' := by
  rw [eq_commandWord_iff ho' hb' ha', fieldOp_commandWord ho hb ha, fieldB_commandWord ho hb ha,
    fieldA_commandWord ho hb ha]

/-! ### The decoder (R107) -/

theorem decodeFormatZ_eq_ok_iff {w : Word} {i j : Instr} :
    decodeFormatZ w i = .ok j ↔ (fieldA w = 0 ∧ fieldB w = 0) ∧ i = j := by
  unfold decodeFormatZ; split <;> simp [*]

theorem decodeFormatA1_eq_ok_iff {w : Word} {i : Nat → Instr} {j : Instr} :
    decodeFormatA1 w i = .ok j ↔ fieldB w = 0 ∧ i (fieldA w) = j := by
  unfold decodeFormatA1; split <;> simp [*]

/-- A word decodes to the command whose OP value and operands its fields hold, and to no other. -/
theorem decode_eq_ok_iff {w : Word} {i : Instr} :
    decode w = .ok i ↔ fieldOp w = opOf i ∧ fieldB w = i.operandB ∧ fieldA w = i.operandA := by
  constructor
  · intro h
    unfold decode at h
    split at h
    case h_1 op | h_8 op | h_9 op =>
      obtain ⟨⟨a, b⟩, rfl⟩ := decodeFormatZ_eq_ok_iff.mp h
      exact ⟨op, b, a⟩
    case h_2 op | h_5 op | h_6 op =>
      obtain ⟨b, rfl⟩ := decodeFormatA1_eq_ok_iff.mp h
      exact ⟨op, b, rfl⟩
    case h_3 op | h_4 op | h_7 op =>
      injection h with h
      subst h
      exact ⟨op, rfl, rfl⟩
    case h_10 => cases h
  · rintro ⟨op, b, a⟩
    cases i with
    | sysReset | melMag | melAcc => simpa [decode, op, opOf, decodeFormatZ_eq_ok_iff] using ⟨a, b⟩
    | fftInit | dctInit | dctApply =>
      simpa [decode, op, opOf, decodeFormatA1_eq_ok_iff] using ⟨b, a⟩
    | fft | fftr | melInit => simpa [decode, op, opOf, decodeFormatA2] using ⟨a, b⟩

theorem decode_eq_ok_iff_encode {w : Word} {i : Instr} :
    decode w = .ok i ↔ i.WellFormed ∧ encode i = w := by
  rw [decode_eq_ok_iff, wellFormed_iff, encode_eq_commandWord, eq_comm (b := w)]
  constructor
  · rintro ⟨op, b, a⟩
    have hb : i.operandB ≤ maxLength := b ▸ fieldB_le w
    have ha : i.operandA ≤ maxLength := a ▸ fieldA_le w
    exact ⟨⟨hb, ha⟩, (eq_commandWord_iff (opOf_lt i) hb ha).mpr ⟨op, b, a⟩⟩
  · rintro ⟨⟨hb, ha⟩, word⟩
    exact (eq_commandWord_iff (opOf_lt i) hb ha).mp word

/-- Settles O1: the fields of the word are the command's OP value and operands. -/
theorem decodeOfEncode : Obligations.DecodeOfEncode :=
  fun _ h => decode_eq_ok_iff_encode.mpr ⟨h, rfl⟩

/-- Settles O3, by evaluating the decoder on the listed words. -/
theorem sampleWordsDecodeAsListed : Obligations.SampleWordsDecodeAsListed := by
  unfold Obligations.SampleWordsDecodeAsListed
  decide

/-! ### The rows of the opcode map (R106): one shape for each format -/

/-- A row of format Z: its mask keeps the whole word (R102). -/
def rowZ (mnemonic : String) (op : Nat) : OpcodeRow := ⟨mnemonic, op, commandWord op 0 0, 0xFFFFFFFF#32⟩

/-- A row of format A1: its mask keeps OP and B (R103). -/
def rowA1 (mnemonic : String) (op : Nat) : OpcodeRow := ⟨mnemonic, op, commandWord op 0 0, 0xFFFFE000#32⟩

/-- A row of format A2: its mask keeps OP (R104). -/
def rowA2 (mnemonic : String) (op : Nat) : OpcodeRow := ⟨mnemonic, op, commandWord op 0 0, 0xFC000000#32⟩

theorem opcodeRows_eq : opcodeRows =
    [rowZ "SYS.RESET" 0x01, rowA1 "FFT.INIT" 0x10, rowA2 "FFT" 0x11, rowA2 "FFTR" 0x12, rowA1 "DCT.INIT" 0x20,
      rowA1 "DCT.APPLY" 0x21, rowA2 "MEL.INIT" 0x30, rowZ "MEL.MAG" 0x31, rowZ "MEL.ACC" 0x32] := rfl

theorem toNat_and_highMask (w : Word) (k : Nat) :
    (w &&& BitVec.allOnes 32 <<< k).toNat = w.toNat / 2 ^ k * 2 ^ k := by
  have fits := (Nat.div_mul_le_self w.toNat (2 ^ k)).trans_lt w.isLt
  rw [← BitVec.shiftLeft_ushiftRight, BitVec.toNat_shiftLeft, BitVec.toNat_ushiftRight, Nat.shiftLeft_eq,
    Nat.shiftRight_eq_div_pow, Nat.mod_eq_of_lt fits]

theorem and_rowA1_mask (w : Word) : w &&& 0xFFFFE000#32 = commandWord (fieldOp w) (fieldB w) 0 := by
  apply BitVec.eq_of_toNat_eq
  rw [commandWord_toNat (fieldOp_lt w) (fieldB_le w) (Nat.zero_le _), fieldOp_toNat, fieldB_toNat]
  exact (toNat_and_highMask w 13).trans (by omega)

theorem and_rowA2_mask (w : Word) : w &&& 0xFC000000#32 = commandWord (fieldOp w) 0 0 := by
  apply BitVec.eq_of_toNat_eq
  rw [commandWord_toNat (fieldOp_lt w) (Nat.zero_le _) (Nat.zero_le _), fieldOp_toNat]
  exact (toNat_and_highMask w 26).trans (by omega)

section Selects

variable {name : String} {op : Nat} (ho : op < 64) {w : Word}
include ho

theorem selects_rowZ : (rowZ name op).selects w = true ↔ fieldOp w = op ∧ fieldB w = 0 ∧ fieldA w = 0 := by
  have keep : w &&& 0xFFFFFFFF#32 = w := BitVec.and_allOnes
  rw [OpcodeRow.selects, beq_iff_eq, rowZ, keep, eq_commandWord_iff ho (Nat.zero_le _) (Nat.zero_le _)]

theorem selects_rowA1 : (rowA1 name op).selects w = true ↔ fieldOp w = op ∧ fieldB w = 0 := by
  rw [OpcodeRow.selects, beq_iff_eq, rowA1, and_rowA1_mask, commandWord_inj (fieldOp_lt w) (fieldB_le w)
    (Nat.zero_le _) ho (Nat.zero_le _) (Nat.zero_le _), eq_self, and_true]

theorem selects_rowA2 : (rowA2 name op).selects w = true ↔ fieldOp w = op := by
  rw [OpcodeRow.selects, beq_iff_eq, rowA2, and_rowA2_mask, commandWord_inj (fieldOp_lt w) (Nat.zero_le _)
    (Nat.zero_le _) ho (Nat.zero_le _) (Nat.zero_le _), eq_self, and_true, and_true]

end Selects

section DecodeOfSelects

variable {w : Word} {i : Instr}

theorem decode_of_selects_rowZ (hb : i.operandB = 0) (ha : i.operandA = 0)
    (h : (rowZ i.mnemonic (opOf i)).selects w = true) : decode w = .ok i := by
  rwa [decode_eq_ok_iff, hb, ha, ← selects_rowZ (opOf_lt i)]

theorem decode_of_selects_rowA1 (hb : i.operandB = 0) (ha : fieldA w = i.operandA)
    (h : (rowA1 i.mnemonic (opOf i)).selects w = true) : decode w = .ok i := by
  obtain ⟨op, b⟩ := (selects_rowA1 (opOf_lt i)).mp h
  exact decode_eq_ok_iff.mpr ⟨op, b.trans hb.symm, ha⟩

theorem decode_of_selects_rowA2 (hb : fieldB w = i.operandB) (ha : fieldA w = i.operandA)
    (h : (rowA2 i.mnemonic (opOf i)).selects w = true) : decode w = .ok i :=
  decode_eq_ok_iff.mpr ⟨(selects_rowA2 (opOf_lt i)).mp h, hb, ha⟩

end DecodeOfSelects

theorem exists_decode_of_selects {w : Word} : ∀ r ∈ opcodeRows, r.selects w = true →
    ∃ i, decode w = .ok i ∧ i.mnemonic = r.mnemonic := by
  simp only [opcodeRows_eq, List.forall_mem_cons]
  exact ⟨
    fun h => ⟨.sysReset, decode_of_selects_rowZ rfl rfl h, rfl⟩,
    fun h => ⟨.fftInit (fieldA w), decode_of_selects_rowA1 rfl rfl h, rfl⟩,
    fun h => ⟨.fft (fieldA w) (fieldB w), decode_of_selects_rowA2 rfl rfl h, rfl⟩,
    fun h => ⟨.fftr (fieldA w) (fieldB w), decode_of_selects_rowA2 rfl rfl h, rfl⟩,
    fun h => ⟨.dctInit (fieldA w), decode_of_selects_rowA1 rfl rfl h, rfl⟩,
    fun h => ⟨.dctApply (fieldA w), decode_of_selects_rowA1 rfl rfl h, rfl⟩,
    fun h => ⟨.melInit (fieldA w) (fieldB w), decode_of_selects_rowA2 rfl rfl h, rfl⟩,
    fun h => ⟨.melMag, decode_of_selects_rowZ rfl rfl h, rfl⟩,
    fun h => ⟨.melAcc, decode_of_selects_rowZ rfl rfl h, rfl⟩,
    List.forall_mem_nil _⟩

theorem exists_row_of_decode {w : Word} {i : Instr} (h : decode w = .ok i) :
    ∃ r ∈ opcodeRows, r.mnemonic = i.mnemonic ∧ r.selects w = true := by
  obtain ⟨op, b, a⟩ := decode_eq_ok_iff.mp h
  rw [opcodeRows_eq]
  cases i with
  | sysReset | melMag | melAcc =>
    exact ⟨rowZ _ _, by simp [opOf], rfl, (selects_rowZ (opOf_lt _)).mpr ⟨op, b, a⟩⟩
  | fftInit | dctInit | dctApply =>
    exact ⟨rowA1 _ _, by simp [opOf], rfl, (selects_rowA1 (opOf_lt _)).mpr ⟨op, b⟩⟩
  | fft | fftr | melInit =>
    exact ⟨rowA2 _ _, by simp [opOf], rfl, (selects_rowA2 (opOf_lt _)).mpr op⟩

theorem row_eq_of_mnemonic_eq : ∀ r ∈ opcodeRows, ∀ r' ∈ opcodeRows, r.mnemonic = r'.mnemonic → r = r' := by
  decide

/-- Settles O2: each direction by the rows' formats; a row is determined by its mnemonic. -/
theorem decodeAgreesWithOpcodeMap : Obligations.DecodeAgreesWithOpcodeMap := by
  intro w
  refine ⟨fun r hr => ⟨exists_decode_of_selects r hr, ?_⟩, fun r hr r' hr' h h' => ?_,
    fun i => decode_eq_ok_iff_encode.mp, fun none => ?_⟩
  · rintro ⟨i, word, name⟩
    obtain ⟨r', hr', name', h'⟩ := exists_row_of_decode word
    rwa [row_eq_of_mnemonic_eq r hr r' hr' (name.symm.trans name'.symm)]
  · obtain ⟨i, word, name⟩ := exists_decode_of_selects r hr h
    obtain ⟨i', word', name'⟩ := exists_decode_of_selects r' hr' h'
    obtain rfl : i = i' := Except.ok.inj (word.symm.trans word')
    exact row_eq_of_mnemonic_eq r hr r' hr' (name.symm.trans name')
  · cases word : decode w with
    | error e => exact ⟨e, rfl⟩
    | ok i =>
      obtain ⟨r, hr, -, h⟩ := exists_row_of_decode word
      exact absurd h (Bool.eq_false_iff.mp (none r hr))

end Sys2Proof

namespace Sys2Proof.Machine

/-! ### Listing lines (R110 to R112) -/

theorem assembleCommand_of_wellFormed {i : Instr} (h : i.WellFormed) :
    assembleCommand i = some [.write 0x4 4 (encode i)] := by
  rw [assembleCommand, if_pos h]; rfl

theorem assembleCommand_of_not_wellFormed {i : Instr} (h : ¬ i.WellFormed) : assembleCommand i = none :=
  if_neg h

theorem not_wellFormed_iff {i : Instr} : ¬ i.WellFormed ↔ 8191 < i.operandB ∨ 8191 < i.operandA := by
  rw [wellFormed_iff, maxLength]; omega

/-- Settles O4: the words by `toNat_encode`, the lines by whether both operands fit. -/
theorem listingLinesAssemble : Obligations.ListingLinesAssemble := by
  refine ⟨by decide, fun m hm => toNat_encode_of_operandB_eq_zero (op := 0x10) rfl rfl hm,
    fun r i hr hi => toNat_encode (op := 0x11) rfl hi hr,
    fun r i hr hi => toNat_encode (op := 0x12) rfl hi hr,
    fun n hn => toNat_encode_of_operandB_eq_zero (op := 0x20) rfl rfl hn,
    fun n hn => toNat_encode_of_operandB_eq_zero (op := 0x21) rfl rfl hn,
    fun nb len hnb hlen => toNat_encode (op := 0x30) rfl hlen hnb,
    fun i => assembleCommand_of_wellFormed,
    fun n hn => assembleCommand_of_wellFormed (wellFormed_iff.mpr ⟨hn, hn⟩),
    fun n hn => assembleCommand_of_wellFormed (wellFormed_iff.mpr ⟨hn, hn⟩),
    fun w => rfl,
    fun i => assembleCommand_of_not_wellFormed, fun n hn => ⟨?_, fun j => ?_, ?_, ?_⟩⟩
  · simp only [List.forall_mem_cons, not_wellFormed_iff]
    simp [Instr.operandA, hn]
  · simp only [List.forall_mem_cons, not_wellFormed_iff]
    simp [Instr.operandA, Instr.operandB, hn]
  · exact assembleCommand_of_not_wellFormed (not_wellFormed_iff.mpr (.inl hn))
  · exact assembleCommand_of_not_wellFormed (not_wellFormed_iff.mpr (.inl hn))

/-! ### A word that does not decode (60_exceptions.md R244, R247) -/

theorem command_of_decode_error {w : Word} {e : IllegalWord} (h : decode w = .error e) (s : State) :
    command w s = .next ((s.respond .writeOk).raise none .illegalCommand) := by
  simp only [command, h]

theorem step_command {s : State} {rest : List HostEvent} {w : Word} (event : s.host = .write 0x4 4 w :: rest) :
    step s = command w (s.withHost rest) := by
  simp only [step, event]; rfl

/-- Settles O7: raising IllegalCommand writes RESULT and ILL. -/
theorem illegalWordOnlySetsIll : Obligations.IllegalWordOnlySetsIll := by
  intro s rest w e event word
  rw [step_command event, command_of_decode_error word]
  rfl

end Sys2Proof.Machine
end

section
/-!
PROOFS for 40_fft.md R134, 10_state.md R55, R62 and 20_memory.md R78: the tables of the units. A step writes elements
of buffers that are no tables, or is the INIT command that builds the table.
-/
namespace Sys2Proof.Machine

/-- The bytes of a buffer's implemented elements. -/
def Buffer.bytes (b : Buffer) (c : Config) : Nat → Prop := b.hasByte 0 (b.elements c)

/-- The INIT commands and the tables they build (40_fft.md R131, 41_dct.md R171). -/
def Builds : Instr → Buffer → Prop
  | .fftInit _, b => b = .sintab
  | .dctInit _, b => b = .dctwr ∨ b = .dctwi
  | _, _ => False

/-- Pseudocode that writes implemented elements of other buffers keeps every byte of a buffer. -/
theorem EngineEffect.buffer_kept {A : Buffer → Nat → Prop} {s t : State} (h : EngineEffect A s t)
    (hc : s.cfg.Legal) {b : Buffer} (hA : ∀ b' i, A b' i → b' ≠ b ∧ i < b'.elements s.cfg) :
    BytesKept (fun a => ¬ b.bytes s.cfg a) s t := by
  intro a ha
  refine h.byte?_outside fun b' i hi inside => ?_
  obtain ⟨low, high⟩ := not_not.mp ha
  obtain ⟨other, implemented⟩ := hA b' i hi
  have element : (a - b.base) / 4 < b.elements s.cfg := by
    simp only [Buffer.elemOffset] at low high; omega
  have apart := elements_disjoint hc element implemented (.inl other.symm)
  simp only [Buffer.elemOffset] at low high apart inside
  omega

theorem Ended.mem {u : EngineUnit} {s t : State} (h : Ended u s t) : t.mem = s.mem := by
  obtain rfl | ⟨k, rfl⟩ := h <;> simp

/-- The rule of an INIT command keeps every buffer but the tables it builds. -/
theorem InitEffect.buffer_kept {i : Instr} {s t : State} (h : InitEffect s i t) (hc : s.cfg.Legal) {b : Buffer}
    (hb : ¬ Builds i b) : BytesKept (fun a => ¬ b.bytes s.cfg a) s t := by
  cases h with
  | refused | mel => exact fun _ _ => rfl
  | @fft m _ _ high =>
    have kept := (buildSineTable_effect m s).buffer_kept hc (b := b) (by
      rintro _ i ⟨rfl, hi⟩
      refine ⟨fun e => hb e.symm, ?_⟩
      simp only [Buffer.elements]; omega)
    exact kept
  | @dct n low high =>
    have kept := (buildTwiddle_effect low s).buffer_kept hc (b := b) (by
      rintro _ i ⟨table, hi⟩
      refine ⟨fun e => hb (e ▸ table), ?_⟩
      obtain rfl | rfl := table <;> exact hi.trans_le high)
    exact kept

/-- A command keeps every table but those it builds. -/
theorem exec_table_kept {i : Instr} {s t : State} (run : exec i s = .next t) (hs : s.Inv) {b : Buffer}
    (table : b.hostWritable = false) (hb : ¬ Builds i b) : BytesKept (fun a => ¬ b.bytes s.cfg a) s t := by
  obtain ⟨-, rfl⟩ | ⟨u, -, r, written, ended⟩ | ⟨u, -, r, built, ended⟩ := exec_cases run
  · exact fun _ _ => rfl
  · have kept := written.buffer_kept hs.1 (b := b) fun b' i hi => by
      obtain ⟨writable, implemented⟩ := workElements_legal hs.2.1 hi
      exact ⟨fun e => by simp [e, table] at writable, implemented⟩
    exact fun a ha => ended.mem ▸ kept a ha
  · have kept := built.buffer_kept (s := s.discard u) (by simpa using hs.1) hb
    simp only [State.discard_eq, State.clearSizes_cfg, State.clearBad_cfg] at kept
    exact fun a ha => ended.mem ▸ (kept a ha).trans (by simp)

/-- A host write keeps every table (20_memory.md R78). -/
theorem hostWrite_table_kept (off size : Nat) (v : Word) {s : State} (hc : s.cfg.Legal) {b : Buffer}
    (table : b.hostWritable = false) : BytesKept (fun a => ¬ b.bytes s.cfg a) s (hostWrite off size v s) := by
  obtain e | e | ⟨b', i, writable, implemented, e⟩ := hostWrite_cases off size v s <;> rw [e]
  · exact fun _ _ => rfl
  · exact fun _ _ => rfl
  · have kept := (writeElem_effect (A := fun b'' j => b'' = b' ∧ j = i) ⟨rfl, rfl⟩ v s).buffer_kept hc (b := b) (by
      rintro _ _ ⟨rfl, rfl⟩
      exact ⟨fun e => by simp [e, table] at writable, implemented⟩)
    exact kept

/-- A step other than a hardware reset keeps every table but those its command builds. -/
theorem step_table_kept {s t : State} (h : step s = .next t) (hs : s.Inv) (reset : ¬ nextIsReset s) {b : Buffer}
    (table : b.hostWritable = false) (hb : ∀ i, nextCommand s = some i → ¬ Builds i b) :
    BytesKept (fun a => ¬ b.bytes s.cfg a) s t := by
  obtain ⟨-, rfl⟩ | ⟨off, size, rest, -, rfl⟩ | ⟨off, size, v, rest, -, -, rfl⟩ |
    ⟨off, size, w, rest, i, event, access, word, run⟩ | ⟨-, -, -, rest, -, -, -, -, rfl⟩ |
    ⟨rest, event, -⟩ := step_cases h
  · exact fun _ _ => rfl
  · obtain ⟨d, r, e⟩ := hostRead_cases off size (s.withHost rest)
    rw [e]
    exact fun _ _ => rfl
  · exact hostWrite_table_kept off size v (s := s.withHost rest) hs.1 table
  · have next : nextCommand s = some i := by simp [nextCommand, event, access, word, Except.toOption]
    exact exec_table_kept (s := (s.withHost rest).respond .writeOk) run hs table (hb i next)
  · exact fun _ _ => rfl
  · exact absurd (by simp [nextIsReset, event]) reset

/-- Settles O44: only FFT.INIT builds SINTAB and only DCT.INIT builds DCTWR and DCTWI (`step_table_kept`). -/
theorem tablesChangeOnlyByInit : Obligations.TablesChangeOnlyByInit := by
  intro s t hs h reset
  refine ⟨fun other a ha => ?_, fun other a ha => ?_⟩
  · refine step_table_kept h hs reset (b := .sintab) rfl (fun i next builds => ?_) a (not_not.mpr ha)
    cases i with
    | fftInit m => exact other m next
    | dctInit n => simp [Builds] at builds
    | _ => exact builds
  · have noTable : ∀ b : Buffer, (b = .dctwr ∨ b = .dctwi) → ∀ i, nextCommand s = some i → ¬ Builds i b := by
      intro b hb i next builds
      cases i with
      | dctInit n => exact other n next
      | fftInit m => obtain rfl | rfl := hb <;> cases builds
      | _ => exact builds
    obtain ha | ha := ha
    · exact step_table_kept h hs reset rfl (noTable .dctwr (.inl rfl)) a (not_not.mpr ha)
    · exact step_table_kept h hs reset rfl (noTable .dctwi (.inr rfl)) a (not_not.mpr ha)

end Sys2Proof.Machine
end

section
/-!
PROOFS for 40_fft.md R131, R132, R137, R141, 41_dct.md R171, R175, 42_mel.md R201, R205 and 60_exceptions.md R247:
the checks of the commands and what a command changes whose checks pass.
-/
namespace Sys2Proof.Machine

/-! ### The end of a command, by what its rule answers -/

section Dispatch

variable {u : EngineUnit} {body : CommandBody} {s t : State}

theorem runCommand_of_error {k : ErrorKind} (good : s.isBad u = false) (h : body s = (some k, t)) :
    runCommand u body s = t.raise (some u) k := by
  simp [runCommand, runBody, good, h]

theorem runCommand_of_ok (good : s.isBad u = false) (h : body s = (none, t)) :
    runCommand u body s = t.returnOk := by
  simp [runCommand, runBody, good, h]

theorem runInit_of_error {k : ErrorKind} (h : body (s.discard u) = (some k, t)) :
    runInit u body s = t.raise (some u) k := by
  simp only [runInit, runBody, h]

theorem runInit_of_ok (h : body (s.discard u) = (none, t)) : runInit u body s = t.returnOk := by
  simp only [runInit, runBody, h]

end Dispatch

theorem isPow2_two_pow (k : Nat) : isPow2 (2 ^ k) = true := (ispow2IsPowerOfTwo.1 _).mpr ⟨k, rfl⟩

theorem isPow2_eq_false_iff {n : Nat} : isPow2 n = false ↔ ¬ ∃ k, n = 2 ^ k := by
  rw [← ispow2IsPowerOfTwo.1, Bool.not_eq_true]

/-! ### Checks that fail -/

/-- Settles O13: the checks of `fftBody` and `fftrBody` in their order. -/
theorem transformChecksInOrder : Obligations.TransformChecksInOrder := by
  intro s rlen ilen good
  refine ⟨fun lengths => ⟨?_, ?_⟩, ?_, ?_⟩
  · have check : fftBody rlen ilen s = (some .dataSizeMismatch, s) := by simp only [fftBody, if_pos lengths]
    exact congrArg Host.Outcome.next (runCommand_of_error good check)
  · have check : fftrBody rlen ilen s = (some .dataSizeMismatch, s) := by simp only [fftrBody, if_pos lengths]
    exact congrArg Host.Outcome.next (runCommand_of_error good check)
  · rintro rfl range
    rw [← isPow2_eq_false_iff] at range
    have check : fftBody rlen rlen s = (some .invalidSize, s) := by
      simp only [fftBody, ne_eq, not_true_eq_false, if_false, gt_iff_lt, if_pos range]
    exact congrArg Host.Outcome.next (runCommand_of_error good check)
  · rintro rfl range
    rw [← isPow2_eq_false_iff] at range
    have check : fftrBody rlen rlen s = (some .invalidSize, s) := by
      simp only [fftrBody, ne_eq, not_true_eq_false, if_false, gt_iff_lt, if_pos range]
    exact congrArg Host.Outcome.next (runCommand_of_error good check)

/-- Discarding a construction clears the unit's flag, and the failing check sets it again. -/
theorem clear_or_set (x b : Word) : x &&& ~~~b ||| b = x ||| b := by
  ext j hj
  simp only [BitVec.getElem_or, BitVec.getElem_and, BitVec.getElem_not]
  cases x[j] <;> cases b[j] <;> rfl

theorem raise_invalidSize_discard (s : State) (u : EngineUnit) : (s.discard u).raise (some u) .invalidSize =
    { s.clearSizes u with result := 2#32, status := s.status ||| u.badBit } := by
  rw [← clear_or_set]
  cases u <;> rfl

theorem runInit_of_invalidSize {u : EngineUnit} {body : CommandBody} {s : State}
    (h : body (s.discard u) = (some .invalidSize, s.discard u)) : runInit u body s =
      { s.clearSizes u with result := 2#32, status := s.status ||| u.badBit } := by
  rw [runInit_of_error h, raise_invalidSize_discard]

/-- Settles O14: each INIT command checks after the old construction is discarded. -/
theorem initOutOfRangeFails : Obligations.InitOutOfRangeFails := by
  refine fun s => ⟨fun m range => ?_, fun n range => ?_, fun nb len range => ?_⟩
  · rw [← isPow2_eq_false_iff] at range
    have check : fftInitBody m (s.discard .fft) = (some .invalidSize, s.discard .fft) := if_pos range
    exact congrArg Host.Outcome.next (runInit_of_invalidSize check)
  · have check : dctInitBody n (s.discard .dct) = (some .invalidSize, s.discard .dct) := if_pos range
    exact congrArg Host.Outcome.next (runInit_of_invalidSize check)
  · rw [← isPow2_eq_false_iff, ← or_assoc] at range
    have check : melInitBody nb len (s.discard .mel) = (some .invalidSize, s.discard .mel) := by
      by_cases channels : nb < 1 ∨ s.cfg.nbmax < nb
      · exact if_pos channels
      · exact (if_neg channels).trans (if_pos (range.resolve_left channels))
    exact congrArg Host.Outcome.next (runInit_of_invalidSize check)

/-! ### What a command changes -/

section Frame

variable {A : Buffer → Nat → Prop} {s t : State} (h : EngineEffect A s t)
include h

/-- The bytes of elements that the pseudocode may not write are kept. -/
theorem EngineEffect.bytesKept {W : Nat → Prop}
    (hA : ∀ b i a, A b i → b.hasByte i (i + 1) a → W a) : BytesKept W s t := fun a outside =>
  h.byte?_outside fun b i hi inside => outside (hA b i a hi (by
    simpa only [Buffer.hasByte, elemOffset_succ] using inside))

/-- A command whose checks pass changes RESULT and the elements its pseudocode may write. -/
theorem EngineEffect.ok_frame {W : Nat → Prop} (hA : ∀ b i a, A b i → b.hasByte i (i + 1) a → W a) :
    t.returnOk.result = 0#32 ∧ OnlyResultAndBuffers s t.returnOk ∧ BytesKept W s t.returnOk := by
  obtain ⟨cfg, -, registers⟩ := h.registers
  exact ⟨rfl, ⟨cfg, registers⟩, h.bytesKept hA⟩

end Frame

/-- An element of a range lies in the bytes of the range. -/
theorem hasByte_of_element {b : Buffer} {lo hi i a : Nat} (h1 : lo ≤ i) (h2 : i < hi)
    (ha : b.hasByte i (i + 1) a) : b.hasByte lo hi a := by
  simp only [Buffer.hasByte, Buffer.elemOffset] at ha ⊢
  omega

/-! ### FFT.INIT -/

/-- The state after FFT.INIT m in range, before RESULT. -/
def sineTableBuilt (m : Nat) (s : State) : State :=
  { effect (buildSineTable binary32 fftPorts m) (s.discard .fft) with fftM := BitVec.ofNat 32 m }

theorem exec_fftInit {s : State} {m : Nat} (pow2 : ∃ k, m = 2 ^ k) (low : 4 ≤ m) (high : m ≤ s.cfg.mmax) :
    exec (.fftInit m) s = .next (sineTableBuilt m s).returnOk := by
  have range : ¬ (isPow2 m = false ∨ m < 4 ∨ m > s.cfg.mmax) := by
    rw [isPow2_eq_false_iff]
    rintro (h | h | h)
    · exact h pow2
    · omega
    · omega
  have check : fftInitBody m (s.discard .fft) = (none, sineTableBuilt m s) := if_neg range
  exact congrArg Host.Outcome.next (runInit_of_ok check)

/-- FFT.INIT reads no element, so it uses up no free value. -/
theorem buildSineTable_writesOnly (m : Nat) (s : State) : effect (buildSineTable binary32 fftPorts m) s =
    { s with mem := (effect (buildSineTable binary32 fftPorts m) s).mem } :=
  buildSineTable_keeps (P := fftPorts) (R := fun s t : State => t = { s with mem := t.mem }) (M := m) (fun _ => rfl)
    (fun _ _ _ h h' => by rw [h', h]) binary32 (fun _ _ _ _ => rfl) s

/-- The four values of 40_fft.md R132. -/
theorem fSinq_quarter_turns {m : Nat} (hm : 4 ∣ m) (low : 4 ≤ m) :
    fSinq 0 m = 0x00000000#32 ∧ fSinq (m / 4) m = 0x3F800000#32 ∧ fSinq (m / 2) m = 0x00000000#32 ∧
      fSinq (m - m / 4) m = 0xBF800000#32 := by
  obtain ⟨zero, half, quarter, -⟩ := sineDependsOnFractionOnly
  have three : m - m / 4 = 3 * m / 4 := by omega
  rw [three]
  exact ⟨(zero m (by omega)).1, (quarter m (by omega) hm).1, half m (by omega) (by omega),
    (quarter m (by omega) hm).2⟩

theorem four_dvd_two_pow {k : Nat} (h : 4 ≤ 2 ^ k) : 4 ∣ 2 ^ k :=
  Nat.pow_dvd_pow 2 (m := 2) ((Nat.pow_le_pow_iff_right (a := 2) (by decide)).mp h)

/-- Settles O18: the table by `buildSineTable_elem`, its four values by `fSinq_quarter_turns`. -/
theorem fftInitBuildsSineTable : Obligations.FftInitBuildsSineTable := by
  intro s m hc pow2 low high
  have built := buildSineTable_effect m (s.discard .fft)
  have entry : ∀ i, i ≤ m - m / 4 → (sineTableBuilt m s).elem? .sintab i = some (fSinq i m) :=
    fun i hi => buildSineTable_elem hc high (by omega) (s.discard .fft)
  have dvd : 4 ∣ m := by obtain ⟨k, rfl⟩ := pow2; exact four_dvd_two_pow low
  obtain ⟨zero, quarter, half, three⟩ := fSinq_quarter_turns dvd low
  refine ⟨_, exec_fftInit pow2 low high, entry, ⟨?_, ?_, ?_, ?_⟩, ?_,
    toNat_ofNat_size (high.trans (Config.Legal.mmax_le hc)), ?_⟩
  · exact zero ▸ entry 0 (by omega)
  · exact quarter ▸ entry (m / 4) (by omega)
  · exact half ▸ entry (m / 2) (by omega)
  · exact three ▸ entry (m - m / 4) le_rfl
  · refine built.bytesKept ?_
    rintro _ i a ⟨rfl, hi⟩
    exact hasByte_of_element (Nat.zero_le i) hi
  · have frame : effect (buildSineTable binary32 fftPorts m) (s.discard .fft) = { s.discard .fft with
        mem := (effect (buildSineTable binary32 fftPorts m) (s.discard .fft)).mem } :=
      buildSineTable_writesOnly m (s.discard .fft)
    rw [sineTableBuilt, frame]
    rfl

/-! ### FFT, FFTR, DCT.APPLY and MEL.MAG whose checks pass -/

section Ok

variable {s : State}

theorem exec_fft_ok (good : s.isBad .fft = false) {k : Nat} (h : 2 ^ k ≤ s.fftSize) :
    exec (.fft (2 ^ k) (2 ^ k)) s = .next (effect (fftCore binary32 fftPorts s.fftSize (2 ^ k)) s).returnOk := by
  have check : fftBody (2 ^ k) (2 ^ k) s = (none, effect (fftCore binary32 fftPorts s.fftSize (2 ^ k)) s) := by
    simp [fftBody, isPow2_two_pow, h]
  exact congrArg Host.Outcome.next (runCommand_of_ok good check)

theorem exec_fftr_ok (good : s.isBad .fft = false) {k : Nat} (hk : 1 ≤ k) (h : 2 ^ k ≤ s.fftSize) :
    exec (.fftr (2 ^ k) (2 ^ k)) s =
      .next (effect (fftrCore binary32 fftPorts s.fftSize (2 ^ k)) s).returnOk := by
  have low : 2 ≤ 2 ^ k := Nat.pow_le_pow_right (n := 2) (by decide) hk
  have check : fftrBody (2 ^ k) (2 ^ k) s = (none, effect (fftrCore binary32 fftPorts s.fftSize (2 ^ k)) s) := by
    simp [fftrBody, isPow2_two_pow]
    omega
  exact congrArg Host.Outcome.next (runCommand_of_ok good check)

theorem exec_dctApply_ok (good : s.isBad .dct = false) (h : s.dctSize ≠ 0) :
    exec (.dctApply (2 * s.dctSize)) s = .next (effect (dctCore binary32 dctPorts s.dctSize) s).returnOk := by
  have check : dctApplyBody (2 * s.dctSize) s = (none, effect (dctCore binary32 dctPorts s.dctSize) s) := by
    simp [dctApplyBody, h]
  exact congrArg Host.Outcome.next (runCommand_of_ok good check)

theorem exec_melMag_ok (good : s.isBad .mel = false) (h : s.melLength ≠ 0) :
    exec .melMag s = .next (effect (magnitude binary32 melPorts s.melLength) s).returnOk :=
  congrArg Host.Outcome.next (runCommand_of_ok good (if_neg h))

end Ok

/-- The bytes of the elements that FFT and FFTR of length n may write. -/
theorem hasByte_of_fftElements {n : Nat} {b : Buffer} {i a : Nat} (hi : fftElements n b i)
    (ha : b.hasByte i (i + 1) a) : Buffer.hasByte .real 0 n a ∨ Buffer.hasByte .imag 0 n a := by
  obtain ⟨rfl | rfl, hi⟩ := hi
  · exact .inl (hasByte_of_element (Nat.zero_le i) hi ha)
  · exact .inr (hasByte_of_element (Nat.zero_le i) hi ha)

/-- Settles O21: what the kernels may write (`fftCore_effect` and its like), by the frame of `EngineEffect`. -/
theorem transformsCompleteOnAnyData : Obligations.TransformsCompleteOnAnyData := by
  refine fun s => ⟨fun good k h => ⟨_, exec_fft_ok good h, ?_⟩, fun good k hk h => ⟨_, exec_fftr_ok good hk h, ?_⟩,
    fun good h => ⟨_, exec_dctApply_ok good h, ?_⟩, fun good h => ⟨_, exec_melMag_ok good h, ?_⟩⟩
  · exact (fftCore_effect s.fftSize (2 ^ k) s).ok_frame fun _ _ _ => hasByte_of_fftElements
  · exact (fftrCore_effect s.fftSize (Nat.two_pow_pos k) s).ok_frame fun _ _ _ => hasByte_of_fftElements
  · refine (dctCore_effect s.dctSize s).ok_frame ?_
    rintro _ i a ⟨rfl, hi⟩
    exact hasByte_of_element (Nat.zero_le i) hi
  · refine (magnitude_effect s.melLength s).ok_frame ?_
    rintro _ i a ⟨rfl, low, high⟩
    exact hasByte_of_element low (Nat.lt_succ_of_le high)

/-- Settles O23: length 1 has no pass, no pair and no exchange. -/
theorem fftOfOneChangesNothing : Obligations.FftOfOneChangesNothing := by
  intro s good h
  have identity : effect (fftCore binary32 fftPorts s.fftSize (2 ^ 0)) s = s := rfl
  have run := exec_fft_ok good (k := 0) h
  rw [identity] at run
  exact run

end Sys2Proof.Machine
end

section
/-!
PROOFS for 40_fft.md R136 to R139: the FFT kernel on any store whose elements read as they were written, the machine's
buffers and the ideal machine's alike. `FftData` is what the kernel finds and leaves in the store.
-/
namespace Sys2Proof.Machine

open Sys2Proof.Reference (butterflySum butterflyDiff dif)

/-! ### Stores whose elements read as they were written -/

/-- A store seen through its ports: one for each buffer, and the elements that exist. -/
structure Bank (σ F : Type) where
  port : Buffer → Port σ F
  implemented : Buffer → Nat → Prop

variable {σ F α : Type}

/-- Element `i` of a buffer exists, and reading it gives `y` and changes nothing. -/
def Bank.At (B : Bank σ F) (b : Buffer) (i : Nat) (y : F) (s : σ) : Prop :=
  B.implemented b i ∧ (B.port b).rd i s = (y, s)

/-- An element reads as written, and no write changes another one. -/
structure Bank.Lawful (B : Bank σ F) : Prop where
  same : ∀ {b i} (v : F) (s : σ), B.implemented b i → B.At b i v ((B.port b).wr i v s).2
  other : ∀ {b b' i j y} {s : σ} (v : F), B.implemented b' j → (b ≠ b' ∨ i ≠ j) → B.At b i y s →
    B.At b i y ((B.port b').wr j v s).2

/-- The FFT unit's ports (40_fft.md R130). -/
def Bank.fftPorts (B : Bank σ F) : FftPorts σ F where
  sin := B.port .sintab
  re := B.port .real
  im := B.port .imag

@[simp] theorem Bank.fftPorts_sin (B : Bank σ F) : B.fftPorts.sin = B.port .sintab := rfl
@[simp] theorem Bank.fftPorts_re (B : Bank σ F) : B.fftPorts.re = B.port .real := rfl
@[simp] theorem Bank.fftPorts_im (B : Bank σ F) : B.fftPorts.im = B.port .imag := rfl

theorem Bank.At.rd_bind {B : Bank σ F} {b : Buffer} {i : Nat} {y : F} {s : σ} (h : B.At b i y s)
    (f : F → StateM σ α) : ((B.port b).rd i >>= f) s = f y s := by
  show f ((B.port b).rd i s).1 ((B.port b).rd i s).2 = _
  rw [h.2]

theorem Bank.wr_bind (B : Bank σ F) (b : Buffer) (i : Nat) (v : F) (s : σ) (f : Unit → StateM σ α) :
    ((B.port b).wr i v >>= f) s = f () ((B.port b).wr i v s).2 := rfl

theorem loop_invariant {I : Nat → σ → Prop} {f : Nat → StateM σ Unit} {a k : Nat}
    (round : ∀ i s, a ≤ i → i < a + k → I i s → I (i + 1) (f i s).2) {s : σ} (h : I a s) :
    I (a + k) (loop a k f s).2 := by
  induction k generalizing a s with
  | zero => exact h
  | succ k ih =>
    have rest := ih (a := a + 1) (fun i s h1 h2 => round i s (by omega) (by omega))
      (round a s (Nat.le_refl a) (by omega) h)
    rwa [Nat.add_right_comm] at rest

/-! ### The data of the FFT unit -/

/-- The sine table for M is in place, and the elements in `D` of REAL and IMAG hold the pairs `z`. -/
structure FftData (B : Bank σ F) (N : Numerics F) (M : Nat) (D : Nat → Prop) (z : Nat → F × F) (s : σ) : Prop where
  table : ∀ i, i < M - M / 4 + 1 → B.At .sintab i (N.sinq i M) s
  re : ∀ i, D i → B.At .real i (z i).1 s
  im : ∀ i, D i → B.At .imag i (z i).2 s

/-- The pair `v` written to element `i` of REAL and then of IMAG. -/
def Bank.put (B : Bank σ F) (i : Nat) (v : F × F) (s : σ) : σ :=
  ((B.port .imag).wr i v.2 ((B.port .real).wr i v.1 s).2).2

section Data

variable {B : Bank σ F} {N : Numerics F} {M : Nat} {D D' : Nat → Prop} {z z' w : Nat → F × F} {s : σ}

theorem FftData.mono (h : FftData B N M D z s) (hD : ∀ i, D' i → D i ∧ z' i = z i) : FftData B N M D' z' s where
  table := h.table
  re i hi := (hD i hi).2 ▸ h.re i (hD i hi).1
  im i hi := (hD i hi).2 ▸ h.im i (hD i hi).1

section Write

variable (hB : B.Lawful)
include hB

/-- Writing a pair adds it to the data, whatever the element held. -/
theorem FftData.put (h : FftData B N M D z s) {i : Nat} (hr : B.implemented .real i)
    (hi : B.implemented .imag i) (v : F × F) :
    FftData B N M (fun j => j = i ∨ D j) (Function.update z i v) (B.put i v s) where
  table j hj := hB.other _ hi (.inl (by decide)) (hB.other _ hr (.inl (by decide)) (h.table j hj))
  re j hj := by
    refine hB.other _ hi (.inl (by decide)) ?_
    by_cases e : j = i
    · rw [e, Function.update_self]
      exact hB.same _ _ hr
    · rw [Function.update_of_ne e]
      exact hB.other _ hr (.inr e) (h.re j (hj.resolve_left e))
  im j hj := by
    by_cases e : j = i
    · rw [e, Function.update_self]
      exact hB.same _ _ hi
    · rw [Function.update_of_ne e]
      exact hB.other _ hi (.inr e) (hB.other _ hr (.inl (by decide)) (h.im j (hj.resolve_left e)))

/-- Overwriting two pairs of the data. -/
theorem FftData.put_two (h : FftData B N M D z s) {p q : Nat} (hp : D p) (hq : D q) (v w : F × F) :
    FftData B N M D (Function.update (Function.update z p v) q w) (B.put q w (B.put p v s)) := by
  have first := h.put hB (h.re p hp).1 (h.im p hp).1 v
  have second := first.put hB (h.re q hq).1 (h.im q hq).1 w
  exact second.mono fun i hi => ⟨.inr (.inr hi), rfl⟩

end Write

/-- A loop each round of which gives the elements it owns their new pairs `w` and keeps the others. A round may
rely on the old pairs of all elements that no earlier round owns. -/
theorem FftData.loop {D : Nat → Nat → Prop} {owner : Nat → Nat} {f : Nat → StateM σ Unit} {a k : Nat}
    (round : ∀ i z' s, a ≤ i → i < a + k → (∀ l, ¬ (a ≤ owner l ∧ owner l < i) → z' l = z l) →
      FftData B N M (D i) z' s →
      FftData B N M (D (i + 1)) (fun l => if owner l = i then w l else z' l) (f i s).2)
    (h : FftData B N M (D a) z s) :
    FftData B N M (D (a + k)) (fun l => if a ≤ owner l ∧ owner l < a + k then w l else z l)
      (Machine.loop a k f s).2 := by
  refine loop_invariant
    (I := fun i s => FftData B N M (D i) (fun l => if a ≤ owner l ∧ owner l < i then w l else z l) s)
    (fun i s low high hi => ?_) (h.mono fun l hl => ⟨hl, if_neg (by omega)⟩)
  refine (round i _ s low high (fun l hl => if_neg hl) hi).mono fun l hl => ⟨hl, ?_⟩
  by_cases e : owner l = i
  · rw [if_pos e, if_pos (by omega)]
  · rw [if_neg e]
    exact if_congr (by omega) rfl rfl

/-- A loop over all the data, each round of which gives the elements it owns their new pairs. -/
theorem FftData.loop_inPlace {owner : Nat → Nat} {f : Nat → StateM σ Unit} {k n : Nat}
    (owned : ∀ l, l < n → owner l < k)
    (round : ∀ i z' s, i < k → (∀ l, i ≤ owner l → z' l = z l) → FftData B N M (· < n) z' s →
      FftData B N M (· < n) (fun l => if owner l = i then w l else z' l) (f i s).2)
    (h : FftData B N M (· < n) z s) : FftData B N M (· < n) w (Machine.loop 0 k f s).2 := by
  have rounds := h.loop (D := fun _ => (· < n)) (owner := owner) (f := f) (a := 0) (k := k) (w := w)
    fun i z' s _ hi agree => round i z' s (by omega) fun l hl => agree l (by omega)
  refine rounds.mono fun l hl => ⟨hl, (if_pos ?_).symm⟩
  have := owned l hl
  omega

end Data

/-! ### The passes -/

/-- The sum of two pairs. -/
def pairSum (N : Numerics F) (a b : F × F) : F × F := (N.add a.1 b.1, N.add a.2 b.2)

/-- The difference of two pairs. -/
def pairDiff (N : Numerics F) (a b : F × F) : F × F := (N.sub a.1 b.1, N.sub a.2 b.2)

/-- A pair turned by the angle with sine s and cosine c, as the butterfly of 40_fft.md R136 does it. -/
def turned (N : Numerics F) (s c : F) (t : F × F) : F × F :=
  (N.add (N.mul c t.1) (N.mul s t.2), N.sub (N.mul c t.2) (N.mul s t.1))

section Kernel

variable {B : Bank σ F} (hB : B.Lawful) {N : Numerics F} {M : Nat} {D : Nat → Prop} {z : Nat → F × F} {s : σ}
include hB

/-- A write to REAL changes no pair's element of IMAG. -/
theorem FftData.im_after_re (h : FftData B N M D z s) {i p : Nat} (hi : D i) (hp : B.implemented .real p) (v : F) :
    B.At .imag i (z i).2 ((B.port .real).wr p v s).2 :=
  hB.other v hp (.inl (by decide)) (h.im i hi)

theorem butterfly_eq (h : FftData B N M D z s) {p q : Nat} (hp : D p) (hq : D q) (sn c : F) :
    (butterfly N B.fftPorts sn c p q s).2 =
      B.put q (turned N sn c (pairDiff N (z p) (z q))) (B.put p (pairSum N (z p) (z q)) s) := by
  have im := fun {i} (hi : D i) => h.im_after_re hB hi (h.re p hp).1
  simp only [butterfly, Bank.fftPorts_re, Bank.fftPorts_im]
  rw [(h.re p hp).rd_bind, (h.re q hq).rd_bind, (h.im p hp).rd_bind, (h.im q hq).rd_bind,
    (h.re p hp).rd_bind, (h.re q hq).rd_bind, Bank.wr_bind, (im hp _).rd_bind, (im hq _).rd_bind]
  rfl

theorem finalPair_eq (h : FftData B N M D z s) {p : Nat} (hp : D p) (hq : D (p + 1)) :
    (finalPair N B.fftPorts p s).2 =
      B.put (p + 1) (pairDiff N (z p) (z (p + 1))) (B.put p (pairSum N (z p) (z (p + 1))) s) := by
  have im := fun {i} (hi : D i) => h.im_after_re hB hi (h.re p hp).1
  simp only [finalPair, Bank.fftPorts_re, Bank.fftPorts_im]
  rw [(h.re p hp).rd_bind, (h.re _ hq).rd_bind, (h.im p hp).rd_bind, (h.im _ hq).rd_bind,
    (h.re p hp).rd_bind, (h.re _ hq).rd_bind, Bank.wr_bind, (im hp _).rd_bind, (im hq _).rd_bind]
  rfl

end Kernel

/-- The pairs of the block of length `len` that holds element i. -/
def block (len : Nat) (z : Nat → F × F) (i j : Nat) : F × F := z (i / len * len + j)

theorem block_of_lt {len : Nat} (z : Nat → F × F) (b : Nat) {j : Nat} (hj : j < len) :
    block len z (b * len + j) = fun j => z (b * len + j) := by
  have e : (b * len + j) / len = b := by
    rw [Nat.add_comm, Nat.add_mul_div_right _ _ (by omega), Nat.div_eq_of_lt hj, Nat.zero_add]
  funext k
  rw [block, e]

/-- The pairs after the pass of 40_fft.md R136 with half-span h, in each block of length 2h. -/
def passValue (N : Numerics F) (h : Nat) (z : Nat → F × F) (i : Nat) : F × F :=
  if i % (2 * h) < h then butterflySum N h (block (2 * h) z i) (i % (2 * h))
  else butterflyDiff N h (block (2 * h) z i) (i % (2 * h) - h)

theorem passValue_low (N : Numerics F) {h : Nat} (z : Nat → F × F) (b : Nat) {j : Nat} (hj : j < h) :
    passValue N h z (b * (2 * h) + j) = butterflySum N h (fun j => z (b * (2 * h) + j)) j := by
  have e : (b * (2 * h) + j) % (2 * h) = j := by
    rw [Nat.mul_add_mod_self_right, Nat.mod_eq_of_lt (by omega)]
  rw [passValue, e, if_pos hj, block_of_lt z b (by omega)]

theorem passValue_high (N : Numerics F) {h : Nat} (z : Nat → F × F) (b : Nat) {j : Nat} (hj : j < h) :
    passValue N h z (b * (2 * h) + (j + h)) = butterflyDiff N h (fun j => z (b * (2 * h) + j)) j := by
  have e : (b * (2 * h) + (j + h)) % (2 * h) = j + h := by
    rw [Nat.mul_add_mod_self_right, Nat.mod_eq_of_lt (by omega)]
  rw [passValue, e, if_neg (by omega), block_of_lt z b (by omega), Nat.add_sub_cancel]

/-- Where element l lies: in block l / 2h, at column j of the lower or of the upper half. -/
theorem column_cases {h : Nat} (hh : 0 < h) (l : Nat) : ∃ j, j < h ∧ l % (2 * h) % h = j ∧
    (l = l / (2 * h) * (2 * h) + j ∨ l = l / (2 * h) * (2 * h) + (j + h)) := by
  have split := Nat.div_add_mod' l (2 * h)
  have small : l % (2 * h) < 2 * h := Nat.mod_lt _ (by omega)
  refine ⟨l % (2 * h) % h, Nat.mod_lt _ hh, rfl, ?_⟩
  rcases Nat.lt_or_ge (l % (2 * h)) h with low | high
  · rw [Nat.mod_eq_of_lt low]
    exact .inl split.symm
  · rw [Nat.mod_eq_sub_mod high, Nat.mod_eq_of_lt (by omega), Nat.sub_add_cancel high]
    exact .inr split.symm

theorem column_of_low (b : Nat) {h j : Nat} (hj : j < h) :
    (b * (2 * h) + j) / (2 * h) = b ∧ (b * (2 * h) + j) % (2 * h) % h = j := by
  constructor
  · rw [Nat.add_comm, Nat.add_mul_div_right _ _ (by omega), Nat.div_eq_of_lt (by omega), Nat.zero_add]
  · rw [Nat.mul_add_mod_self_right, Nat.mod_eq_of_lt (a := j) (by omega), Nat.mod_eq_of_lt hj]

theorem column_of_high (b : Nat) {h j : Nat} (hj : j < h) :
    (b * (2 * h) + (j + h)) / (2 * h) = b ∧ (b * (2 * h) + (j + h)) % (2 * h) % h = j := by
  constructor
  · rw [Nat.add_comm, Nat.add_mul_div_right _ _ (by omega), Nat.div_eq_of_lt (by omega), Nat.zero_add]
  · rw [Nat.mul_add_mod_self_right, Nat.mod_eq_of_lt (a := j + h) (by omega), Nat.add_mod_right,
      Nat.mod_eq_of_lt hj]

/-- The sine depends on the fraction only (00_scope.md R24 P2). -/
def SineScales (N : Numerics F) : Prop := ∀ {k : Nat}, 0 < k → ∀ p q, N.sinq (k * p) (k * q) = N.sinq p q

section Pass

variable {B : Bank σ F} (hB : B.Lawful) {N : Numerics F} {M : Nat} {z z' : Nat → F × F} {s : σ}
include hB

/-- The butterflies of column j, one in each block. -/
theorem column_data {h nb j : Nat} (hj : j < h) (hz : ∀ l, l % (2 * h) % h = j → z' l = z l)
    (hs : FftData B N M (· < nb * (2 * h)) z' s) :
    FftData B N M (· < nb * (2 * h)) (fun l => if l % (2 * h) % h = j then passValue N h z l else z' l)
      (loop 0 nb (fun b => butterfly N B.fftPorts (N.sinq j (2 * h)) (N.sinq (j + h / 2) (2 * h))
        (b * (2 * h) + j) (b * (2 * h) + j + h)) s).2 := by
  refine hs.loop_inPlace (owner := fun l => l / (2 * h))
    (fun l hl => Nat.div_lt_of_lt_mul (by rwa [Nat.mul_comm])) fun b z'' s hb agree hs => ?_
  have inside : (b + 1) * (2 * h) ≤ nb * (2 * h) := Nat.mul_le_mul_right _ hb
  rw [Nat.add_one_mul] at inside
  have keep : ∀ l, l / (2 * h) = b → z'' l = z' l := fun l hl => agree l hl.ge
  obtain ⟨lowBlock, lowColumn⟩ := column_of_low b hj
  obtain ⟨highBlock, highColumn⟩ := column_of_high b hj
  have low : z'' (b * (2 * h) + j) = z (b * (2 * h) + j) := (keep _ lowBlock).trans (hz _ lowColumn)
  have high : z'' (b * (2 * h) + (j + h)) = z (b * (2 * h) + (j + h)) := (keep _ highBlock).trans (hz _ highColumn)
  rw [Nat.add_assoc, butterfly_eq hB hs (by omega) (by omega), low, high]
  refine (hs.put_two hB (by omega) (by omega) _ _).mono fun l hl => ⟨hl, ?_⟩
  by_cases hit : l / (2 * h) = b ∧ l % (2 * h) % h = j
  · obtain ⟨own, column⟩ := hit
    rw [if_pos own, if_pos column]
    obtain ⟨_, -, rfl, place⟩ := column_cases (by omega : 0 < h) l
    rw [own, column] at place
    rcases place with rfl | rfl
    · rw [Function.update_of_ne (by omega), Function.update_self, passValue_low N z b hj]
      rfl
    · rw [Function.update_self, passValue_high N z b hj]
      rfl
  · have notLow : l ≠ b * (2 * h) + j := fun e => hit ⟨e ▸ lowBlock, e ▸ lowColumn⟩
    have notHigh : l ≠ b * (2 * h) + (j + h) := fun e => hit ⟨e ▸ highBlock, e ▸ highColumn⟩
    rw [Function.update_of_ne notHigh, Function.update_of_ne notLow]
    split_ifs with own column
    · exact absurd ⟨own, column⟩ hit
    · exact (keep l own).symm
    · rfl

/-- One pass of 40_fft.md R136 with half-span h, on the table for M = lf·2h (R135). -/
theorem fftPass_data (hN : SineScales N) {h q nb lf : Nat} (hh : h = 2 * q) (hq : 0 < q) (hlf : 0 < lf)
    (hM : M = lf * (2 * h)) (hs : FftData B N M (· < nb * (2 * h)) z s) :
    FftData B N M (· < nb * (2 * h)) (passValue N h z)
      (fftPass N B.fftPorts M (nb * (2 * h)) lf (2 * h) s).2 := by
  have span : 2 * h / 2 = h := by omega
  have blocks : nb * (2 * h) / (2 * h) = nb := Nat.mul_div_cancel _ (by omega)
  have quarter : M / 4 = lf * (h / 2) := by
    have e : M = 4 * (lf * q) := by rw [hM, hh]; ring
    have e' : h / 2 = q := by omega
    rw [e, e', Nat.mul_div_cancel_left _ (by decide)]
  rw [fftPass, span, blocks]
  refine hs.loop_inPlace (owner := fun l => l % (2 * h) % h) (fun l _ => Nat.mod_lt _ (by omega))
    fun j z' s hj agree hs => ?_
  have sine : N.sinq (j * lf) M = N.sinq j (2 * h) := by rw [hM, Nat.mul_comm j, hN hlf]
  have cosine : N.sinq (j * lf + M / 4) M = N.sinq (j + h / 2) (2 * h) := by
    rw [quarter, Nat.mul_comm j, ← Nat.mul_add]
    nth_rw 1 [hM]
    rw [hN hlf]
  have bound : j * lf + lf ≤ M / 2 := by
    have e : M / 2 = lf * h := by
      have : M = 2 * (lf * h) := by rw [hM]; ring
      rw [this, Nat.mul_div_cancel_left _ (by decide)]
    rw [e, ← Nat.add_one_mul, Nat.mul_comm lf]
    exact Nat.mul_le_mul_right lf hj
  have rounds := column_data hB (z := z) hj (fun l hl => agree l hl.ge) hs
  rw [← sine, ← cosine] at rounds
  rw [Bank.fftPorts_sin, (hs.table _ (by omega)).rd_bind, (hs.table _ (by omega)).rd_bind]
  exact rounds

end Pass

/-! ### From the passes to the decimation -/

theorem dif_congr (N : Numerics F) : ∀ (L : Nat) {x y : Nat → F × F} (k : Nat), (∀ j, j < 2 ^ L → x j = y j) →
    dif N L x k = dif N L y k
  | 0, _, _, _, h => h 0 (by decide)
  | 1, _, _, _, h => by simp only [dif, h 0 (by decide), h 1 (by decide)]
  | L + 2, x, y, k, h => by
    have half : 2 ^ (L + 2) = 2 ^ (L + 1) + 2 ^ (L + 1) := by rw [Nat.pow_succ]; omega
    have low : ∀ j, j < 2 ^ (L + 1) → x j = y j ∧ x (j + 2 ^ (L + 1)) = y (j + 2 ^ (L + 1)) :=
      fun j hj => ⟨h j (by omega), h _ (by omega)⟩
    rw [dif, dif]
    split_ifs
    · refine dif_congr N (L + 1) _ fun j hj => ?_
      obtain ⟨h1, h2⟩ := low j hj
      rw [butterflySum, butterflySum, h1, h2]
    · refine dif_congr N (L + 1) _ fun j hj => ?_
      obtain ⟨h1, h2⟩ := low j hj
      rw [butterflyDiff, butterflyDiff, h1, h2]

theorem dif_even (N : Numerics F) (L : Nat) (x : Nat → F × F) (k : Nat) :
    dif N (L + 2) x (2 * k) = dif N (L + 1) (butterflySum N (2 ^ (L + 1)) x) k := by
  rw [dif, if_pos (by omega), Nat.mul_div_cancel_left k (by decide)]

theorem dif_odd (N : Numerics F) (L : Nat) (x : Nat → F × F) (k : Nat) :
    dif N (L + 2) x (2 * k + 1) = dif N (L + 1) (butterflyDiff N (2 ^ (L + 1)) x) k := by
  rw [dif, if_neg (by omega), show (2 * k + 1) / 2 = k by omega]

/-- The transform of each block of length 2^l, in bit-reversed order: what the passes from block length 2^l on
leave in place. -/
def difBlocks (N : Numerics F) (l : Nat) (z : Nat → F × F) (i : Nat) : F × F :=
  dif N l (block (2 ^ l) z i) (bitrev i l)

theorem bitrev_one (i : Nat) : bitrev i 1 = i % 2 := by
  rw [bitrev_succ]
  simp [bitrev, bitrevFrom]

/-- The two halves of the block of element i, as blocks of half the length. -/
theorem half_block (z : Nat → F × F) {h j : Nat} (b : Nat) (hj : j < h) :
    ((b * (2 * h) + j) / h % 2 = 0 ∧ block h z (b * (2 * h) + j) = fun k => z (b * (2 * h) + k)) ∧
    ((b * (2 * h) + (j + h)) / h % 2 = 1 ∧
      block h z (b * (2 * h) + (j + h)) = fun k => z (b * (2 * h) + (k + h))) := by
  have low : b * (2 * h) + j = 2 * b * h + j := by ring
  have high : b * (2 * h) + (j + h) = (2 * b + 1) * h + j := by ring
  have quotient : ∀ c, (c * h + j) / h = c := fun c => by
    rw [Nat.add_comm, Nat.add_mul_div_right _ _ (by omega), Nat.div_eq_of_lt hj, Nat.zero_add]
  rw [low, high, block_of_lt z _ hj, block_of_lt z _ hj, quotient, quotient]
  refine ⟨⟨by omega, funext fun k => congrArg z (by ring)⟩, by omega, funext fun k => congrArg z (by ring)⟩

/-- The blocks of half the length, after the pass: one recursion of the decimation. -/
theorem difBlocks_passValue (N : Numerics F) (l : Nat) (z : Nat → F × F) (i : Nat) :
    difBlocks N (l + 1) (passValue N (2 ^ (l + 1)) z) i = difBlocks N (l + 2) z i := by
  have len : 2 ^ (l + 2) = 2 * 2 ^ (l + 1) := Nat.pow_succ'
  obtain ⟨j, hj, -, place⟩ := column_cases (Nat.two_pow_pos (l + 1)) i
  obtain ⟨⟨even, low⟩, odd, high⟩ := half_block (passValue N (2 ^ (l + 1)) z) (i / (2 * 2 ^ (l + 1))) hj
  rw [difBlocks, difBlocks, len, bitrev_succ i (l + 1)]
  generalize bitrev i (l + 1) = r
  generalize i / (2 * 2 ^ (l + 1)) = b at *
  rcases place with rfl | rfl
  · rw [even, Nat.add_zero (2 * r), dif_even, low, block_of_lt z b (by omega)]
    exact dif_congr N (l + 1) r fun k hk => passValue_low N z b hk
  · rw [odd, dif_odd, high, block_of_lt z b (by omega)]
    exact dif_congr N (l + 1) r fun k hk => passValue_high N z b hk

section Core

variable {B : Bank σ F} (hB : B.Lawful) {N : Numerics F} {M : Nat} {z z' : Nat → F × F} {s : σ}
include hB

/-- The final pass of 40_fft.md R138: the blocks of length 2. -/
theorem finalPass_data {nb : Nat} (hs : FftData B N M (· < nb * 2) z s) :
    FftData B N M (· < nb * 2) (difBlocks N 1 z) (finalPass N B.fftPorts (nb * 2) s).2 := by
  rw [finalPass, Nat.mul_div_cancel _ (by decide)]
  refine hs.loop_inPlace (owner := fun l => l / 2) (fun l hl => by omega) fun i z' s hi agree hs => ?_
  rw [finalPair_eq hB hs (by omega) (by omega)]
  refine (hs.put_two hB (by omega) (by omega) _ _).mono fun l hl => ⟨hl, ?_⟩
  by_cases own : l / 2 = i
  · have start : l / 2 * 2 = 2 * i := by omega
    rw [if_pos own, agree (2 * i) (by omega), agree (2 * i + 1) (by omega), difBlocks, bitrev_one, dif, block, block,
      Nat.pow_one, start]
    by_cases first : l % 2 = 0
    · rw [if_pos first, Function.update_of_ne (by omega), show l = 2 * i by omega, Function.update_self]
      rfl
    · rw [if_neg first, show l = 2 * i + 1 by omega, Function.update_self]
      rfl
  · rw [if_neg own, Function.update_of_ne (by omega), Function.update_of_ne (by omega)]

omit hB in
theorem fftPasses_stop (n fuel lf : Nat) : (fftPasses N B.fftPorts M n fuel lf 2 s).2 = s := by
  cases fuel <;> rfl

omit hB in
theorem fftPasses_succ (n fuel lf : Nat) {h : Nat} (hh : 1 < h) :
    fftPasses N B.fftPorts M n (fuel + 1) lf (2 * h) s =
      fftPasses N B.fftPorts M n fuel (2 * lf) h (fftPass N B.fftPorts M n lf (2 * h) s).2 := by
  rw [fftPasses, Nat.mul_div_cancel_left h (by decide), if_pos hh]
  rfl

/-- All passes of 40_fft.md R136 from block length 2^(l+1) on, the final one included. -/
theorem passes_data (hN : SineScales N) {l : Nat} : ∀ {nb fuel lf : Nat} {z : Nat → F × F} {s : σ}, l ≤ fuel →
    0 < lf → M = lf * 2 ^ (l + 1) → FftData B N M (· < nb * 2 ^ (l + 1)) z s →
    FftData B N M (· < nb * 2 ^ (l + 1)) (difBlocks N (l + 1) z)
      (finalPass N B.fftPorts (nb * 2 ^ (l + 1))
        (fftPasses N B.fftPorts M (nb * 2 ^ (l + 1)) fuel lf (2 ^ (l + 1)) s).2).2 := by
  induction l with
  | zero =>
    intro nb fuel lf z s _ _ _ hs
    rw [Nat.zero_add, Nat.pow_one] at hs ⊢
    rw [fftPasses_stop]
    exact finalPass_data hB hs
  | succ l ih =>
    intro nb fuel lf z s hfuel hlf hM hs
    obtain ⟨fuel, rfl⟩ : ∃ f, fuel = f + 1 := ⟨fuel - 1, by omega⟩
    have len : 2 ^ (l + 1 + 1) = 2 * 2 ^ (l + 1) := Nat.pow_succ'
    have more : 1 < 2 ^ (l + 1) := Nat.one_lt_two_pow (by omega)
    have halves : nb * (2 * 2 ^ (l + 1)) = nb * 2 * 2 ^ (l + 1) := (Nat.mul_assoc ..).symm
    rw [← funext (difBlocks_passValue N l z)]
    rw [len] at hM hs ⊢
    rw [fftPasses_succ _ _ _ more]
    have pass := fftPass_data hB hN (q := 2 ^ l) Nat.pow_succ' (Nat.two_pow_pos l) hlf hM hs
    rw [halves] at pass ⊢
    exact ih (by omega) (by omega) (by rw [hM]; ring) pass

/-! ### The bit reversal -/

omit hB in
theorem bitrev_bitrev {i L : Nat} (hi : i < 2 ^ L) : bitrev (bitrev i L) L = i := by
  refine Nat.eq_of_testBit_eq fun b => ?_
  by_cases hb : b < L
  · rw [testBit_bitrev _ L b hb, testBit_bitrev _ L _ (by omega)]
    congr 1; omega
  · have high : 2 ^ L ≤ 2 ^ b := Nat.pow_le_pow_right (by decide) (by omega)
    have small := (bitrevReversesBits (bitrev i L) L (bitrevReversesBits i L hi).2.1).2.1
    rw [Nat.testBit_lt_two_pow (hi.trans_le high), Nat.testBit_lt_two_pow (small.trans_le high)]

omit hB in
theorem swapElems_eq {b : Buffer} {i j : Nat} {x y : F} (hi : B.At b i x s) (hj : B.At b j y s) :
    (swapElems (B.port b) i j s).2 = ((B.port b).wr j x ((B.port b).wr i y s).2).2 := by
  rw [swapElems, hi.rd_bind, hj.rd_bind]
  rfl

/-- The exchange of two elements of a buffer. -/
theorem swapElems_at {b : Buffer} {D : Nat → Prop} {x : Nat → F} (h : ∀ l, D l → B.At b l (x l) s) {i j : Nat}
    (hi : D i) (hj : D j) (l : Nat) (hl : D l) :
    B.At b l (x (Equiv.swap i j l)) (swapElems (B.port b) i j s).2 := by
  have implemented := fun {l} hl => (h l hl).1
  rw [swapElems_eq (h i hi) (h j hj)]
  by_cases hlj : l = j
  · rw [hlj, Equiv.swap_apply_right]
    exact hB.same _ _ (implemented hj)
  refine hB.other _ (implemented hj) (.inr hlj) ?_
  by_cases hli : l = i
  · rw [hli, Equiv.swap_apply_left]
    exact hB.same _ _ (implemented hi)
  · rw [Equiv.swap_apply_of_ne_of_ne hli hlj]
    exact hB.other _ (implemented hi) (.inr hli) (h l hl)

theorem swapElems_other {b b' : Buffer} (hb : b' ≠ b) {i j k : Nat} {x y v : F} (hi : B.At b i x s)
    (hj : B.At b j y s) (h : B.At b' k v s) : B.At b' k v (swapElems (B.port b) i j s).2 := by
  rw [swapElems_eq hi hj]
  exact hB.other _ hj.1 (.inl hb) (hB.other _ hi.1 (.inl hb) h)

theorem FftData.swap {D : Nat → Prop} (h : FftData B N M D z s) {i j : Nat} (hi : D i) (hj : D j) :
    FftData B N M D (fun l => z (Equiv.swap i j l))
      (swapElems (B.port .imag) i j (swapElems (B.port .real) i j s).2).2 := by
  have im := fun {l} (hl : D l) => swapElems_other hB (by decide) (h.re i hi) (h.re j hj) (h.im l hl)
  have im_other := fun {b k v} (hb : b ≠ .imag) (hv : B.At b k v (swapElems (B.port .real) i j s).2) =>
    swapElems_other hB hb (im hi) (im hj) hv
  exact {
    table := fun l hl =>
      im_other (by decide) (swapElems_other hB (by decide) (h.re i hi) (h.re j hj) (h.table l hl))
    re := fun l hl => im_other (by decide) (swapElems_at hB (x := fun l => (z l).1) h.re hi hj l hl)
    im := swapElems_at hB (x := fun l => (z l).2) (fun _ => im) hi hj }

/-- The bit reversal of 40_fft.md R139. -/
theorem bitReversal_data {L : Nat} (hs : FftData B N M (· < 2 ^ L) z s) :
    FftData B N M (· < 2 ^ L) (fun l => z (bitrev l L)) (bitReversal B.fftPorts (2 ^ L) s).2 := by
  have bound : ∀ {l}, l < 2 ^ L → bitrev l L < 2 ^ L := fun {l} hl => (bitrevReversesBits l L hl).2.1
  rw [bitReversal, Nat.log2_two_pow]
  refine hs.loop_inPlace (owner := fun l => min l (bitrev l L)) (fun l hl => by omega) fun i z' s hi agree hs => ?_
  have back := bitrev_bitrev hi
  have partner : ∀ {l}, l < 2 ^ L → bitrev l L = i → l = bitrev i L := fun hl e => by rw [← e, bitrev_bitrev hl]
  split_ifs with less
  · refine (hs.swap hB hi (bound hi)).mono fun l hl => ⟨hl, ?_⟩
    by_cases hli : l = i
    · rw [hli, Equiv.swap_apply_left, if_pos (by omega), agree _ (by omega)]
    by_cases hlj : l = bitrev i L
    · rw [hlj, Equiv.swap_apply_right, if_pos (by omega), back, agree _ (by omega)]
    · have other := mt (partner hl) hlj
      rw [Equiv.swap_apply_of_ne_of_ne hli hlj, if_neg (by omega)]
  · refine hs.mono fun l hl => ⟨hl, ?_⟩
    split_ifs with own
    · have fixed : l = i ∧ bitrev i L = i := by
        by_cases hli : l = i
        · exact ⟨hli, by rw [hli] at own; omega⟩
        · have := partner hl (by omega)
          omega
      rw [fixed.1, fixed.2, agree i (by omega)]
    · rfl

/-- fft_core of 40_fft.md R136, on a table for any M that is a multiple of the length (R135). -/
theorem fftCore_data (hN : SineScales N) {L lf : Nat} (hlf : 0 < lf) (hM : M = lf * 2 ^ L)
    (hs : FftData B N M (· < 2 ^ L) z s) :
    FftData B N M (· < 2 ^ L) (dif N L z) (fftCore N B.fftPorts M (2 ^ L) s).2 := by
  cases L with
  | zero =>
    have identity : (fftCore N B.fftPorts M (2 ^ 0) s).2 = s := rfl
    rw [identity]
    refine hs.mono fun l hl => ⟨hl, ?_⟩
    rw [show l = 0 by omega]
    rfl
  | succ l =>
    have step : M / 2 ^ (l + 1) = lf := by rw [hM, Nat.mul_div_cancel _ (Nat.two_pow_pos _)]
    have passes := passes_data hB hN (nb := 1) (fuel := l + 1) (Nat.le_succ l) hlf hM (z := z) (s := s)
    rw [Nat.one_mul] at passes
    have reversed := bitReversal_data hB (passes hs)
    rw [fftCore, Nat.log2_two_pow, step]
    refine reversed.mono fun k hk => ⟨hk, ?_⟩
    have first : bitrev k (l + 1) / 2 ^ (l + 1) = 0 := Nat.div_eq_of_lt (bitrevReversesBits k _ hk).2.1
    rw [difBlocks, bitrev_bitrev hk]
    congr 1
    funext j
    rw [block, first, Nat.zero_mul, Nat.zero_add]

end Core

end Sys2Proof.Machine
end

section
/-!
PROOFS for 40_fft.md R141 to R146: the FFTR kernel on the same stores.
-/
namespace Sys2Proof.Machine

open Sys2Proof.Reference (dif splitValue realFft)

variable {σ F : Type} {B : Bank σ F} {N : Numerics F} {M : Nat} {z : Nat → F × F} {x : Nat → F} {s : σ}

/-- What step 1 of FFTR has done after `i` rounds: the even samples read so far stand in order at the front of REAL, the
odd ones in IMAG, and no sample still to be read is overwritten (40_fft.md R142). -/
structure Deinterleaving (B : Bank σ F) (N : Numerics F) (M m : Nat) (x : Nat → F) (i : Nat) (s : σ) : Prop where
  table : ∀ j, j < M - M / 4 + 1 → B.At .sintab j (N.sinq j M) s
  re : ∀ j, j < m → B.At .real j (if j < (i + 1) / 2 then x (2 * j) else x j) s
  im : ∀ j, j < i / 2 → B.At .imag j (x (2 * j + 1)) s

section Steps

variable (hB : B.Lawful)
include hB

theorem Deinterleaving.even {m i : Nat} (h : Deinterleaving B N M m x i s) (hi : i < m) (even : i % 2 = 0) :
    Deinterleaving B N M m x (i + 1) ((B.port .real).wr (i / 2) (x i) s).2 := by
  have target : B.implemented .real (i / 2) := (h.re (i / 2) (by omega)).1
  refine ⟨fun j hj => hB.other _ target (.inl (by decide)) (h.table j hj), fun j hj => ?_,
    fun j hj => hB.other _ target (.inl (by decide)) (h.im j (by omega))⟩
  by_cases e : j = i / 2
  · rw [if_pos (by omega), e, show 2 * (i / 2) = i by omega]
    exact hB.same _ _ target
  · have kept := hB.other (x i) target (.inr e) (h.re j hj)
    rwa [if_congr (by omega : j < (i + 1) / 2 ↔ j < (i + 1 + 1) / 2) rfl rfl] at kept

theorem Deinterleaving.odd {m i : Nat} (h : Deinterleaving B N M m x i s) (odd : i % 2 = 1)
    (target : B.implemented .imag ((i - 1) / 2)) :
    Deinterleaving B N M m x (i + 1) ((B.port .imag).wr ((i - 1) / 2) (x i) s).2 := by
  refine ⟨fun j hj => hB.other _ target (.inl (by decide)) (h.table j hj), fun j hj => ?_, fun j hj => ?_⟩
  · have kept := hB.other (x i) target (.inl (by decide)) (h.re j hj)
    rwa [if_congr (by omega : j < (i + 1) / 2 ↔ j < (i + 1 + 1) / 2) rfl rfl] at kept
  · by_cases e : j = (i - 1) / 2
    · rw [e, show 2 * ((i - 1) / 2) + 1 = i by omega]
      exact hB.same _ _ target
    · exact hB.other _ target (.inr e) (h.im j (by omega))

/-- Step 1 of FFTR (40_fft.md R142): what IMAG held before does not matter. -/
theorem deinterleave_data {h : Nat} (table : ∀ j, j < M - M / 4 + 1 → B.At .sintab j (N.sinq j M) s)
    (re : ∀ j, j < 2 * h → B.At .real j (x j) s) (implemented : ∀ j, j < h → B.implemented .imag j) :
    FftData B N M (· < h) (fun r => (x (2 * r), x (2 * r + 1))) (deinterleave B.fftPorts (2 * h) s).2 := by
  have start : Deinterleaving B N M (2 * h) x 0 s :=
    ⟨table, fun j hj => by rw [if_neg (by omega)]; exact re j hj, fun j hj => absurd hj (by omega)⟩
  have rounds := loop_invariant (I := Deinterleaving B N M (2 * h) x) (a := 0) (k := 2 * h)
    (f := fun i => do
      let v ← B.fftPorts.re.rd i
      if i % 2 = 0 then B.fftPorts.re.wr (i / 2) v else B.fftPorts.im.wr ((i - 1) / 2) v)
    (fun i s _ hi hs => by
      have read := hs.re i (by omega)
      have unread : (if i < (i + 1) / 2 then x (2 * i) else x i) = x i := by
        split_ifs with small
        · rw [show 2 * i = i by omega]
        · rfl
      rw [unread] at read
      rw [Bank.fftPorts_re, Bank.fftPorts_im, read.rd_bind]
      split_ifs with even
      · exact hs.even hB (by omega) even
      · exact hs.odd hB (by omega) (implemented _ (by omega))) start
  rw [Nat.zero_add] at rounds
  refine ⟨rounds.table, fun r hr => ?_, fun r hr => rounds.im r (by omega)⟩
  have front := rounds.re r (by omega)
  rwa [if_pos (by omega)] at front

/-! ### Split, end values and mirror -/

theorem splitRound_eq {D : Nat → Prop} {m t lf : Nat} (hN : SineScales N) (hlf : 0 < lf) (hM : M = lf * m)
    (four : 4 ∣ m) (h1 : D (m / 2 - t)) (h2 : D t) (low : 1 ≤ t) (high : t < m / 2)
    (target : B.implemented .real (m - t)) (h : FftData B N M D z s) :
    (splitRound N B.fftPorts M m t s).2 = B.put (m - t) (splitValue N m z t) s := by
  have step : M / m = lf := by rw [hM, Nat.mul_div_cancel _ (by omega)]
  have quarter : M / 4 = lf * (m / 4) := by rw [hM, Nat.mul_div_assoc _ four]
  have sine : N.sinq (t * lf) M = N.sinq t m := by rw [hM, Nat.mul_comm t, hN hlf]
  have cosine : N.sinq (t * lf + M / 4) M = N.sinq (t + m / 4) m := by
    rw [quarter, Nat.mul_comm t, ← Nat.mul_add, hM, hN hlf]
  have bound : t * lf ≤ M / 2 := by
    rw [hM, Nat.mul_div_assoc _ (by omega : 2 ∣ m), Nat.mul_comm t]
    exact Nat.mul_le_mul_left lf high.le
  have im := fun {l} (hl : D l) => h.im_after_re hB hl target
  simp only [splitRound, Bank.fftPorts_sin, Bank.fftPorts_re, Bank.fftPorts_im, step]
  rw [(h.table _ (by omega)).rd_bind, (h.table _ (by omega)).rd_bind, (h.im _ h1).rd_bind, (h.im _ h2).rd_bind,
    (h.re _ h2).rd_bind, (h.re _ h1).rd_bind, (h.re _ h2).rd_bind, (h.re _ h1).rd_bind, Bank.wr_bind,
    (im h1 _).rd_bind, (im h2 _).rd_bind, sine, cosine]
  rfl

/-- Step 3 of FFTR (40_fft.md R144): the upper half, from the transform in the lower half. -/
theorem split_data {L lf : Nat} (hN : SineScales N) (hlf : 0 < lf) (hM : M = lf * 2 ^ (L + 1))
    (implemented : ∀ j, j < 2 ^ (L + 1) → B.implemented .real j ∧ B.implemented .imag j)
    (h : FftData B N M (· < 2 ^ L) z s) :
    FftData B N M (fun l => l < 2 ^ L ∨ (2 ^ L < l ∧ l < 2 ^ (L + 1)))
      (fun l => if l < 2 ^ L then z l else splitValue N (2 ^ (L + 1)) z (2 ^ (L + 1) - l))
      (split N B.fftPorts M (2 ^ (L + 1)) s).2 := by
  have len : 2 ^ (L + 1) = 2 * 2 ^ L := Nat.pow_succ'
  have half : 2 ^ (L + 1) / 2 = 2 ^ L := by omega
  rw [split, half]
  have rounds := FftData.loop (D := fun t l => l < 2 ^ L ∨ (2 ^ (L + 1) - t < l ∧ l < 2 ^ (L + 1)))
    (owner := fun l => 2 ^ (L + 1) - l) (a := 1) (k := 2 ^ L - 1)
    (w := fun l => splitValue N (2 ^ (L + 1)) z (2 ^ (L + 1) - l))
    (f := fun t => splitRound N B.fftPorts M (2 ^ (L + 1)) t)
    (fun t z' s low high agree hs => by
      obtain ⟨real, imag⟩ := implemented (2 ^ (L + 1) - t) (by omega)
      have same : splitValue N (2 ^ (L + 1)) z' t = splitValue N (2 ^ (L + 1)) z t := by
        simp only [splitValue, half, agree t (by omega), agree (2 ^ L - t) (by omega)]
      have four : 4 ∣ 2 ^ (L + 1) := four_dvd_two_pow (by omega)
      rw [splitRound_eq hB hN hlf hM four (.inl (by omega)) (.inl (by omega)) low (by omega) real hs, same]
      refine (hs.put hB real imag _).mono fun l hl => ⟨by omega, ?_⟩
      simp only [Function.update_apply]
      by_cases own : l = 2 ^ (L + 1) - t
      · rw [if_pos (by omega), if_pos own, show 2 ^ (L + 1) - l = t by omega]
      · rw [if_neg (by omega), if_neg own])
    (h.mono fun l hl => ⟨by omega, rfl⟩)
  refine rounds.mono fun l hl => ⟨by omega, ?_⟩
  by_cases low : l < 2 ^ L
  · rw [if_pos low, if_neg (by omega)]
  · rw [if_neg low, if_pos (by omega)]

/-- The pairs of a spectrum with the real numbers `a` and `b` at indices 0 and h. -/
def withEnds (N : Numerics F) (h : Nat) (a b : F) (z : Nat → F × F) (l : Nat) : F × F :=
  if l = 0 then (a, N.zero) else if l = h then (b, N.zero) else z l

omit hB in
theorem FftData.ends {D : Nat → Prop} {h : Nat} {a b : F} (hs : FftData B N M (fun l => l = 0 ∨ l = h ∨ D l)
    (Function.update (Function.update z h (b, N.zero)) 0 (a, N.zero)) s) :
    FftData B N M (fun l => l = 0 ∨ l = h ∨ D l) (withEnds N h a b z) s :=
  hs.mono fun l hl => ⟨hl, by simp only [withEnds, Function.update_apply]⟩

/-- Step 3' of FFTR (40_fft.md R145). -/
theorem splitEnds_data {D : Nat → Prop} {h : Nat} (hh : h ≠ 0) (h0 : D 0) (realH : B.implemented .real h)
    (imagH : B.implemented .imag h) (hs : FftData B N M D z s) :
    FftData B N M (fun l => l = 0 ∨ l = h ∨ D l)
      (withEnds N h (N.add (z 0).1 (z 0).2) (N.sub (z 0).1 (z 0).2) z) (splitEnds N B.fftPorts h s).2 := by
  have after := hs.put hB realH imagH (N.sub (z 0).1 (z 0).2, N.zero)
  have re := after.re 0 (.inr h0)
  have im := after.im 0 (.inr h0)
  have both := after.put hB (hs.re 0 h0).1 (hs.im 0 h0).1 (N.add (z 0).1 (z 0).2, N.zero)
  rw [Function.update_of_ne hh.symm] at re im
  have run : (splitEnds N B.fftPorts h s).2 =
      B.put 0 (N.add (z 0).1 (z 0).2, N.zero) (B.put h (N.sub (z 0).1 (z 0).2, N.zero) s) := by
    simp only [splitEnds, Bank.fftPorts_re, Bank.fftPorts_im]
    rw [(hs.re 0 h0).rd_bind, (hs.im 0 h0).rd_bind, Bank.wr_bind, Bank.wr_bind]
    exact (congrArg Prod.snd (re.rd_bind _)).trans (congrArg Prod.snd (im.rd_bind _))
  rw [run]
  exact both.ends

/-- What the mirror of 40_fft.md R146 makes of the pairs of a spectrum of length m. -/
def mirroredBelow (N : Numerics F) (h m : Nat) (z : Nat → F × F) (l : Nat) : F × F :=
  if 1 ≤ l ∧ l < h then ((z (m - l)).1, N.neg (z (m - l)).2) else z l

/-- Step 4 of FFTR (40_fft.md R146). -/
theorem conjugateFill_data {h : Nat} (hh : 0 < h)
    (implemented : ∀ j, j < h → B.implemented .real j ∧ B.implemented .imag j)
    (hs : FftData B N M (fun l => l = 0 ∨ (h ≤ l ∧ l < 2 * h)) z s) :
    FftData B N M (· < 2 * h) (mirroredBelow N h (2 * h) z) (conjugateFill N B.fftPorts (2 * h) s).2 := by
  rw [conjugateFill, Nat.mul_div_cancel_left h (by decide)]
  have rounds := FftData.loop (D := fun i l => l < i ∨ (h ≤ l ∧ l < 2 * h)) (owner := id) (a := 1) (k := h - 1)
    (w := fun l => ((z (2 * h - l)).1, N.neg (z (2 * h - l)).2))
    (f := fun i => do
      B.fftPorts.re.wr i (← B.fftPorts.re.rd (2 * h - i))
      B.fftPorts.im.wr i (N.neg (← B.fftPorts.im.rd (2 * h - i))))
    (fun i z' s low high agree hs => by
      have source : 2 * h - i < i ∨ (h ≤ 2 * h - i ∧ 2 * h - i < 2 * h) := by omega
      obtain ⟨real, imag⟩ := implemented i (by omega)
      have im := hs.im_after_re hB source real (z' (2 * h - i)).1
      have old := agree (2 * h - i) (by simp only [id]; omega)
      have written := hs.put hB real imag ((z (2 * h - i)).1, N.neg (z (2 * h - i)).2)
      rw [Bank.fftPorts_re, Bank.fftPorts_im, (hs.re _ source).rd_bind, Bank.wr_bind, im.rd_bind, old]
      refine written.mono fun l hl => ⟨by omega, ?_⟩
      simp only [id, Function.update_apply]
      split_ifs with e <;> simp [e])
    (hs.mono fun l hl => ⟨by omega, rfl⟩)
  refine rounds.mono fun l hl => ⟨by omega, ?_⟩
  exact if_congr (by simp only [id]; omega) rfl rfl

omit hB in
/-- The outputs of FFTR, as its last three steps leave them. -/
theorem realFft_eq_mirroredBelow (N : Numerics F) (L : Nat) (x : Nat → F) {z : Nat → F × F}
    (hz : dif N L (fun r => (x (2 * r), x (2 * r + 1))) = z) {l : Nat} (hl : l < 2 ^ (L + 1)) :
    realFft N L x l = mirroredBelow N (2 ^ L) (2 ^ (L + 1))
      (withEnds N (2 ^ L) (N.add (z 0).1 (z 0).2) (N.sub (z 0).1 (z 0).2)
        fun l => if l < 2 ^ L then z l else splitValue N (2 ^ (L + 1)) z (2 ^ (L + 1) - l)) l := by
  have len : 2 ^ (L + 1) = 2 * 2 ^ L := Nat.pow_succ'
  have positive : 0 < 2 ^ L := Nat.two_pow_pos L
  simp only [realFft, hz]
  by_cases zero : l = 0
  · rw [if_pos zero, mirroredBelow, if_neg (by omega), withEnds, if_pos zero]
  rw [if_neg zero]
  by_cases middle : l = 2 ^ L
  · rw [if_pos middle, mirroredBelow, if_neg (by omega), withEnds, if_neg zero, if_pos middle]
  rw [if_neg middle]
  by_cases high : 2 ^ L < l
  · rw [if_pos high, mirroredBelow, if_neg (by omega), withEnds, if_neg zero, if_neg middle, if_neg (by omega)]
  · rw [if_neg high, mirroredBelow, if_pos (by omega), withEnds, if_neg (by omega), if_neg (by omega),
      if_neg (by omega), Nat.sub_sub_self hl.le]

/-- The effect of FFTR (40_fft.md R141 to R146). -/
theorem fftrCore_data {L lf : Nat} (hN : SineScales N) (hlf : 0 < lf) (hM : M = lf * 2 ^ (L + 1))
    (implemented : ∀ j, j < 2 ^ (L + 1) → B.implemented .real j ∧ B.implemented .imag j)
    (table : ∀ j, j < M - M / 4 + 1 → B.At .sintab j (N.sinq j M) s)
    (re : ∀ j, j < 2 ^ (L + 1) → B.At .real j (x j) s) :
    FftData B N M (· < 2 ^ (L + 1)) (realFft N L x) (fftrCore N B.fftPorts M (2 ^ (L + 1)) s).2 := by
  have len : 2 ^ (L + 1) = 2 * 2 ^ L := Nat.pow_succ'
  have positive : 0 < 2 ^ L := Nat.two_pow_pos L
  have half : 2 ^ (L + 1) / 2 = 2 ^ L := by omega
  obtain ⟨real, imag⟩ := implemented (2 ^ L) (by omega)
  have samples := deinterleave_data hB table (len ▸ re) fun j hj => (implemented j (by omega)).2
  rw [← len] at samples
  have transform := fftCore_data hB hN (L := L) (lf := lf * 2) (by omega) (by rw [hM, len]; ring) samples
  have upper := split_data hB hN hlf hM implemented transform
  have ends := splitEnds_data hB positive.ne' (.inl positive) real imag upper
  have mirror := conjugateFill_data hB positive (fun j hj => implemented j (by omega))
    (ends.mono fun l hl => ⟨by omega, rfl⟩)
  rw [← len] at mirror
  rw [fftrCore, half]
  refine mirror.mono fun l hl => ⟨hl, ?_⟩
  rw [realFft_eq_mirroredBelow N L x rfl hl, if_pos positive]

end Steps
end Sys2Proof.Machine
end

section
/-!
PROOFS for 40_fft.md R135 to R147 on the machine: FFT and FFTR compute the reference functions bit for bit.
-/
namespace Sys2Proof.Machine

open Sys2Proof.Reference (dif realFft)

/-! ### The machine's buffers as a store of the FFT kernel -/

/-- The machine's buffers, of a block with the parameters `c`. -/
def machineBank (c : Config) : Bank State Word where
  port := elemPort
  implemented b i := i < b.elements c

theorem machineBank_at {c : Config} {b : Buffer} {i : Nat} {y : Word} {s : State} :
    (machineBank c).At b i y s ↔ i < b.elements c ∧ s.elem? b i = some y := by
  refine and_congr_right fun _ => ⟨fun read => ?_, readElem_of_some s⟩
  change readElem b i s = (y, s) at read
  cases h : s.elem? b i with
  | some w =>
    rw [readElem_of_some s h] at read
    rw [(Prod.mk.inj read).1]
  | none =>
    rw [readElem_of_none s h] at read
    have draws := congrArg (fun p => p.2.draws) read
    simp at draws

theorem machineBank_lawful {c : Config} (hc : c.Legal) : (machineBank c).Lawful where
  same v s hi := machineBank_at.mpr ⟨hi, elem?_writeElem_same _ _ v s⟩
  other v hj hne h := by
    obtain ⟨hi, held⟩ := machineBank_at.mp h
    exact machineBank_at.mpr ⟨hi, (elem?_writeElem_other hc hi hj hne v _).trans held⟩

theorem binary32_sineScales : SineScales binary32 := fun hk p q => fSinq_scale hk p q

/-- What the invariant says of a constructed FFT unit: M is a multiple of every power of two up to it, and its
table is in place. -/
theorem State.Inv.fftUnit {s : State} (h : s.Inv) {L : Nat} (hL : 2 ^ L ≤ s.fftSize) :
    (∃ lf, 0 < lf ∧ s.fftSize = lf * 2 ^ L) ∧ s.fftSize ≤ s.cfg.mmax ∧
      ∀ j, j < s.fftSize - s.fftSize / 4 + 1 →
        (machineBank s.cfg).At .sintab j (binary32.sinq j s.fftSize) s := by
  obtain ⟨-, registers, -, sine, -⟩ := h
  have constructed : s.fftSize ≠ 0 := by have := Nat.two_pow_pos L; omega
  obtain ⟨-, -, hfft, -⟩ := id registers
  obtain ⟨pow2, -, high⟩ := hfft.resolve_left constructed
  obtain ⟨K, hK⟩ := (ispow2IsPowerOfTwo.1 _).mp pow2
  have hLK : L ≤ K := (Nat.pow_le_pow_iff_right (a := 2) (by decide)).mp (hK ▸ hL)
  refine ⟨⟨2 ^ (K - L), Nat.two_pow_pos _, ?_⟩, high, fun j hj =>
    machineBank_at.mpr ⟨sineEntry_lt registers constructed hj, sine constructed j hj⟩⟩
  rw [hK, ← Nat.pow_add, Nat.sub_add_cancel hLK]

/-- REAL and IMAG have M elements at least. -/
theorem implemented_of_le {c : Config} {n j : Nat} (hn : n ≤ c.mmax) (hj : j < n) :
    (machineBank c).implemented .real j ∧ (machineBank c).implemented .imag j :=
  ⟨hj.trans_le hn, hj.trans_le hn⟩

theorem elem?_of_written {s : State} {b : Buffer} {n j : Nat} (h : s.Written b 0 n) (hj : j < n) :
    s.elem? b j = some (s.elem b j) := by
  obtain ⟨w, hw⟩ := Option.isSome_iff_exists.mp (h j (Nat.zero_le j) hj)
  rw [State.elem, hw, Option.getD_some]

/-- What a command that ends in Ok leaves in REAL and IMAG is what its kernel left there. -/
theorem FftData.elem?_returnOk {c : Config} {N : Numerics Word} {M : Nat} {D : Nat → Prop} {z : Nat → Word × Word}
    {s : State} (h : FftData (machineBank c) N M D z s) (i : Nat) (hi : D i) :
    s.returnOk.elem? .real i = some (z i).1 ∧ s.returnOk.elem? .imag i = some (z i).2 :=
  ⟨(machineBank_at.mp (h.re i hi)).2, (machineBank_at.mp (h.im i hi)).2⟩

/-! ### FFT -/

/-- Settles O24: the kernel by `fftCore_data`. -/
theorem fftComputesDecimation : Obligations.FftComputesDecimation := by
  intro s L h good hL real imag
  obtain ⟨⟨lf, hlf, hM⟩, high, table⟩ := h.fftUnit hL
  have input : FftData (machineBank s.cfg) binary32 s.fftSize (· < 2 ^ L)
      (fun j => (s.elem .real j, s.elem .imag j)) s :=
    ⟨table, fun j hj => machineBank_at.mpr ⟨hj.trans_le (hL.trans high), elem?_of_written real hj⟩,
      fun j hj => machineBank_at.mpr ⟨hj.trans_le (hL.trans high), elem?_of_written imag hj⟩⟩
  have output : FftData _ _ _ _ _ (effect (fftCore binary32 fftPorts s.fftSize (2 ^ L)) s) :=
    fftCore_data (machineBank_lawful h.1) binary32_sineScales hlf hM input
  exact ⟨_, exec_fft_ok good hL, rfl, output.elem?_returnOk⟩

/-! ### FFTR -/

/-- The outputs of FFTR on samples `x`, whatever IMAG holds. -/
theorem fftr_output {s : State} (h : s.Inv) (good : s.isBad .fft = false) {L : Nat} (hL : 2 ^ (L + 1) ≤ s.fftSize)
    {x : Nat → Word} (hx : ∀ j, j < 2 ^ (L + 1) → s.elem? .real j = some (x j)) :
    ∃ t, exec (.fftr (2 ^ (L + 1)) (2 ^ (L + 1))) s = .next t ∧ t.result = 0#32 ∧ ∀ k, k < 2 ^ (L + 1) →
      t.elem? .real k = some (realFft binary32 L x k).1 ∧ t.elem? .imag k = some (realFft binary32 L x k).2 := by
  obtain ⟨⟨lf, hlf, hM⟩, high, table⟩ := h.fftUnit hL
  have output : FftData _ _ _ _ _ (effect (fftrCore binary32 fftPorts s.fftSize (2 ^ (L + 1))) s) :=
    fftrCore_data (machineBank_lawful h.1) binary32_sineScales hlf hM
      (fun j => implemented_of_le (hL.trans high)) table
      fun j hj => machineBank_at.mpr ⟨hj.trans_le (hL.trans high), hx j hj⟩
  exact ⟨_, exec_fftr_ok good (Nat.le_add_left 1 L) hL, rfl, output.elem?_returnOk⟩

/-- Settles O25: the kernel by `fftrCore_data`. -/
theorem fftrComputesRealSpectrum : Obligations.FftrComputesRealSpectrum :=
  fun _ _ h good hL written => fftr_output h good hL fun _ hj => elem?_of_written written hj

/-- Settles O26: both runs give the spectrum of the same samples. -/
theorem fftrDependsOnRealOnly : Obligations.FftrDependsOnRealOnly := by
  intro s s' L h h' good good' hL hL' written same
  have samples := fun j (hj : j < 2 ^ (L + 1)) => elem?_of_written written hj
  obtain ⟨t, run, -, output⟩ := fftr_output h good hL samples
  obtain ⟨t', run', -, output'⟩ := fftr_output h' good' hL' fun j hj => (same j hj).trans (samples j hj)
  refine ⟨t, t', run, run', fun k hk => ⟨?_, ?_⟩⟩
  · rw [(output k hk).1, (output' k hk).1]
  · rw [(output k hk).2, (output' k hk).2]

end Sys2Proof.Machine
end

section
/-!
PROOFS for 40_fft.md R145, R146, R153: the symmetry of FFTR's output on any data, words that nothing has written
included. The last two steps of FFTR make it, whatever the steps before them leave in the lower half.
-/
namespace Sys2Proof.Machine

variable {σ F : Type} {B : Bank σ F} {N : Numerics F} {M : Nat}

/-- A read, even one that uses up a free value, changes no element. -/
def Bank.Steady (B : Bank σ F) : Prop :=
  ∀ {b i y} {s : σ}, B.At b i y s → ∀ b' j, B.At b i y ((B.port b').rd j s).2

/-- What element `i` of a buffer holds before, it holds after. -/
def Bank.Kept (B : Bank σ F) (b : Buffer) (i : Nat) (s t : σ) : Prop := ∀ y, B.At b i y s → B.At b i y t

section Kept

variable (b : Buffer) (i : Nat)

theorem Bank.Kept.refl (s : σ) : B.Kept b i s s := fun _ => id

theorem Bank.Kept.trans (s t u : σ) (h : B.Kept b i s t) (h' : B.Kept b i t u) : B.Kept b i s u :=
  fun y hy => h' y (h y hy)

theorem reads_keep (hS : B.Steady) (b' : Buffer) : ReadsKeep (B.Kept b i) (B.port b') :=
  fun j _ _ h => hS h b' j

theorem writes_keep (hB : B.Lawful) {b' : Buffer} {A : Nat → Prop}
    (hA : ∀ j, A j → B.implemented b' j ∧ (b ≠ b' ∨ i ≠ j)) : WritesKeep (B.Kept b i) (B.port b') A :=
  fun j v hj _ _ h => hB.other v (hA j hj).1 (hA j hj).2 h

end Kept

section AnyData

variable (hB : B.Lawful) (hS : B.Steady)
include hB hS

/-- A round of the split writes its pair, whatever it reads. -/
theorem splitRound_writes {m t : Nat} (real : B.implemented .real (m - t)) (imag : B.implemented .imag (m - t))
    (s : σ) :
    (∃ a, B.At .real (m - t) a (splitRound N B.fftPorts M m t s).2) ∧
      ∃ b, B.At .imag (m - t) b (splitRound N B.fftPorts M m t s).2 :=
  ⟨⟨_, hB.other _ imag (.inl (by decide)) (hS (hS (hB.same _ _ real) _ _) _ _)⟩, _, hB.same _ _ imag⟩

/-- The end values are written, the imaginary ones as +0, whatever index 0 held. -/
theorem splitEnds_writes {h : Nat} (hh : h ≠ 0)
    (implemented : ∀ b ∈ [Buffer.real, .imag], ∀ i ∈ [0, h], B.implemented b i) (s : σ) : (∃ a, B.At .real 0 a (splitEnds N B.fftPorts h s).2) ∧
      (∃ b, B.At .real h b (splitEnds N B.fftPorts h s).2) ∧
      B.At .imag 0 N.zero (splitEnds N B.fftPorts h s).2 ∧ B.At .imag h N.zero (splitEnds N B.fftPorts h s).2 := by
  have real0 := implemented .real (by decide) 0 (by simp)
  have imag0 := implemented .imag (by decide) 0 (by simp)
  have realH := implemented .real (by decide) h (by simp)
  have imagH := implemented .imag (by decide) h (by simp)
  have re0 : ∃ a, B.At .real 0 a (splitEnds N B.fftPorts h s).2 :=
    ⟨_, hB.other _ imag0 (.inl (by decide)) (hB.same _ _ real0)⟩
  have reH : ∃ b, B.At .real h b (splitEnds N B.fftPorts h s).2 :=
    ⟨_, hB.other _ imag0 (.inl (by decide)) (hB.other _ real0 (.inr hh)
      (hS (hS (hB.other _ imagH (.inl (by decide)) (hB.same _ _ realH)) _ _) _ _))⟩
  exact ⟨re0, reH, hB.same _ _ imag0,
    hB.other _ imag0 (.inr hh) (hB.other _ real0 (.inl (by decide)) (hS (hS (hB.same _ _ imagH) _ _) _ _))⟩

section Spectrum

variable {h : Nat} (hh : 0 < h) (implemented : ∀ j, j < 2 * h → B.implemented .real j ∧ B.implemented .imag j)
include implemented

omit hS in
/-- Writes to the first 2h elements of REAL and IMAG but element i keep element i of every buffer. -/
theorem dataWrites_keep (b : Buffer) (i : Nat) :
    WritesKeep (B.Kept b i) B.fftPorts.re (fun j => j < 2 * h ∧ i ≠ j) ∧
      WritesKeep (B.Kept b i) B.fftPorts.im (fun j => j < 2 * h ∧ i ≠ j) :=
  ⟨writes_keep b i hB fun j hj => ⟨(implemented j hj.1).1, .inr hj.2⟩,
    writes_keep b i hB fun j hj => ⟨(implemented j hj.1).2, .inr hj.2⟩⟩

theorem split_writes {t : Nat} (low : 1 ≤ t) (high : t < h) (s : σ) :
    (∃ a, B.At .real (2 * h - t) a (split N B.fftPorts M (2 * h) s).2) ∧
      ∃ b, B.At .imag (2 * h - t) b (split N B.fftPorts M (2 * h) s).2 := by
  have later : ∀ (b : Buffer) (t t' : Nat) (s : σ), t < t' → t' < h →
      B.Kept b (2 * h - t) s (splitRound N B.fftPorts M (2 * h) t' s).2 := fun b t t' s h1 h2 => by
    obtain ⟨wr, wi⟩ := dataWrites_keep hB implemented b (2 * h - t)
    exact splitRound_keeps (Bank.Kept.refl _ _) (Bank.Kept.trans _ _) N (reads_keep _ _ hS _) (reads_keep _ _ hS _)
      (reads_keep _ _ hS _) wr wi ⟨by omega, by omega⟩ s
  refine loop_establishes (a := 1) (k := 2 * h / 2 - 1) (p := fun t s => 1 ≤ t →
    (∃ a, B.At .real (2 * h - t) a s) ∧ ∃ b, B.At .imag (2 * h - t) b s) (fun t s ht low => ?_)
    (fun t t' s h1 h2 h low => ?_) s low (by omega) low
  · obtain ⟨real, imag⟩ := implemented (2 * h - t) (by omega)
    exact splitRound_writes hB hS real imag s
  · obtain ⟨⟨a, ha⟩, b, hb⟩ := h low
    exact ⟨⟨a, later _ t t' s h1 (by omega) a ha⟩, b, later _ t t' s h1 (by omega) b hb⟩

include hh

/-- The upper half as the split leaves it outlives the end values. -/
theorem splitEnds_keeps_upper {l : Nat} (low : h < l) (b : Buffer) (s : σ) :
    B.Kept b l s (splitEnds N B.fftPorts h s).2 := by
  obtain ⟨wr, wi⟩ := dataWrites_keep hB implemented b l
  exact splitEnds_keeps (Bank.Kept.refl _ _) (Bank.Kept.trans _ _) N (reads_keep _ _ hS _) (reads_keep _ _ hS _)
    wr wi ⟨by omega, by omega⟩ ⟨by omega, by omega⟩ s

/-- Before the mirror step of FFTR the upper half and the end values are written. -/
theorem upperHalf_written {s t : σ}
    (ht : t = (splitEnds N B.fftPorts h (split N B.fftPorts M (2 * h) s).2).2) : ∃ z : Nat → F × F,
    (∀ l, (l = 0 ∨ (h ≤ l ∧ l < 2 * h)) → B.At .real l (z l).1 t ∧ B.At .imag l (z l).2 t) ∧
    (z 0).2 = N.zero ∧ (z h).2 = N.zero := by
  have implementedAt : ∀ b ∈ [Buffer.real, .imag], ∀ i ∈ [0, h], B.implemented b i := by
    obtain ⟨real0, imag0⟩ := implemented 0 (by omega)
    obtain ⟨realH, imagH⟩ := implemented h (by omega)
    simp [real0, imag0, realH, imagH]
  obtain ⟨⟨a, real0⟩, ⟨b, realH⟩, imag0, imagH⟩ := ht ▸ splitEnds_writes (N := N) hB hS hh.ne' implementedAt
    (split N B.fftPorts M (2 * h) s).2
  have upper : ∀ l, h < l → l < 2 * h → ∃ v : F × F, B.At .real l v.1 t ∧ B.At .imag l v.2 t := fun l low high => by
    obtain ⟨⟨a, ha⟩, b, hb⟩ := split_writes (N := N) (M := M) hB hS implemented (t := 2 * h - l) (by omega) (by omega) s
    rw [Nat.sub_sub_self high.le] at ha hb
    exact ⟨(a, b), ht ▸ splitEnds_keeps_upper hB hS hh implemented low _ _ a ha,
      ht ▸ splitEnds_keeps_upper hB hS hh implemented low _ _ b hb⟩
  have values : ∀ l, ∃ v : F × F, ((l = 0 ∨ (h ≤ l ∧ l < 2 * h)) → B.At .real l v.1 t ∧ B.At .imag l v.2 t) ∧
      (l = 0 ∨ l = h → v.2 = N.zero) := fun l => by
    by_cases zero : l = 0
    · exact ⟨(a, N.zero), fun _ => zero ▸ ⟨real0, imag0⟩, fun _ => rfl⟩
    by_cases middle : l = h
    · exact ⟨(b, N.zero), fun _ => middle ▸ ⟨realH, imagH⟩, fun _ => rfl⟩
    by_cases inside : h < l ∧ l < 2 * h
    · obtain ⟨v, hv⟩ := upper l inside.1 inside.2
      exact ⟨v, fun _ => hv, by omega⟩
    · exact ⟨(N.zero, N.zero), by omega, fun _ => rfl⟩
  choose z hz using values
  exact ⟨z, fun l => (hz l).1, (hz 0).2 (.inl rfl), (hz h).2 (.inr rfl)⟩

/-- The steps of FFTR before the mirror keep the table. -/
theorem sine_kept_before_mirror (i : Nat) (s : σ) :
    B.Kept .sintab i s (splitEnds N B.fftPorts h (split N B.fftPorts M (2 * h) (fftCore N B.fftPorts M h
      (deinterleave B.fftPorts (2 * h) s).2).2).2).2 := by
  have rs := reads_keep .sintab i hS .sintab
  have rr := reads_keep .sintab i hS .real
  have ri := reads_keep .sintab i hS .imag
  have wr : WritesKeep (B.Kept .sintab i) B.fftPorts.re (· < 2 * h) :=
    writes_keep .sintab i hB fun j hj => ⟨(implemented j hj).1, .inl (by decide)⟩
  have wi : WritesKeep (B.Kept .sintab i) B.fftPorts.im (· < 2 * h) :=
    writes_keep .sintab i hB fun j hj => ⟨(implemented j hj).2, .inl (by decide)⟩
  have refl := Bank.Kept.refl (B := B) .sintab i
  have trans := Bank.Kept.trans (B := B) .sintab i
  have samples := deinterleave_keeps refl trans rr wr wi (m := 2 * h) fun _ => id
  have transform := fftCore_keeps refl trans N rs rr ri wr wi (M := M) (n := h) fun j hj => by omega
  have upper : Keeps _ (split N B.fftPorts M (2 * h)) := keeps_loop refl trans fun t _ _ =>
    splitRound_keeps refl trans N rs rr ri wr wi (by omega)
  have ends := splitEnds_keeps refl trans N rr ri wr wi (h := h) (by omega) (by omega)
  exact trans _ _ _ (samples s) (trans _ _ _ (transform _) (trans _ _ _ (upper _) (ends _)))

/-- On any data FFTR leaves a spectrum that its mirror step has made symmetric, with imaginary parts +0 at 0 and h. -/
theorem fftrCore_mirrors {s : σ} (table : ∀ j, j < M - M / 4 + 1 → B.At .sintab j (N.sinq j M) s) :
    ∃ z : Nat → F × F,
      FftData B N M (· < 2 * h) (mirroredBelow N h (2 * h) z) (fftrCore N B.fftPorts M (2 * h) s).2 ∧
      (z 0).2 = N.zero ∧ (z h).2 = N.zero := by
  obtain ⟨z, written, ends⟩ := upperHalf_written (N := N) (M := M) hB hS hh implemented rfl
  have kept := fun i => sine_kept_before_mirror (N := N) (M := M) hB hS hh implemented i s
  have output := conjugateFill_data hB hh (fun j hj => implemented j (by omega))
    ⟨fun j hj => kept j _ (table j hj), fun l hl => (written l hl).1, fun l hl => (written l hl).2⟩
  rw [fftrCore, Nat.mul_div_cancel_left h (by decide)]
  exact ⟨z, output, ends⟩

end Spectrum

end AnyData

theorem machineBank_steady {c : Config} : (machineBank c).Steady := fun {b i y s} h b' j => by
  obtain ⟨hi, held⟩ := machineBank_at.mp h
  refine machineBank_at.mpr ⟨hi, ?_⟩
  obtain e | e := readElem_cases s b' j
  · exact (congrArg (State.elem? · b i) e).trans held
  · exact (congrArg (State.elem? · b i) e).trans held

/-- Settles O27: the mirror step copies the upper half, which no later write touches (`fftrCore_mirrors`). -/
theorem fftrOutputMirrors : Obligations.FftrOutputMirrors := by
  intro s L h good hL
  have len : 2 ^ (L + 1) = 2 * 2 ^ L := Nat.pow_succ'
  have positive := Nat.two_pow_pos L
  obtain ⟨-, high, table⟩ := h.fftUnit hL
  obtain ⟨z, output, zero, middle⟩ := fftrCore_mirrors (machineBank_lawful h.1) machineBank_steady positive
    (fun j hj => implemented_of_le (len ▸ hL.trans high) hj) table
  replace output : FftData _ _ _ _ _ (effect (fftrCore binary32 fftPorts s.fftSize (2 * 2 ^ L)) s) := output
  have run := exec_fftr_ok good (Nat.le_add_left 1 L) hL
  rw [len] at run ⊢
  have upper : ∀ l, (l = 0 ∨ 2 ^ L ≤ l) → mirroredBelow binary32 (2 ^ L) (2 * 2 ^ L) z l = z l :=
    fun l hl => if_neg (by omega)
  have lower : ∀ l, 1 ≤ l → l < 2 ^ L → mirroredBelow binary32 (2 ^ L) (2 * 2 ^ L) z l =
    ((z (2 * 2 ^ L - l)).1, fNeg (z (2 * 2 ^ L - l)).2) := fun l h1 h2 => if_pos ⟨h1, h2⟩
  refine ⟨_, run, ?_, ?_, fun i h1 h2 => ⟨(z (2 * 2 ^ L - i)).1, (z (2 * 2 ^ L - i)).2, ?_⟩⟩
  · have := (output.elem?_returnOk 0 (by omega)).2
    rwa [upper 0 (.inl rfl), zero] at this
  · have := (output.elem?_returnOk (2 ^ L) (by omega)).2
    rwa [upper _ (.inr le_rfl), middle] at this
  · obtain ⟨realHigh, imagHigh⟩ := output.elem?_returnOk (2 * 2 ^ L - i) (by omega)
    obtain ⟨realLow, imagLow⟩ := output.elem?_returnOk i (by omega)
    rw [upper _ (.inr (by omega))] at realHigh imagHigh
    rw [lower i h1 h2] at realLow imagLow
    exact ⟨realHigh, realLow, imagHigh, imagLow⟩

end Sys2Proof.Machine
end

section
/-!
PROOFS for 40_fft.md R152: the real impulse in binary32. A zero of either sign, times any finite word, is a zero again,
so the table's words never show in the spectrum.
-/
namespace Sys2Proof.Machine

open Sys2Proof.Ideal (FiniteWord)
open Sys2Proof.Reference (butterflySum butterflyDiff dif splitValue realFft)

/-- +0 or −0. -/
def ZeroWord (w : Word) : Prop := w = 0x00000000#32 ∨ w = 0x80000000#32

theorem zeroWord_plus : ZeroWord 0x00000000#32 := .inl rfl

section Arithmetic

variable {a b : Word}

theorem ZeroWord.finite (h : ZeroWord a) : FiniteWord a := by
  obtain rfl | rfl := h <;> decide

theorem ZeroWord.units (h : ZeroWord a) : Machine.units a = 0 := by
  obtain rfl | rfl := h <;> decide

theorem ZeroWord.add (ha : ZeroWord a) (hb : ZeroWord b) : ZeroWord (fAdd a b) := by
  obtain rfl | rfl := ha <;> obtain rfl | rfl := hb <;> unfold ZeroWord <;> decide

theorem ZeroWord.neg (ha : ZeroWord a) : ZeroWord (fNeg a) := by
  obtain rfl | rfl := ha <;> unfold ZeroWord <;> decide

theorem ZeroWord.sub (ha : ZeroWord a) (hb : ZeroWord b) : ZeroWord (fSub a b) := ha.add hb.neg

/-- A finite word times a zero is a zero. -/
theorem ZeroWord.mul (ha : FiniteWord a) (hb : ZeroWord b) : ZeroWord (fMul a b) := by
  rw [fMul_finite ha hb.finite, hb.units, Nat.mul_zero]
  cases signBit a != signBit b <;> unfold ZeroWord <;> decide

/-- 1.0 and 2.0 absorb zeros. -/
theorem add_zeroWord (ha : a = 0x3F800000#32 ∨ a = 0x40000000#32) (hb : ZeroWord b) : fAdd a b = a := by
  obtain rfl | rfl := ha <;> obtain rfl | rfl := hb <;> decide

theorem sub_zeroWord (ha : a = 0x3F800000#32 ∨ a = 0x40000000#32) (hb : ZeroWord b) : fSub a b = a :=
  add_zeroWord ha hb.neg

end Arithmetic

theorem finite_fSinq (p : Nat) {q : Nat} (hq : 0 < q) : FiniteWord (fSinq p q) := (fSinq_error hq).1

/-- The pair 1.0 and a zero: every element of the impulse's spectrum. -/
def UnitPair (v : Word × Word) : Prop := v.1 = 0x3F800000#32 ∧ ZeroWord v.2

/-- A pair of zeros. -/
def ZeroPair (v : Word × Word) : Prop := ZeroWord v.1 ∧ ZeroWord v.2

section Pairs

variable {v w : Word × Word}

theorem UnitPair.sum (hv : UnitPair v) (hw : ZeroPair w) : UnitPair (pairSum binary32 v w) :=
  ⟨(add_zeroWord (.inl hv.1) hw.1).trans hv.1, hv.2.add hw.2⟩

theorem UnitPair.diff (hv : UnitPair v) (hw : ZeroPair w) : UnitPair (pairDiff binary32 v w) :=
  ⟨(sub_zeroWord (.inl hv.1) hw.1).trans hv.1, hv.2.sub hw.2⟩

theorem ZeroPair.sum (hv : ZeroPair v) (hw : ZeroPair w) : ZeroPair (pairSum binary32 v w) :=
  ⟨hv.1.add hw.1, hv.2.add hw.2⟩

theorem ZeroPair.diff (hv : ZeroPair v) (hw : ZeroPair w) : ZeroPair (pairDiff binary32 v w) :=
  ⟨hv.1.sub hw.1, hv.2.sub hw.2⟩

theorem ZeroPair.turned {s c : Word} (hs : FiniteWord s) (hc : FiniteWord c) (hv : ZeroPair v) :
    ZeroPair (turned binary32 s c v) :=
  ⟨(ZeroWord.mul hc hv.1).add (ZeroWord.mul hs hv.2), (ZeroWord.mul hc hv.2).sub (ZeroWord.mul hs hv.1)⟩

/-- No turn at all: sine +0, cosine 1.0. -/
theorem UnitPair.turned (hv : UnitPair v) : UnitPair (turned binary32 0x00000000#32 0x3F800000#32 v) := by
  have one : fMul 0x3F800000#32 v.1 = 0x3F800000#32 := by rw [hv.1]; decide
  have zero : fMul 0x00000000#32 v.1 = 0x00000000#32 := by rw [hv.1]; decide
  have re : ZeroWord (fMul 0x00000000#32 v.2) := ZeroWord.mul (by decide) hv.2
  have im : ZeroWord (fMul 0x3F800000#32 v.2) := ZeroWord.mul (by decide) hv.2
  exact ⟨(add_zeroWord (.inl one) re).trans one, im.sub (.inl zero)⟩

end Pairs

/-- The unit impulse of length n. -/
def Impulse (n : Nat) (x : Nat → Word × Word) : Prop := UnitPair (x 0) ∧ ∀ j, 0 < j → j < n → ZeroPair (x j)

theorem Impulse.butterflySum {h : Nat} (hh : 0 < h) {x : Nat → Word × Word} (hx : Impulse (2 * h) x) :
    Impulse h (butterflySum binary32 h x) :=
  ⟨hx.1.sum (hx.2 _ (by omega) (by omega)), fun j h1 h2 =>
    (hx.2 j h1 (by omega)).sum (hx.2 _ (by omega) (by omega))⟩

/-- The difference half of a butterfly is the difference of its pairs, turned. -/
theorem butterflyDiff_eq {F : Type} (N : Numerics F) (h : Nat) (x : Nat → F × F) (j : Nat) :
    Reference.butterflyDiff N h x j =
      turned N (N.sinq j (2 * h)) (N.sinq (j + h / 2) (2 * h)) (pairDiff N (x j) (x (j + h))) := rfl

theorem Impulse.butterflyDiff {h : Nat} (hh : 0 < h) (even : 2 ∣ h) {x : Nat → Word × Word}
    (hx : Impulse (2 * h) x) : Impulse h (butterflyDiff binary32 h x) := by
  have sine : binary32.sinq 0 (2 * h) = 0x00000000#32 := fSinq_zero (2 * h)
  have cosine : binary32.sinq (0 + h / 2) (2 * h) = 0x3F800000#32 := by
    rw [show 0 + h / 2 = 2 * h / 4 by omega]
    exact (sineDependsOnFractionOnly.2.2.1 (2 * h) (by omega) (by omega)).1
  refine ⟨?_, fun j h1 h2 => ?_⟩
  · rw [butterflyDiff_eq, sine, cosine]
    exact (hx.1.diff (hx.2 (0 + h) (by omega) (by omega))).turned
  · rw [butterflyDiff_eq]
    exact ((hx.2 j h1 (by omega)).diff (hx.2 _ (by omega) (by omega))).turned (finite_fSinq j (by omega))
      (finite_fSinq (j + h / 2) (by omega))

/-- The transform of the impulse is flat. -/
theorem dif_impulse : ∀ (L : Nat) {x : Nat → Word × Word}, Impulse (2 ^ L) x → ∀ k, UnitPair (dif binary32 L x k)
  | 0, _, hx, _ => hx.1
  | 1, _, hx, k => by
    have last := hx.2 1 (by decide) (by decide)
    rw [dif]
    split_ifs
    · exact hx.1.sum last
    · exact hx.1.diff last
  | L + 2, _, hx, k => by
    have positive := Nat.two_pow_pos (L + 1)
    rw [show 2 ^ (L + 2) = 2 * 2 ^ (L + 1) from Nat.pow_succ'] at hx
    rw [dif]
    split_ifs
    · exact dif_impulse (L + 1) (hx.butterflySum positive) _
    · exact dif_impulse (L + 1) (hx.butterflyDiff positive (Dvd.intro_left _ rfl)) _

theorem splitValue_flat {m : Nat} (hm : 0 < m) {z : Nat → Word × Word} (hz : ∀ k, UnitPair (z k)) (t : Nat) :
    UnitPair (splitValue binary32 m z t) := by
  obtain ⟨re, im⟩ := hz t
  obtain ⟨re', im'⟩ := hz (m / 2 - t)
  have two : fAdd (z t).1 (z (m / 2 - t)).1 = 0x40000000#32 := by rw [re, re']; decide
  have tr : ZeroWord (fSub (z t).1 (z (m / 2 - t)).1) := by rw [re, re']; exact .inl (by decide)
  have ti := im'.add im
  have s := finite_fSinq t hm
  have c := finite_fSinq (t + m / 4) hm
  have imaginary := ((im'.sub im).add (ZeroWord.mul s ti)).add (ZeroWord.mul c tr)
  refine ⟨?_, ZeroWord.mul (by decide) imaginary⟩
  show fMul fHalf (fSub (fAdd (fAdd (z t).1 (z (m / 2 - t)).1)
    (fMul (fSinq (t + m / 4) m) (fAdd (z (m / 2 - t)).2 (z t).2)))
    (fMul (fSinq t m) (fSub (z t).1 (z (m / 2 - t)).1))) = _
  rw [two, add_zeroWord (.inr rfl) (ZeroWord.mul c ti), sub_zeroWord (.inr rfl) (ZeroWord.mul s tr)]
  decide

theorem realFft_impulse {L : Nat} {x : Nat → Word} (first : x 0 = 0x3F800000#32)
    (rest : ∀ i, 1 ≤ i → i < 2 ^ (L + 1) → x i = 0x00000000#32) (k : Nat) : UnitPair (realFft binary32 L x k) := by
  have len : 2 ^ (L + 1) = 2 * 2 ^ L := Nat.pow_succ'
  have positive := Nat.two_pow_pos L
  have zero : ∀ i, 1 ≤ i → i < 2 ^ (L + 1) → ZeroWord (x i) := fun i h1 h2 => .inl (rest i h1 h2)
  have samples : Impulse (2 ^ L) fun r => (x (2 * r), x (2 * r + 1)) :=
    ⟨⟨first, zero 1 le_rfl (by omega)⟩, fun j h1 h2 => ⟨zero _ (by omega) (by omega), zero _ (by omega) (by omega)⟩⟩
  have flat := dif_impulse L samples
  have split := splitValue_flat (Nat.two_pow_pos (L + 1)) flat
  obtain ⟨re, im⟩ := flat 0
  simp only [realFft]
  split_ifs
  · exact ⟨(add_zeroWord (.inl re) im).trans re, zeroWord_plus⟩
  · exact ⟨(sub_zeroWord (.inl re) im).trans re, zeroWord_plus⟩
  · exact split _
  · exact ⟨(split k).1, (split k).2.neg⟩

/-- Settles O28: the spectrum by `fftr_output`, flat by `realFft_impulse`. -/
theorem fftrOfImpulseIsFlat : Obligations.FftrOfImpulseIsFlat := by
  intro s L h good hL first rest
  have samples : ∀ j, j < 2 ^ (L + 1) → s.elem? .real j = some (if j = 0 then 0x3F800000#32 else 0x00000000#32) :=
    fun j hj => by
      split_ifs with zero
      · rw [zero, first]
      · exact rest j (by omega) hj
  obtain ⟨t, run, ok, output⟩ := fftr_output h good hL samples
  refine ⟨t, run, ok, fun k hk => ?_⟩
  obtain ⟨re, im⟩ := output k hk
  obtain ⟨one, zero⟩ := realFft_impulse (L := L) (x := fun j => if j = 0 then 0x3F800000#32 else 0x00000000#32)
    (if_pos rfl) (fun i h1 _ => if_neg (by omega)) k
  rw [re, im, one]
  exact ⟨rfl, zero.imp (congrArg some) (congrArg some)⟩

end Sys2Proof.Machine
end

section
/-!
PROOFS for 40_fft.md R150, R151: with real numbers the decimation is the forward DFT, and the outputs of FFTR are the
DFT of a real sequence.
-/
namespace Sys2Proof.Ideal

open Sys2Proof.Machine
open Sys2Proof.Reference (butterflyDiff dif splitValue realFft)
open scoped ComplexConjugate

/-! ### Roots of unity -/

/-- e^(−2πi·e/n), the turn by e parts of n. -/
noncomputable def unitRoot (n e : Nat) : ℂ := Complex.exp (-2 * Real.pi * Complex.I * e / n)

theorem forwardDft_eq (n : Nat) (z : Nat → ℂ) (k : Nat) :
    forwardDft n z k = ∑ j ∈ Finset.range n, z j * unitRoot n (j * k) := by
  refine Finset.sum_congr rfl fun j _ => ?_
  rw [unitRoot, Nat.cast_mul, ← mul_assoc]

theorem unitRoot_zero (n : Nat) : unitRoot n 0 = 1 := by simp [unitRoot]

theorem unitRoot_add (n a b : Nat) : unitRoot n (a + b) = unitRoot n a * unitRoot n b := by
  rw [unitRoot, unitRoot, unitRoot, ← Complex.exp_add, Nat.cast_add]
  congr 1
  ring

theorem unitRoot_mul_mul {c : Nat} (hc : 0 < c) (n e : Nat) : unitRoot (c * n) (c * e) = unitRoot n e := by
  have hc' : (c : ℂ) ≠ 0 := Nat.cast_ne_zero.mpr hc.ne'
  rw [unitRoot, unitRoot, Nat.cast_mul, Nat.cast_mul, mul_left_comm, mul_div_mul_left _ _ hc']

/-- Whole turns do nothing. -/
theorem unitRoot_turns {n : Nat} (hn : 0 < n) (a : Nat) : unitRoot n (n * a) = 1 := by
  have e := unitRoot_mul_mul hn 1 a
  rw [Nat.mul_one] at e
  rw [e, unitRoot, Complex.exp_eq_one_iff]
  exact ⟨-a, by push_cast; ring⟩

theorem unitRoot_half {h : Nat} (hh : 0 < h) : unitRoot (2 * h) h = -1 := by
  have e := unitRoot_mul_mul hh 2 1
  rw [Nat.mul_one, Nat.mul_comm] at e
  rw [e, unitRoot, ← Complex.exp_neg_pi_mul_I]
  congr 1
  push_cast
  ring

/-- The root by its real and imaginary part. -/
theorem unitRoot_eq (n e : Nat) : unitRoot n e =
    ⟨Real.cos (2 * Real.pi * e / n), -Real.sin (2 * Real.pi * e / n)⟩ := by
  have angle : (-2 * Real.pi * Complex.I * e / n : ℂ) = (-(2 * Real.pi * e / n) : ℝ) * Complex.I := by
    push_cast
    ring
  rw [unitRoot, angle]
  apply Complex.ext
  · rw [Complex.exp_ofReal_mul_I_re, Real.cos_neg]
  · rw [Complex.exp_ofReal_mul_I_im, Real.sin_neg]

/-- The turn the other way is the conjugate. -/
theorem unitRoot_reflect {n k : Nat} (hn : 0 < n) (hk : k ≤ n) (j : Nat) :
    unitRoot n (j * (n - k)) = conj (unitRoot n (j * k)) := by
  have whole : unitRoot n (j * (n - k)) * unitRoot n (j * k) = 1 := by
    rw [← unitRoot_add, ← Nat.mul_add, Nat.sub_add_cancel hk, Nat.mul_comm, unitRoot_turns hn]
  have unit : conj (unitRoot n (j * k)) * unitRoot n (j * k) = 1 := by
    rw [mul_comm, Complex.mul_conj, unitRoot_eq, Complex.normSq_mk]
    have := Real.sin_sq_add_cos_sq (2 * Real.pi * (j * k : ℕ) / n)
    norm_cast
    nlinarith
  have nonzero : unitRoot n (j * k) ≠ 0 := right_ne_zero_of_mul_eq_one whole
  exact mul_right_cancel₀ nonzero (whole.trans unit.symm)

/-! ### The forward DFT, halved -/

theorem forwardDft_one (z : Nat → ℂ) : forwardDft 1 z 0 = z 0 := by
  rw [forwardDft_eq, Finset.sum_range_one, Nat.zero_mul, unitRoot_zero, mul_one]

section Halves

variable {h : Nat} (hh : 0 < h) (z : Nat → ℂ) (k : Nat)
include hh

theorem forwardDft_even : forwardDft (2 * h) z (2 * k) = forwardDft h (fun j => z j + z (j + h)) k := by
  rw [forwardDft_eq, forwardDft_eq, Nat.two_mul h, Finset.sum_range_add, ← Finset.sum_add_distrib, ← Nat.two_mul]
  refine Finset.sum_congr rfl fun j _ => ?_
  have low : unitRoot (2 * h) (j * (2 * k)) = unitRoot h (j * k) := by
    rw [Nat.mul_left_comm, unitRoot_mul_mul two_pos]
  have high : unitRoot (2 * h) ((h + j) * (2 * k)) = unitRoot h (j * k) := by
    rw [Nat.mul_left_comm, unitRoot_mul_mul two_pos, Nat.add_mul, unitRoot_add, unitRoot_turns hh, one_mul]
  rw [low, high, Nat.add_comm h, ← add_mul]

theorem forwardDft_odd : forwardDft (2 * h) z (2 * k + 1) =
    forwardDft h (fun j => (z j - z (j + h)) * unitRoot (2 * h) j) k := by
  rw [forwardDft_eq, forwardDft_eq, Nat.two_mul h, Finset.sum_range_add, ← Finset.sum_add_distrib, ← Nat.two_mul]
  refine Finset.sum_congr rfl fun j _ => ?_
  have low : unitRoot (2 * h) (j * (2 * k + 1)) = unitRoot h (j * k) * unitRoot (2 * h) j := by
    rw [Nat.mul_add_one, unitRoot_add, Nat.mul_left_comm, unitRoot_mul_mul two_pos]
  have high : unitRoot (2 * h) ((h + j) * (2 * k + 1)) = -(unitRoot h (j * k) * unitRoot (2 * h) j) := by
    rw [Nat.mul_add_one, unitRoot_add, Nat.mul_left_comm, unitRoot_mul_mul two_pos, Nat.add_mul, unitRoot_add,
      unitRoot_turns hh, unitRoot_add, unitRoot_half hh]
    ring
  rw [low, high, Nat.add_comm h]
  ring

end Halves

/-! ### The decimation with real numbers -/

/-- A pair of real numbers as a complex one. -/
def asComplex (v : ℝ × ℝ) : ℂ := ⟨v.1, v.2⟩

/-- A quarter turn on, the sine is the cosine (40_fft.md R133). -/
theorem sinq_quarter {n : Nat} (hn : 0 < n) (four : 4 ∣ n) (p : Nat) :
    numerics.sinq (p + n / 4) n = Real.cos (2 * Real.pi * p / n) := by
  obtain ⟨q, rfl⟩ := four
  have hq : (q : ℝ) ≠ 0 := Nat.cast_ne_zero.mpr (by omega)
  rw [Nat.mul_div_cancel_left q (by decide), ← Real.sin_add_pi_div_two]
  show Real.sin _ = _
  congr 1
  push_cast
  field_simp
  ring

theorem asComplex_butterflyDiff {h : Nat} (hh : 0 < h) (even : 2 ∣ h) (x : Nat → ℝ × ℝ) (j : Nat) :
    asComplex (butterflyDiff numerics h x j) =
      (asComplex (x j) - asComplex (x (j + h))) * unitRoot (2 * h) j := by
  have cosine := sinq_quarter (n := 2 * h) (by omega) (by omega) j
  rw [show 2 * h / 4 = h / 2 by omega] at cosine
  rw [butterflyDiff_eq, cosine, unitRoot_eq]
  apply Complex.ext
  · simp [asComplex, turned, pairDiff, numerics]
    ring
  · simp [asComplex, turned, pairDiff, numerics]
    ring

theorem asComplex_dif : ∀ (L : Nat) (x : Nat → ℝ × ℝ) (k : Nat), k < 2 ^ L →
    asComplex (dif numerics L x k) = forwardDft (2 ^ L) (fun j => asComplex (x j)) k
  | 0, x, k, hk => by
    rw [show k = 0 by omega, Nat.pow_zero, forwardDft_one, dif]
  | 1, x, k, hk => by
    obtain rfl | rfl : k = 0 ∨ k = 1 := by omega
    · have even := forwardDft_even one_pos (fun j => asComplex (x j)) 0
      rw [forwardDft_one] at even
      exact even.symm
    · have odd := forwardDft_odd one_pos (fun j => asComplex (x j)) 0
      rw [forwardDft_one, unitRoot_zero] at odd
      exact (mul_one _).symm.trans odd.symm
  | L + 2, x, k, hk => by
    have len : 2 ^ (L + 2) = 2 * 2 ^ (L + 1) := Nat.pow_succ'
    have positive := Nat.two_pow_pos (L + 1)
    rw [len] at hk ⊢
    obtain ⟨r, rfl | rfl⟩ : ∃ r, k = 2 * r ∨ k = 2 * r + 1 := ⟨k / 2, by omega⟩
    · rw [dif_even, forwardDft_even positive, asComplex_dif (L + 1) _ _ (by omega)]
      rfl
    · rw [dif_odd, forwardDft_odd positive, asComplex_dif (L + 1) _ _ (by omega)]
      simp only [asComplex_butterflyDiff positive (Dvd.intro_left _ rfl)]

/-! ### The DFT of a real sequence from one of half the length -/

section Real

variable (x : Nat → ℝ)

/-- The transform of a real sequence. -/
noncomputable def realDft (n : Nat) (x : Nat → ℝ) (k : Nat) : ℂ := forwardDft n (fun j => (x j : ℂ)) k

theorem realDft_eq (n k : Nat) : realDft n x k = ∑ j ∈ Finset.range n, (x j : ℂ) * unitRoot n (j * k) :=
  forwardDft_eq n _ k

/-- The spectrum of a real sequence is conjugate symmetric (40_fft.md R153). -/
theorem realDft_reflect {n k : Nat} (hn : 0 < n) (hk : k ≤ n) : realDft n x (n - k) = conj (realDft n x k) := by
  rw [realDft_eq, realDft_eq, map_sum]
  refine Finset.sum_congr rfl fun j _ => ?_
  rw [map_mul, Complex.conj_ofReal, unitRoot_reflect hn hk]

theorem realDft_zero_im {n : Nat} : (realDft n x 0).im = 0 := by
  rw [realDft_eq, Complex.im_sum]
  refine Finset.sum_eq_zero fun j _ => ?_
  rw [Nat.mul_zero, unitRoot_zero, mul_one, Complex.ofReal_im]

theorem sum_range_two_mul (f : Nat → ℂ) (h : Nat) :
    ∑ j ∈ Finset.range (2 * h), f j = ∑ r ∈ Finset.range h, (f (2 * r) + f (2 * r + 1)) := by
  induction h with
  | zero => rfl
  | succ h ih =>
    rw [Finset.sum_range_succ, ← ih, show 2 * (h + 1) = 2 * h + 1 + 1 by ring, Finset.sum_range_succ,
      Finset.sum_range_succ, add_assoc]

/-- The spectrum from those of the even and of the odd samples. -/
theorem realDft_two_mul (h k : Nat) : realDft (2 * h) x k =
    realDft h (fun r => x (2 * r)) k + unitRoot (2 * h) k * realDft h (fun r => x (2 * r + 1)) k := by
  rw [realDft_eq, realDft_eq, realDft_eq, sum_range_two_mul, Finset.sum_add_distrib, Finset.mul_sum]
  congr 1
  · refine Finset.sum_congr rfl fun r _ => ?_
    rw [Nat.mul_assoc, unitRoot_mul_mul two_pos]
  · refine Finset.sum_congr rfl fun r _ => ?_
    rw [Nat.add_one_mul (2 * r), unitRoot_add, Nat.mul_assoc, unitRoot_mul_mul two_pos]
    ring

/-- The half-size transform carries both spectra, the odd one turned by i. -/
theorem forwardDft_pairs (h k : Nat) : forwardDft h (fun r => asComplex (x (2 * r), x (2 * r + 1))) k =
    realDft h (fun r => x (2 * r)) k + Complex.I * realDft h (fun r => x (2 * r + 1)) k := by
  rw [forwardDft_eq, realDft_eq, realDft_eq, Finset.mul_sum, ← Finset.sum_add_distrib]
  refine Finset.sum_congr rfl fun r _ => ?_
  rw [asComplex, Complex.mk_eq_add_mul_I]
  ring

/-- The split of 40_fft.md R144 recombines two spectra: its value is the conjugate of the spectrum at t. -/
theorem asComplex_splitValue {m t : Nat} (hm : 0 < m) (four : 4 ∣ m) {z : Nat → ℝ × ℝ} {a b : ℂ}
    (low : asComplex (z t) = a + Complex.I * b) (high : asComplex (z (m / 2 - t)) = conj a + Complex.I * conj b) :
    asComplex (splitValue numerics m z t) = conj (a + unitRoot m t * b) := by
  have cosine := sinq_quarter hm four t
  have lowRe := congrArg Complex.re low
  have lowIm := congrArg Complex.im low
  have highRe := congrArg Complex.re high
  have highIm := congrArg Complex.im high
  simp [asComplex] at lowRe lowIm highRe highIm
  rw [unitRoot_eq]
  simp only [splitValue, cosine]
  apply Complex.ext
  · simp [asComplex, lowRe, lowIm, highRe, highIm, numerics]
    ring
  · simp [asComplex, lowRe, lowIm, highRe, highIm, numerics]
    ring

/-- The half-size transform that FFTR makes of the sequence. -/
theorem asComplex_half (L : Nat) {k : Nat} (hk : k < 2 ^ L) :
    asComplex (dif numerics L (fun r => (x (2 * r), x (2 * r + 1))) k) =
      realDft (2 ^ L) (fun r => x (2 * r)) k + Complex.I * realDft (2 ^ L) (fun r => x (2 * r + 1)) k :=
  (asComplex_dif L _ k hk).trans (forwardDft_pairs x (2 ^ L) k)

theorem asComplex_split (L : Nat) {t : Nat} (low : 1 ≤ t) (high : t < 2 ^ L) :
    asComplex (splitValue numerics (2 ^ (L + 1)) (dif numerics L fun r => (x (2 * r), x (2 * r + 1))) t) =
      conj (realDft (2 ^ (L + 1)) x t) := by
  have len : 2 ^ (L + 1) = 2 * 2 ^ L := Nat.pow_succ'
  have positive := Nat.two_pow_pos L
  have upper := asComplex_half x L (k := 2 ^ L - t) (by omega)
  rw [realDft_reflect _ positive high.le, realDft_reflect _ positive high.le] at upper
  have half : 2 ^ (L + 1) / 2 - t = 2 ^ L - t := by omega
  have split := asComplex_splitValue (Nat.two_pow_pos (L + 1)) (four_dvd_two_pow (by omega)) (asComplex_half x L high)
    (half ▸ upper)
  rw [split, len, realDft_two_mul]

/-- The end values of 40_fft.md R145. -/
theorem asComplex_ends (L : Nat) {z : ℝ × ℝ}
    (hz : asComplex z = realDft (2 ^ L) (fun r => x (2 * r)) 0 +
      Complex.I * realDft (2 ^ L) (fun r => x (2 * r + 1)) 0) :
    asComplex (z.1 + z.2, 0) = realDft (2 ^ (L + 1)) x 0 ∧
      asComplex (z.1 - z.2, 0) = realDft (2 ^ (L + 1)) x (2 ^ L) := by
  have positive := Nat.two_pow_pos L
  have even := realDft_zero_im (fun r => x (2 * r)) (n := 2 ^ L)
  have odd := realDft_zero_im (fun r => x (2 * r + 1)) (n := 2 ^ L)
  have evenH := realDft_reflect (fun r => x (2 * r)) positive (Nat.zero_le _)
  have oddH := realDft_reflect (fun r => x (2 * r + 1)) positive (Nat.zero_le _)
  rw [Nat.sub_zero] at evenH oddH
  have re := congrArg Complex.re hz
  have im := congrArg Complex.im hz
  simp [asComplex, even, odd] at re im
  rw [Nat.pow_succ', realDft_two_mul, realDft_two_mul, unitRoot_zero, unitRoot_half positive, evenH, oddH]
  constructor <;> apply Complex.ext <;> simp [asComplex, re, im, even, odd]
  ring

theorem asComplex_realFft (L : Nat) {k : Nat} (hk : k < 2 ^ (L + 1)) :
    asComplex (realFft numerics L x k) = realDft (2 ^ (L + 1)) x k := by
  have len : 2 ^ (L + 1) = 2 * 2 ^ L := Nat.pow_succ'
  have positive := Nat.two_pow_pos L
  obtain ⟨first, middle⟩ := asComplex_ends x L (asComplex_half x L positive)
  simp only [realFft]
  split_ifs with zero half high
  · rw [zero]
    exact first
  · rw [half]
    exact middle
  · have back := realDft_reflect x (Nat.two_pow_pos (L + 1)) hk.le
    rw [asComplex_split x L (by omega) (by omega), back, Complex.conj_conj]
  · have split := congrArg conj (asComplex_split x L (t := k) (by omega) (by omega))
    rwa [Complex.conj_conj] at split

end Real

/-! ### The kernels of the ideal machine -/

/-- The buffers of the ideal machine, as a store of the FFT kernel. -/
noncomputable def bank : Bank Store ℝ where
  port := port
  implemented _ _ := True

theorem bank_at {b : Buffer} {i : Nat} {y : ℝ} {s : Store} : bank.At b i y s ↔ s b i = y :=
  ⟨fun h => (Prod.mk.inj h.2).1, fun h => ⟨trivial, congrArg (·, s) h⟩⟩

theorem bank_lawful : bank.Lawful where
  same v s _ := bank_at.mpr (by simp [bank, port])
  other {b b' i j y s} v _ hne h := by
    rw [bank_at] at h ⊢
    show Function.update s b' (Function.update (s b') j v) b i = y
    by_cases hb : b = b'
    · subst hb
      rw [Function.update_self, Function.update_of_ne (hne.resolve_left (not_not_intro rfl)), h]
    · rw [Function.update_of_ne hb, h]

theorem numerics_sineScales : SineScales numerics := fun {k} hk p q => by
  have hk' : (k : ℝ) ≠ 0 := Nat.cast_ne_zero.mpr hk.ne'
  show Real.sin _ = Real.sin _
  rw [Nat.cast_mul, Nat.cast_mul, mul_left_comm, mul_div_mul_left _ _ hk']

theorem table_of_sineTable {M : Nat} {s : Store} (h : SineTable M s) (j : Nat) (hj : j < M - M / 4 + 1) :
    bank.At .sintab j (numerics.sinq j M) s :=
  bank_at.mpr (h j (by omega))

/-- A power of two is a multiple of every smaller one. -/
theorem exists_multiple_of_pow_le {K L : Nat} (h : 2 ^ L ≤ 2 ^ K) : ∃ lf, 0 < lf ∧ 2 ^ K = lf * 2 ^ L := by
  have hLK : L ≤ K := (Nat.pow_le_pow_iff_right (a := 2) (by decide)).mp h
  exact ⟨2 ^ (K - L), Nat.two_pow_pos _, by rw [← Nat.pow_add, Nat.sub_add_cancel hLK]⟩

theorem complexAt_of_data {N : Numerics ℝ} {M : Nat} {D : Nat → Prop} {z : Nat → ℝ × ℝ} {s : Store}
    (h : FftData bank N M D z s) {k : Nat} (hk : D k) : complexAt s k = asComplex (z k) := by
  rw [complexAt, bank_at.mp (h.re k hk), bank_at.mp (h.im k hk), asComplex]

/-- Settles O57: the kernel gives the decimation (`fftCore_data`), which is the DFT (`asComplex_dif`). -/
theorem idealFftIsForwardDft : Obligations.IdealFftIsForwardDft := by
  rintro s M n ⟨K, rfl⟩ - ⟨L, rfl⟩ hn table k hk
  obtain ⟨lf, hlf, hM⟩ := exists_multiple_of_pow_le hn
  have input : FftData bank numerics (2 ^ K) (· < 2 ^ L) (fun j => (s .real j, s .imag j)) s :=
    ⟨table_of_sineTable table, fun _ _ => bank_at.mpr rfl, fun _ _ => bank_at.mpr rfl⟩
  have output : FftData _ _ _ _ _ (effect (fftCore numerics fftPorts (2 ^ K) (2 ^ L)) s) :=
    fftCore_data bank_lawful numerics_sineScales hlf hM input
  rw [complexAt_of_data output hk, asComplex_dif L _ k hk]
  rfl

/-- Settles O58: the kernel by `fftrCore_data`, its outputs by `asComplex_realFft`. -/
theorem idealFftrIsRealDft : Obligations.IdealFftrIsRealDft := by
  rintro s M m ⟨K, rfl⟩ - ⟨L, rfl⟩ low hm table k hk
  obtain ⟨L, rfl⟩ : ∃ l, L = l + 1 := ⟨L - 1, by rcases L with - | L <;> simp at low ⊢⟩
  obtain ⟨lf, hlf, hM⟩ := exists_multiple_of_pow_le hm
  have output : FftData _ _ _ _ _ (effect (fftrCore numerics fftPorts (2 ^ K) (2 ^ (L + 1))) s) :=
    fftrCore_data bank_lawful numerics_sineScales hlf hM (fun _ _ => ⟨trivial, trivial⟩) (table_of_sineTable table)
      fun _ _ => bank_at.mpr rfl
  rw [complexAt_of_data output hk, asComplex_realFft _ L hk]
  rfl

end Sys2Proof.Ideal
end

section
/-!
PROOFS for 41_dct.md R171, R172, R175, 42_mel.md R205, R210 and 60_exceptions.md R242: the checks of the commands that
need a constructed unit, and what DCT.INIT builds.
-/
namespace Sys2Proof.Machine

/-- Settles O15: the first check of each of the three rules. -/
theorem unconstructedOrWrongLengthFails : Obligations.UnconstructedOrWrongLengthFails := by
  refine fun s => ⟨fun good dlen range => ?_, fun good unconstructed => ⟨?_, ?_⟩⟩
  · have check : dctApplyBody dlen s = (some .invalidSize, s) := if_pos range
    exact congrArg Host.Outcome.next (runCommand_of_error good check)
  · have check : melMagBody s = (some .invalidSize, s) := if_pos unconstructed
    exact congrArg Host.Outcome.next (runCommand_of_error good check)
  · have check : melAccBody s = (some .invalidSize, s) := if_pos unconstructed
    exact congrArg Host.Outcome.next (runCommand_of_error good check)

/-! ### DCT.INIT -/

/-- The state after DCT.INIT n in range, before RESULT. -/
def twiddleBuilt (n : Nat) (s : State) : State :=
  { effect (buildTwiddle binary32 dctPorts n) (s.discard .dct) with dctN := BitVec.ofNat 32 n }

theorem exec_dctInit {s : State} {n : Nat} (low : 1 ≤ n) (high : n ≤ s.cfg.ndmax) :
    exec (.dctInit n) s = .next (twiddleBuilt n s).returnOk := by
  have range : ¬ (n < 1 ∨ n > s.cfg.ndmax) := by omega
  have check : dctInitBody n (s.discard .dct) = (none, twiddleBuilt n s) := if_neg range
  exact congrArg Host.Outcome.next (runInit_of_ok check)

/-- DCT.INIT reads only entries it has written, so it uses up no free value. -/
theorem buildTwiddle_writesOnly {s : State} (hc : s.cfg.Legal) {n : Nat} (low : 1 ≤ n) (high : n ≤ s.cfg.ndmax) :
    effect (buildTwiddle binary32 dctPorts n) s =
      { s with mem := (effect (buildTwiddle binary32 dctPorts n) s).mem } := by
  have loopOnly : effect (plainLoop binary32 dctPorts n) s =
      { s with mem := (effect (plainLoop binary32 dctPorts n) s).mem } :=
    keeps_loop (R := fun s t : State => t = { s with mem := t.mem }) (fun _ => rfl)
      (fun _ _ _ h h' => by rw [h', h]) (fun _ _ _ _ => rfl) s
  rw [buildTwiddle_eq, scaleEntries_eq hc binary32 (low.trans high) (plainLoop_twiddleAt hc binary32 high low s),
    loopOnly]
  rfl

/-- Settles O19: the tables by `buildTwiddle_twiddleAt`, their bytes by `buildTwiddle_effect`. -/
theorem dctInitBuildsTwiddle : Obligations.DctInitBuildsTwiddle := by
  intro s n hc low high
  have legal : (s.discard .dct).cfg.Legal := hc
  have built := buildTwiddle_effect low (s.discard .dct)
  have entry : ∀ k, k < n → (twiddleBuilt n s).TwiddleAt k
      (Reference.twiddleRe binary32 n k, Reference.twiddleIm binary32 n k) :=
    fun k hk => buildTwiddle_twiddleAt hc binary32 high hk (s.discard .dct)
  obtain ⟨-, -, ⟨-, hndmax⟩, -⟩ := id hc
  refine ⟨_, exec_dctInit low high, entry, ?_, toNat_ofNat_size (by omega), ?_⟩
  · refine built.bytesKept ?_
    rintro _ i a ⟨rfl | rfl, hi⟩ ha
    · exact .inl (hasByte_of_element (Nat.zero_le i) hi ha)
    · exact .inr (hasByte_of_element (Nat.zero_le i) hi ha)
  · rw [twiddleBuilt, buildTwiddle_writesOnly legal low high]
    rfl

end Sys2Proof.Machine
end

section
/-!
PROOFS for 41_dct.md R172, R175 to R179: the DCT kernel on any store whose elements read as they were written, the
machine's buffers and the ideal machine's alike.
-/
namespace Sys2Proof.Machine

open Sys2Proof.Reference (twiddleRe twiddleIm mirrored dftSum dct)

variable {σ F α : Type}

/-- The DCT unit's ports (41_dct.md R170). -/
def Bank.dctPorts (B : Bank σ F) : DctPorts σ F where
  wr := B.port .dctwr
  wi := B.port .dctwi
  data := B.port .dctd

@[simp] theorem Bank.dctPorts_wr (B : Bank σ F) : B.dctPorts.wr = B.port .dctwr := rfl
@[simp] theorem Bank.dctPorts_wi (B : Bank σ F) : B.dctPorts.wi = B.port .dctwi := rfl
@[simp] theorem Bank.dctPorts_data (B : Bank σ F) : B.dctPorts.data = B.port .dctd := rfl

/-! ### Loops over lists -/

/-- A loop that only looks collects what it sees. -/
theorem collect_of_reads {f : Nat → StateM σ α} {g : Nat → α} {s : σ} {a k : Nat}
    (reads : ∀ i, a ≤ i → i < a + k → f i s = (g i, s)) :
    collect a k f s = ((List.range' a k).map g, s) := by
  induction k generalizing a with
  | zero => rfl
  | succ k ih =>
    have first := reads a (Nat.le_refl a) (by omega)
    have rest := ih (a := a + 1) fun i h1 h2 => reads i (by omega) (by omega)
    show ((f a s).1 :: (collect (a + 1) k f (f a s).2).1, (collect (a + 1) k f (f a s).2).2) = _
    rw [first, rest]
    rfl

/-- A loop over a list of values of the index is a loop over the index. -/
theorem loopList_map_range' (g : Nat → α) (f : Nat → α → StateM σ Unit) (a k : Nat) :
    loopList a ((List.range' a k).map g) f = loop a k fun i => f i (g i) := by
  induction k generalizing a with
  | zero => rfl
  | succ k ih => simp only [List.range'_succ, List.map_cons, loopList, loop, ih]

/-! ### The data of the DCT unit -/

/-- The twiddle tables for n are in place (41_dct.md R172). -/
def TwiddleTables (B : Bank σ F) (N : Numerics F) (n : Nat) (s : σ) : Prop :=
  ∀ k, k < n → B.At .dctwr k (twiddleRe N n k) s ∧ B.At .dctwi k (twiddleIm N n k) s

/-- The twiddle tables for n are in place, and the halves of DCTD hold the pairs `z` (R176). -/
structure DctData (B : Bank σ F) (N : Numerics F) (n : Nat) (z : Nat → F × F) (s : σ) : Prop where
  tables : TwiddleTables B N n s
  re : ∀ j, j < n → B.At .dctd j (z j).1 s
  im : ∀ j, j < n → B.At .dctd (j + n) (z j).2 s

section Kernel

variable {B : Bank σ F} {N : Numerics F} {n : Nat} {z z' : Nat → F × F} {s : σ}

theorem DctData.congr (h : DctData B N n z s) (hz : ∀ j, j < n → z' j = z j) : DctData B N n z' s where
  tables := h.tables
  re j hj := hz j hj ▸ h.re j hj
  im j hj := hz j hj ▸ h.im j hj

/-! ### Extension and DFT -/

theorem extensionRound_eq (h : DctData B N n z s) {i : Nat} (hi : i < n) :
    extensionRound B.dctPorts n i s = ((z i, z (n - 1 - i)), s) := by
  have mirror := h.im (n - 1 - i) (by omega)
  rw [show n - 1 - i + n = 2 * n - 1 - i by omega] at mirror
  simp only [extensionRound, Bank.dctPorts_data]
  rw [(h.re i hi).rd_bind, (h.im i hi).rd_bind, (h.re (n - 1 - i) (by omega)).rd_bind, mirror.rd_bind]
  rfl

/-- The symmetric extension of R177 is the input followed by its mirror image. -/
theorem extension_eq (h : DctData B N n z s) :
    extension B.dctPorts n s = ((List.range' 0 (2 * n)).map (mirrored n z), s) := by
  have rounds := collect_of_reads (a := 0) (k := n) (f := extensionRound B.dctPorts n)
    (g := fun i => (z i, z (n - 1 - i))) fun i _ hi => extensionRound_eq h (by omega)
  have lower : ∀ i ∈ List.range n, z i = mirrored n z i := fun i hi => (if_pos (List.mem_range.mp hi)).symm
  have upper : ∀ i ∈ List.range n, z (n - 1 - i) = mirrored n z (n + i) := fun i hi => by
    rw [mirrored, if_neg (by omega), show 2 * n - 1 - (n + i) = n - 1 - i by omega]
  show ((collect 0 n (extensionRound B.dctPorts n) s).1.map Prod.fst ++
    (collect 0 n (extensionRound B.dctPorts n) s).1.map Prod.snd, _) = _
  rw [rounds, ← List.range_eq_range', ← List.range_eq_range', Nat.two_mul, List.range_add, List.map_append,
    List.map_map, List.map_map, List.map_map]
  exact congrArg (·, s) (congrArg₂ (· ++ ·) (List.map_congr_left lower) (List.map_congr_left upper))

/-- The inner loop of R178 accumulates the sum of the reference. -/
theorem dftRow_eq (N : Numerics F) (n k m q : Nat) (z : Nat → F × F) :
    dftRow N n k q ((List.range' q m).map (mirrored n z)) (dftSum N n k z q).1 (dftSum N n k z q).2 =
      dftSum N n k z (q + m) := by
  induction m generalizing q with
  | zero => rfl
  | succ m ih => exact (ih (q + 1)).trans (congrArg _ (by omega))

theorem dftRows_eq (N : Numerics F) (n : Nat) (z : Nat → F × F) :
    dftRows N n ((List.range' 0 (2 * n)).map (mirrored n z)) =
      (List.range' 0 n).map fun k => dftSum N n k z (2 * n) := by
  rw [dftRows, List.range_eq_range']
  refine List.map_congr_left fun k _ => ?_
  exact (dftRow_eq N n k (2 * n) 0 z).trans (congrArg _ (Nat.zero_add _))

/-! ### Scaling -/

/-- The pair `v` written to element k of both halves of DCTD. -/
def Bank.putDct (B : Bank σ F) (n k : Nat) (v : F × F) (s : σ) : σ :=
  ((B.port .dctd).wr (k + n) v.2 ((B.port .dctd).wr k v.1 s).2).2

variable (hB : B.Lawful)
include hB

theorem TwiddleTables.after_data (h : TwiddleTables B N n s) {i : Nat} (hi : B.implemented .dctd i) (v : F) :
    TwiddleTables B N n ((B.port .dctd).wr i v s).2 := fun k hk =>
  ⟨hB.other v hi (.inl (by decide)) (h k hk).1, hB.other v hi (.inl (by decide)) (h k hk).2⟩

theorem DctData.put (h : DctData B N n z s) {k : Nat} (hk : k < n) (v : F × F) :
    DctData B N n (Function.update z k v) (B.putDct n k v s) where
  tables := (h.tables.after_data hB (h.re k hk).1 _).after_data hB (h.im k hk).1 _
  re j hj := by
    refine hB.other _ (h.im k hk).1 (.inr (by omega)) ?_
    by_cases e : j = k
    · rw [e, Function.update_self]
      exact hB.same _ _ (h.re k hk).1
    · rw [Function.update_of_ne e]
      exact hB.other _ (h.re k hk).1 (.inr e) (h.re j hj)
  im j hj := by
    by_cases e : j = k
    · rw [e, Function.update_self]
      exact hB.same _ _ (h.im k hk).1
    · rw [Function.update_of_ne e]
      exact hB.other _ (h.im k hk).1 (.inr (by omega)) (hB.other _ (h.re k hk).1 (.inr (by omega)) (h.im j hj))

/-- The scaling of R179 for row k. -/
theorem scaleRow_eq (h : DctData B N n z s) {k : Nat} (hk : k < n) (t : F × F) :
    (scaleRow N B.dctPorts n k t s).2 = B.putDct n k
      (N.sub (N.mul t.1 (twiddleRe N n k)) (N.mul t.2 (twiddleIm N n k)),
        N.add (N.mul t.1 (twiddleIm N n k)) (N.mul t.2 (twiddleRe N n k))) s := by
  obtain ⟨re, im⟩ := h.tables k hk
  have after := fun v => h.tables.after_data hB (h.re k hk).1 v k hk
  simp only [scaleRow, Bank.dctPorts_wr, Bank.dctPorts_wi, Bank.dctPorts_data]
  rw [re.rd_bind, im.rd_bind, Bank.wr_bind, (after _).2.rd_bind, (after _).1.rd_bind]
  rfl

/-- The effect of DCT.APPLY (41_dct.md R175). -/
theorem dctCore_data (h : DctData B N n z s) :
    DctData B N n (dct N n z) (dctCore N B.dctPorts n s).2 := by
  have rounds := loop_invariant (a := 0) (k := n)
    (I := fun i s => DctData B N n (fun k => if k < i then dct N n z k else z k) s)
    (f := fun k => scaleRow N B.dctPorts n k (dftSum N n k z (2 * n)))
    (fun i s _ hi hs => by
      have hi : i < n := by omega
      rw [scaleRow_eq hB hs hi]
      refine (hs.put hB hi _).congr fun j _ => ?_
      by_cases e : j = i
      · rw [e, Function.update_self, if_pos (by omega)]
        rfl
      · rw [Function.update_of_ne e]
        exact if_congr (by omega) rfl rfl)
    (h.congr fun j _ => if_neg (by omega))
  have run : (dctCore N B.dctPorts n s).2 =
      (loop 0 n (fun k => scaleRow N B.dctPorts n k (dftSum N n k z (2 * n))) s).2 := by
    show (loopList 0 (dftRows N n (extension B.dctPorts n s).1) _ (extension B.dctPorts n s).2).2 = _
    rw [extension_eq h, dftRows_eq, loopList_map_range']
  rw [run]
  exact rounds.congr fun j hj => (if_pos (by omega)).symm

end Kernel

theorem machineBank_dctPorts (c : Config) : (machineBank c).dctPorts = dctPorts := rfl

/-- What the invariant says of a constructed DCT unit with written data. -/
theorem State.Inv.dctData {s : State} (h : s.Inv) (written : s.Written .dctd 0 (2 * s.dctSize)) :
    DctData (machineBank s.cfg) binary32 s.dctSize
      (fun j => (s.elem .dctd j, s.elem .dctd (j + s.dctSize))) s := by
  obtain ⟨-, ⟨-, -, -, size, -⟩, -, -, tables⟩ := h
  have data : ∀ j, j < 2 * s.dctSize → (machineBank s.cfg).At .dctd j (s.elem .dctd j) s := fun j hj =>
    machineBank_at.mpr ⟨hj.trans_le (Nat.mul_le_mul_left 2 size), elem?_of_written written hj⟩
  exact {
    tables := fun k hk => ⟨machineBank_at.mpr ⟨hk.trans_le size, (tables k hk).1⟩,
      machineBank_at.mpr ⟨hk.trans_le size, (tables k hk).2⟩⟩
    re := fun j hj => data j (by omega)
    im := fun j hj => data (j + s.dctSize) (by omega) }

/-- What a command that ends in Ok leaves in DCTD is what its kernel left there. -/
theorem DctData.elem?_returnOk {c : Config} {N : Numerics Word} {n : Nat} {z : Nat → Word × Word} {s : State}
    (h : DctData (machineBank c) N n z s) (k : Nat) (hk : k < n) :
    s.returnOk.elem? .dctd k = some (z k).1 ∧ s.returnOk.elem? .dctd (k + n) = some (z k).2 :=
  ⟨(machineBank_at.mp (h.re k hk)).2, (machineBank_at.mp (h.im k hk)).2⟩

/-- Settles O29: the kernel by `dctCore_data`, completion and frame by `transformsCompleteOnAnyData`. -/
theorem dctApplyComputesTransform : Obligations.DctApplyComputesTransform := by
  intro s h good constructed written
  have output := dctCore_data (machineBank_lawful h.1) (h.dctData written)
  rw [machineBank_dctPorts] at output
  obtain ⟨-, -, completes, -⟩ := transformsCompleteOnAnyData s
  obtain ⟨t, run, ok, registers, kept⟩ := completes good constructed
  obtain rfl := Host.Outcome.next.inj ((exec_dctApply_ok good constructed).symm.trans run)
  exact ⟨_, run, ok, registers, kept, output.elem?_returnOk⟩

end Sys2Proof.Machine
end

section
/-!
PROOFS for 41_dct.md R172, R182: on tables that DCT.INIT has built, DCT.APPLY of the ideal machine is the orthonormal
DCT-II of both halves.
-/
namespace Sys2Proof.Machine

open Sys2Proof.Reference (twiddleRe twiddleIm)

variable {σ F : Type} {B : Bank σ F} {N : Numerics F} {n : Nat} {s : σ}

/-- Entry k of both tables, before entry 0 is scaled. -/
def PlainAt (B : Bank σ F) (N : Numerics F) (n k : Nat) (s : σ) : Prop :=
  B.At .dctwr k (plainTwiddle N n k).1 s ∧ B.At .dctwi k (plainTwiddle N n k).2 s

section Tables

variable (hB : B.Lawful) (implemented : ∀ k, k < n → B.implemented .dctwr k ∧ B.implemented .dctwi k)
include hB implemented

theorem plainLoop_plainAt {k : Nat} (hk : k < n) : PlainAt B N n k (effect (plainLoop N B.dctPorts n) s) := by
  refine loop_establishes (k := n) (p := PlainAt B N n) (fun i s hi => ?_) (fun i j s hij hj h => ?_)
    s (Nat.zero_le k) (by omega)
  · obtain ⟨re, im⟩ := implemented i (by omega)
    exact ⟨hB.other _ im (.inl (by decide)) (hB.same _ _ re), hB.same _ _ im⟩
  · obtain ⟨re, im⟩ := implemented j (by omega)
    exact ⟨hB.other _ im (.inr hij.ne) (hB.other _ re (.inr hij.ne) h.1),
      hB.other _ im (.inr hij.ne) (hB.other _ re (.inr hij.ne) h.2)⟩

/-- DCT.INIT builds the tables on any such store (R172). -/
theorem twiddleTables_buildTwiddle : TwiddleTables B N n (effect (buildTwiddle N B.dctPorts n) s) := by
  intro k hk
  rw [buildTwiddle_eq]
  obtain ⟨re, im⟩ := implemented 0 (by omega)
  obtain ⟨re0, im0⟩ := plainLoop_plainAt (s := s) (N := N) hB implemented (k := 0) (by omega)
  obtain ⟨reK, imK⟩ := plainLoop_plainAt (s := s) (N := N) hB implemented hk
  generalize effect (plainLoop N B.dctPorts n) s = t at *
  have run : effect (scaleEntries N B.dctPorts) t =
      ((B.port .dctwi).wr 0 (twiddleIm N n 0) ((B.port .dctwr).wr 0 (twiddleRe N n 0) t).2).2 := by
    show (scaleEntry N (B.port .dctwi) (scaleEntry N (B.port .dctwr) t).2).2 = _
    rw [scaleEntry, scaleEntry, re0.rd_bind, (hB.other _ re (.inl (by decide)) im0).rd_bind]
    rfl
  rw [run]
  by_cases h0 : k = 0
  · rw [h0]
    exact ⟨hB.other _ im (.inl (by decide)) (hB.same _ _ re), hB.same _ _ im⟩
  · obtain ⟨eRe, eIm⟩ := Prod.mk.inj (twiddle_of_ne_zero N n h0)
    rw [eRe, eIm]
    exact ⟨hB.other _ im (.inr h0) (hB.other _ re (.inr h0) reK),
      hB.other _ im (.inr h0) (hB.other _ re (.inr h0) imK)⟩

end Tables

end Sys2Proof.Machine

namespace Sys2Proof.Ideal

open Sys2Proof.Machine
open Sys2Proof.Reference (twiddleRe twiddleIm mirrored dftSum dct)
open scoped ComplexConjugate

/-! ### The kernels of the ideal machine -/

theorem bank_dctPorts : bank.dctPorts = dctPorts := rfl

theorem bank_steady : bank.Steady := fun h _ _ => h

/-- What the DCT unit of the ideal machine holds after DCT.INIT: the tables, and the data as before. -/
theorem dctData_buildTwiddle (s : Store) {n : Nat} (hn : 1 ≤ n) : DctData bank numerics n
    (fun j => (s .dctd j, s .dctd (j + n))) (buildTwiddle numerics bank.dctPorts n s).2 := by
  have kept : ∀ i, bank.Kept .dctd i s (buildTwiddle numerics bank.dctPorts n s).2 := fun i =>
    buildTwiddle_keeps (Bank.Kept.refl _ _) (Bank.Kept.trans _ _) numerics hn (reads_keep _ _ bank_steady _)
      (reads_keep _ _ bank_steady _) (writes_keep _ _ bank_lawful fun _ _ => ⟨trivial, .inl (by decide)⟩)
      (writes_keep _ _ bank_lawful fun _ _ => ⟨trivial, .inl (by decide)⟩) s
  exact {
    tables := twiddleTables_buildTwiddle bank_lawful fun _ _ => ⟨trivial, trivial⟩
    re := fun j _ => kept j _ (bank_at.mpr rfl)
    im := fun j _ => kept (j + n) _ (bank_at.mpr rfl) }

/-! ### The transform with real numbers -/

theorem unitRoot_mod {n : Nat} (hn : 0 < n) (a : Nat) : unitRoot n (a % n) = unitRoot n a := by
  conv_rhs => rw [← Nat.mod_add_div a n, unitRoot_add, unitRoot_turns hn, mul_one]

/-- The DFT of R178 is the forward DFT of the mirrored sequence. -/
theorem asComplex_dftSum {n : Nat} (hn : 0 < n) (k : Nat) (x : Nat → ℝ × ℝ) (m : Nat) :
    asComplex (dftSum numerics n k x m) =
      ∑ q ∈ Finset.range m, asComplex (mirrored n x q) * unitRoot (2 * n) (k * q) := by
  induction m with
  | zero => rfl
  | succ m ih =>
    have root := unitRoot_eq (2 * n) (k * m % (2 * n))
    rw [Finset.sum_range_succ, ← ih, ← unitRoot_mod (n := 2 * n) (by omega), root, dftSum]
    apply Complex.ext <;> simp [asComplex, numerics] <;> ring

/-- Each term of the sequence meets its mirror image. -/
theorem sum_mirrored (n k : Nat) (x : Nat → ℝ × ℝ) :
    ∑ q ∈ Finset.range (2 * n), asComplex (mirrored n x q) * unitRoot (2 * n) (k * q) =
      ∑ j ∈ Finset.range n,
        asComplex (x j) * (unitRoot (2 * n) (k * j) + unitRoot (2 * n) (k * (2 * n - 1 - j))) := by
  rw [Nat.two_mul, Finset.sum_range_add, ← Nat.two_mul,
    ← Finset.sum_range_reflect (fun i => asComplex (mirrored n x (n + i)) * _), ← Finset.sum_add_distrib]
  refine Finset.sum_congr rfl fun j hj => ?_
  have hj : j < n := Finset.mem_range.mp hj
  rw [mirrored, if_pos hj, mirrored, if_neg (by omega), show n + (n - 1 - j) = 2 * n - 1 - j by omega,
    show 2 * n - 1 - (2 * n - 1 - j) = j by omega, mul_add]

theorem unitRoot_two_mul (n e : Nat) : unitRoot (2 * n) e = unitRoot (4 * n) (2 * e) := by
  rw [← unitRoot_mul_mul two_pos (2 * n), ← Nat.mul_assoc 2]

/-- The two turns of a term and its mirror image, turned back by the twiddle, are conjugate (R182). -/
theorem unitRoot_mirror {n j : Nat} (hj : j < n) (k : Nat) :
    (unitRoot (2 * n) (k * j) + unitRoot (2 * n) (k * (2 * n - 1 - j))) * unitRoot (4 * n) k =
      ((2 * Real.cos (Real.pi * k * (2 * j + 1) / (2 * n)) : ℝ) : ℂ) := by
  have own : unitRoot (2 * n) (k * j) * unitRoot (4 * n) k = unitRoot (4 * n) (k * (2 * j + 1)) := by
    rw [unitRoot_two_mul, ← unitRoot_add, Nat.mul_left_comm, ← Nat.mul_add_one]
  have image : unitRoot (2 * n) (k * (2 * n - 1 - j)) * unitRoot (4 * n) k =
      conj (unitRoot (4 * n) (k * (2 * j + 1))) := by
    rw [unitRoot_two_mul, ← unitRoot_add, Nat.mul_left_comm, ← Nat.mul_add_one,
      ← unitRoot_reflect (by omega) (by omega)]
    congr 2
    omega
  have angle : 2 * Real.pi * (k * (2 * j + 1) : ℕ) / (4 * n : ℕ) = Real.pi * k * (2 * j + 1) / (2 * n) := by
    push_cast
    ring
  rw [add_mul, own, image, Complex.add_conj, unitRoot_eq, angle]

/-- The factor of the orthonormal DCT-II (R182). -/
noncomputable def dctScale (n k : Nat) : ℝ := if k = 0 then Real.sqrt (1 / n) else Real.sqrt (2 / n)

theorem half_dctScale {n : Nat} (hn : 0 < n) (k : Nat) : dctScale n k / 2 =
    1 / Real.sqrt (2 * n) * if k = 0 then 1 / Real.sqrt 2 else 1 := by
  have root : Real.sqrt n ≠ 0 := (Real.sqrt_pos.mpr (Nat.cast_pos.mpr hn)).ne'
  have two := Real.sq_sqrt (zero_le_two (α := ℝ))
  rw [dctScale, Real.sqrt_mul zero_le_two, Real.sqrt_div zero_le_one, Real.sqrt_div zero_le_two, Real.sqrt_one]
  split_ifs <;> field_simp <;> rw [two]

theorem asComplex_mul_ofReal (v : ℝ × ℝ) (r : ℝ) : asComplex v * (r : ℂ) = asComplex (v.1 * r, v.2 * r) :=
  Complex.ext (Complex.re_mul_ofReal _ r) (Complex.im_mul_ofReal _ r)

theorem sum_asComplex (n : Nat) (f : Nat → ℝ × ℝ) : ∑ j ∈ Finset.range n, asComplex (f j) =
    asComplex (∑ j ∈ Finset.range n, (f j).1, ∑ j ∈ Finset.range n, (f j).2) :=
  Complex.ext (Complex.re_sum ..) (Complex.im_sum ..)

/-- An entry of R172 before entry 0 is scaled: a turn by k parts of 4n, over √(2n). -/
theorem asComplex_plainTwiddle (n k : Nat) : asComplex (plainTwiddle numerics n k) =
    unitRoot (4 * n) k * ((1 / Real.sqrt (2 * n) : ℝ) : ℂ) := by
  have pair : plainTwiddle numerics n k = (Real.cos (2 * Real.pi * k / (4 * n : ℕ)) * (1 / Real.sqrt (2 * n)),
      -Real.sin (2 * Real.pi * k / (4 * n : ℕ)) * (1 / Real.sqrt (2 * n))) := by
    simp only [plainTwiddle, numerics, Nat.cast_mul, Nat.cast_ofNat, mul_one_div]
  rw [pair, unitRoot_eq]
  exact (asComplex_mul_ofReal (_, _) _).symm

theorem asComplex_twiddle {n : Nat} (hn : 0 < n) (k : Nat) :
    asComplex (twiddleRe numerics n k, twiddleIm numerics n k) =
      unitRoot (4 * n) k * ((dctScale n k / 2 : ℝ) : ℂ) := by
  rw [half_dctScale hn]
  by_cases h0 : k = 0
  · rw [h0, twiddle_zero, if_pos rfl, Complex.ofReal_mul, ← mul_assoc, ← asComplex_plainTwiddle,
      asComplex_mul_ofReal]
    rfl
  · rw [twiddle_of_ne_zero _ _ h0, if_neg h0, mul_one, asComplex_plainTwiddle]

/-- The scaling of R179 is a product of complex numbers. -/
theorem asComplex_dct_eq (n k : Nat) (x : Nat → ℝ × ℝ) : asComplex (dct numerics n x k) =
    asComplex (dftSum numerics n k x (2 * n)) * asComplex (twiddleRe numerics n k, twiddleIm numerics n k) := rfl

theorem dctII_eq (n : Nat) (x : Nat → ℝ) (k : Nat) : dctII n x k = ∑ j ∈ Finset.range n,
    x j * (2 * Real.cos (Real.pi * k * (2 * j + 1) / (2 * n)) * (dctScale n k / 2)) := by
  rw [dctII, ← dctScale, Finset.mul_sum]
  exact Finset.sum_congr rfl fun j _ => by ring

/-- With real numbers the reference is the orthonormal DCT-II of each half (R182). -/
theorem asComplex_dct {n : Nat} (hn : 0 < n) (k : Nat) (x : Nat → ℝ × ℝ) :
    asComplex (dct numerics n x k) = asComplex (dctII n (fun j => (x j).1) k, dctII n (fun j => (x j).2) k) := by
  rw [asComplex_dct_eq, asComplex_dftSum hn, sum_mirrored, asComplex_twiddle hn, Finset.sum_mul, dctII_eq, dctII_eq]
  refine (Finset.sum_congr rfl fun j hj => ?_).trans (sum_asComplex n fun j => (_, _))
  rw [mul_assoc, ← mul_assoc (_ + _), unitRoot_mirror (Finset.mem_range.mp hj), ← Complex.ofReal_mul,
    asComplex_mul_ofReal]

/-- Settles O59: the kernel gives the reference (`dctCore_data`), which is the DCT-II (`asComplex_dct`). -/
theorem idealDctIsOrthonormalDctII : Obligations.IdealDctIsOrthonormalDctII := by
  intro s n hn t k hk
  have output := dctCore_data bank_lawful (dctData_buildTwiddle s hn)
  rw [bank_dctPorts] at output
  have value := asComplex_dct hn k fun j => (s .dctd j, s .dctd (j + n))
  have re := (bank_at.mp (output.re k hk)).trans (congrArg Complex.re value)
  have im := (bank_at.mp (output.im k hk)).trans (congrArg Complex.im value)
  exact ⟨re, im⟩

end Sys2Proof.Ideal
end

section
/-!
PROOFS for 42_mel.md R201, R210, R211 and 60_exceptions.md R245: what MEL.INIT constructs, and the table
check of MEL.ACC.
-/
namespace Sys2Proof.Machine

/-! ### MEL.INIT -/

/-- Settles O20: both checks of `melInitBody` pass, and each size fits its register. -/
theorem melInitCompletes : Obligations.MelInitCompletes := by
  intro s nb len hc low high pow2 fits
  have hmmax := Config.Legal.mmax_le hc
  obtain ⟨-, ⟨-, hnbmax⟩, -⟩ := id hc
  have channels : ¬ (nb < 1 ∨ nb > s.cfg.nbmax) := by omega
  have length : ¬ (isPow2 len = false ∨ len > s.cfg.mmax / 2) := by
    rw [isPow2_eq_false_iff]
    exact not_or.mpr ⟨not_not_intro pow2, not_lt.mpr fits⟩
  have check : melInitBody nb len (s.discard .mel) = (none, { s.discard .mel with
      melNb := BitVec.ofNat 32 nb, melLen := BitVec.ofNat 32 len }) :=
    (if_neg channels).trans (if_neg length)
  exact ⟨_, congrArg Host.Outcome.next (runInit_of_ok check), toNat_ofNat_size (by omega),
    toNat_ofNat_size (by omega), rfl⟩

/-! ### Reading the table -/

theorem State.Written.elem? {s : State} {b : Buffer} {lo hi i : Nat} (h : s.Written b lo hi) (low : lo ≤ i)
    (high : i < hi) : s.elem? b i = some (s.elem b i) := by
  obtain ⟨w, hw⟩ := Option.isSome_iff_exists.mp (h i low high)
  rw [State.elem, hw, Option.getD_some]

/-- Reading the table uses up free values and does nothing else. -/
theorem readBins_frame (len : Nat) (s : State) :
    (readBins len s).2 = { s with draws := (readBins len s).2.draws } := by
  obtain ⟨ws, d, none, e⟩ := readBins_effect len s
  obtain rfl : ws = [] := List.eq_nil_iff_forall_not_mem.mpr none
  rw [e]
  rfl

/-- On a loaded table the reads give the loaded words and change nothing. -/
theorem readBins_of_written {len : Nat} {s : State} (h : s.Written .bin 1 len) :
    readBins len s = ((List.range' 1 (len - 1)).map fun k => (s.elem .bin k).toNat, s) := by
  refine collect_of_reads fun k low high => ?_
  show ((readElem .bin k s).1.toNat, (readElem .bin k s).2) = _
  rw [readElem_of_some s (h.elem? low (by omega))]

/-- On a loaded table without an entry above `n` no bin read is above `n`. -/
theorem readBins_le_of_loaded {len n : Nat} {s : State}
    (loaded : ∀ k, 1 ≤ k → k < len → ∃ w, s.elem? .bin k = some w ∧ w.toNat ≤ n) :
    ∀ f ∈ (readBins len s).1, f ≤ n := by
  have written : s.Written .bin 1 len := fun k low high => by
    obtain ⟨w, hw, -⟩ := loaded k low high
    exact Option.isSome_of_eq_some hw
  rw [readBins_of_written written]
  intro f read
  obtain ⟨k, hk, rfl⟩ := List.mem_map.mp read
  obtain ⟨low, high⟩ := List.mem_range'_1.mp hk
  obtain ⟨w, hw, le⟩ := loaded k low (by omega)
  rwa [State.elem, hw]

/-- A value that one round sees, whatever the rounds before it do, is among those collected. -/
theorem mem_collect {σ α : Type} {I : σ → Prop} {f : Nat → StateM σ α} {x : α} {a k i : Nat}
    (keeps : ∀ j s, I s → I (f j s).2) (sees : ∀ s, I s → (f i s).1 = x) (low : a ≤ i) (high : i < a + k) {s : σ}
    (h : I s) : x ∈ (collect a k f s).1 := by
  induction k generalizing a s with
  | zero => omega
  | succ k ih =>
    show x ∈ (f a s).1 :: (collect (a + 1) k f (f a s).2).1
    obtain rfl | after := low.eq_or_lt
    · exact sees s h ▸ List.mem_cons_self ..
    · exact List.mem_cons_of_mem _ (ih after (by omega) (keeps a s h))

/-- A loaded entry is among the bins read, whether or not the other entries have been written. -/
theorem mem_readBins {len k : Nat} {w : Word} {s : State} (low : 1 ≤ k) (high : k < len)
    (loaded : s.elem? .bin k = some w) : w.toNat ∈ (readBins len s).1 := by
  refine mem_collect (I := fun t => t.elem? .bin k = some w) (i := k) (fun j t h => ?_) (fun t h => ?_) low
    (by omega) loaded
  · show (readElem .bin j t).2.elem? .bin k = some w
    obtain e | e := readElem_cases t .bin j <;> rw [e] <;> exact h
  · show (readElem .bin k t).1.toNat = w.toNat
    rw [readElem_of_some t h]

/-! ### The table check -/

section Check

variable {s : State} (good : s.isBad .mel = false) (constructed : s.melLength ≠ 0)
include good constructed

/-- MEL.ACC on a table with an entry above NB (R211). -/
theorem exec_melAcc_of_badTable {f : Nat} (read : f ∈ (readBins s.melLength s).1) (above : s.melChannels < f) :
    exec .melAcc s = .next { s with
      result := 5#32, status := s.status ||| 0x4#32, draws := (readBins s.melLength s).2.draws } := by
  have bad : (readBins s.melLength s).1.any (fun fnum => fnum > s.melChannels) = true :=
    List.any_eq_true.mpr ⟨f, read, decide_eq_true above⟩
  have check : melAccBody s = (some .badTable, (readBins s.melLength s).2) :=
    (if_neg constructed).trans (if_pos bad)
  refine congrArg Host.Outcome.next ((runCommand_of_error good check).trans ?_)
  rw [readBins_frame]
  rfl

/-- MEL.ACC on a table that the check lets pass (R210). -/
theorem exec_melAcc_of_legal (legal : ∀ f ∈ (readBins s.melLength s).1, f ≤ s.melChannels) :
    exec .melAcc s = .next (effect (melCore binary32 melPorts s.melFloor s.melChannels s.melLength
      (readBins s.melLength s).1) (readBins s.melLength s).2).returnOk := by
  have passes : ¬ (readBins s.melLength s).1.any (fun fnum => fnum > s.melChannels) = true := by
    simpa using legal
  exact congrArg Host.Outcome.next (runCommand_of_ok good ((if_neg constructed).trans (if_neg passes)))

/-- The frame of a MEL.ACC that returns Ok, on any data (R215). -/
theorem melAcc_ok_frame (legal : ∀ f ∈ (readBins s.melLength s).1, f ≤ s.melChannels) :
    ∃ t, exec .melAcc s = .next t ∧ t.result = 0#32 ∧ OnlyResultAndBuffers s t ∧
      BytesKept (Buffer.hasByte .chan 0 (s.melChannels + 2)) s t := by
  refine ⟨_, exec_melAcc_of_legal good constructed legal, ?_⟩
  have bins := (readBins_effect s.melLength s).mono (B := fun b i => b = .chan ∧ i < s.melChannels + 2)
    fun _ _ => False.elim
  refine (bins.trans _ _ _ (melCore_effect legal _)).ok_frame ?_
  rintro _ i a ⟨rfl, hi⟩
  exact hasByte_of_element (Nat.zero_le i) hi

end Check

/-- Settles O16: the loaded entry is among the bins the check sees (`mem_readBins`). -/
theorem badTableBeforeAnyWrite : Obligations.BadTableBeforeAnyWrite := by
  rintro s good constructed ⟨k, w, low, high, loaded, above⟩
  refine ⟨_, exec_melAcc_of_badTable good constructed (mem_readBins low high loaded) above, rfl, fun written => ?_⟩
  rw [readBins_of_written written]

/-- Settles O22: either some bin read is above NB or none is; on a loaded legal table none is
(`readBins_le_of_loaded`). -/
theorem melAccAnswersOnAnyData : Obligations.MelAccAnswersOnAnyData := by
  intro s good constructed
  by_cases legal : ∀ f ∈ (readBins s.melLength s).1, f ≤ s.melChannels
  · obtain ⟨t, run, ok, frame⟩ := melAcc_ok_frame good constructed legal
    exact ⟨t, run, .inl ⟨ok, frame⟩, fun _ => ok⟩
  · push Not at legal
    obtain ⟨f, read, above⟩ := legal
    exact ⟨_, exec_melAcc_of_badTable good constructed read above, .inr ⟨rfl, rfl⟩, fun loaded =>
      absurd (readBins_le_of_loaded loaded f read) (not_le.mpr above)⟩

end Sys2Proof.Machine
end

section
/-!
PROOFS for 42_mel.md R205, R210 to R216: the kernels of the MEL unit on any store whose elements read as they were
written, the machine's buffers and the ideal machine's alike.
-/
namespace Sys2Proof.Machine

open Sys2Proof.Reference (channelTotal channelValue flooredLn)

variable {σ F : Type}

/-- The MEL unit's ports (42_mel.md R200). -/
def Bank.melPorts (B : Bank σ F) : MelPorts σ F where
  re := B.port .real
  im := B.port .imag
  spec := B.port .spec
  wgt := B.port .wgt
  chan := B.port .chan

@[simp] theorem Bank.melPorts_re (B : Bank σ F) : B.melPorts.re = B.port .real := rfl
@[simp] theorem Bank.melPorts_im (B : Bank σ F) : B.melPorts.im = B.port .imag := rfl
@[simp] theorem Bank.melPorts_spec (B : Bank σ F) : B.melPorts.spec = B.port .spec := rfl
@[simp] theorem Bank.melPorts_wgt (B : Bank σ F) : B.melPorts.wgt = B.port .wgt := rfl
@[simp] theorem Bank.melPorts_chan (B : Bank σ F) : B.melPorts.chan = B.port .chan := rfl

/-! ### MEL.MAG -/

/-- The magnitude of a bin (R205). -/
def magnitudeOf (N : Numerics F) (v : F × F) : F := N.sqrt (N.add (N.mul v.1 v.1) (N.mul v.2 v.2))

/-- REAL and IMAG hold the pairs `z` in bins 1 to LEN, and SPEC the magnitudes of the bins from 1 to below `i`. -/
structure MagnitudeData (B : Bank σ F) (N : Numerics F) (len : Nat) (z : Nat → F × F) (i : Nat) (s : σ) :
    Prop where
  re : ∀ k, 1 ≤ k → k ≤ len → B.At .real k (z k).1 s
  im : ∀ k, 1 ≤ k → k ≤ len → B.At .imag k (z k).2 s
  spec : ∀ k, 1 ≤ k → k < i → B.At .spec k (magnitudeOf N (z k)) s

/-- The effect of MEL.MAG (R205). -/
theorem magnitude_data {B : Bank σ F} {N : Numerics F} {len : Nat} {z : Nat → F × F} {s : σ} (hB : B.Lawful)
    (implemented : ∀ k, 1 ≤ k → k ≤ len → B.implemented .spec k) (h : MagnitudeData B N len z 1 s) :
    MagnitudeData B N len z (1 + len) (magnitude N B.melPorts len s).2 := by
  refine loop_invariant (fun i t low high ht => ?_) h
  have hi : i ≤ len := by omega
  have exists_i := implemented i low hi
  simp only [Bank.melPorts_re, Bank.melPorts_im, Bank.melPorts_spec]
  rw [(ht.re i low hi).rd_bind, (ht.re i low hi).rd_bind, (ht.im i low hi).rd_bind, (ht.im i low hi).rd_bind]
  exact {
    re := fun k h1 h2 => hB.other _ exists_i (.inl (by decide)) (ht.re k h1 h2)
    im := fun k h1 h2 => hB.other _ exists_i (.inl (by decide)) (ht.im k h1 h2)
    spec := fun k h1 h2 => by
      by_cases e : k = i
      · rw [e]
        exact hB.same _ _ exists_i
      · exact hB.other _ exists_i (.inr e) (ht.spec k h1 (by omega)) }

/-! ### The data of MEL.ACC -/

/-- WGT and SPEC hold `wgt` and `spec` in bins 1 to LEN − 1, and CHAN[0..NB+1] holds `v`. -/
structure MelData (B : Bank σ F) (nb len : Nat) (wgt spec v : Nat → F) (s : σ) : Prop where
  weight : ∀ k, 1 ≤ k → k < len → B.At .wgt k (wgt k) s
  spectrum : ∀ k, 1 ≤ k → k < len → B.At .spec k (spec k) s
  channel : ∀ c, c < nb + 2 → B.At .chan c (v c) s

/-- The total `a` of channel `c` after a share for channel `d`, which is given only under the guard. -/
def withShare (N : Numerics F) (guard : Prop) [Decidable guard] (d : Nat) (share : F) (c : Nat) (a : F) : F :=
  if guard ∧ d = c then N.add a share else a

/-- One share of bin k, of weight `g (WGT[k])`, added to channel d (R212). -/
def giveShare (N : Numerics F) (P : MelPorts σ F) (g : F → F) (k d : Nat) : StateM σ Unit := do
  P.chan.wr d (N.add (← P.chan.rd d) (N.mul (g (← P.wgt.rd k)) (← P.spec.rd k)))

theorem accumulateRound_eq (N : Numerics F) (P : MelPorts σ F) (len k f : Nat) : accumulateRound N P len k f =
    ((if f > 0 then giveShare N P id k f else pure ()) >>= fun _ =>
      if f ≤ len then giveShare N P (N.sub N.one) k (f + 1) else pure ()) := rfl

/-- A round of R212 gives the lower share and then the upper one. No channel gets both. -/
theorem channelTotal_succ (N : Numerics F) (len : Nat) (fnum : Nat → Nat) (wgt spec : Nat → F) (c K : Nat) :
    channelTotal N len fnum wgt spec c (K + 1) =
      withShare N (fnum (K + 1) ≤ len) (fnum (K + 1) + 1) (N.mul (N.sub N.one (wgt (K + 1))) (spec (K + 1))) c
        (withShare N (fnum (K + 1) > 0) (fnum (K + 1)) (N.mul (wgt (K + 1)) (spec (K + 1))) c
          (channelTotal N len fnum wgt spec c K)) := by
  simp only [channelTotal, withShare]
  by_cases lower : fnum (K + 1) > 0 ∧ fnum (K + 1) = c
  · rw [if_pos lower, if_pos lower, if_neg (by omega)]
  · rw [if_neg lower, if_neg lower]

/-- Channel 0 gets no share (R213). -/
theorem channelTotal_zero (N : Numerics F) (len : Nat) (fnum : Nat → Nat) (wgt spec : Nat → F) (K : Nat) :
    channelTotal N len fnum wgt spec 0 K = N.zero := by
  induction K with
  | zero => rfl
  | succ K ih =>
    rw [channelTotal_succ, withShare, if_neg (by omega), withShare, if_neg (by omega), ih]

section Kernel

variable {B : Bank σ F} {N : Numerics F} {nb len : Nat} {wgt spec v v' : Nat → F} {s : σ}

theorem MelData.congr (h : MelData B nb len wgt spec v s) (hv : ∀ c, c < nb + 2 → v' c = v c) :
    MelData B nb len wgt spec v' s where
  weight := h.weight
  spectrum := h.spectrum
  channel c hc := hv c hc ▸ h.channel c hc

variable (hB : B.Lawful)
include hB

theorem MelData.put (h : MelData B nb len wgt spec v s) {d : Nat} (hd : d < nb + 2) (x : F) :
    MelData B nb len wgt spec (Function.update v d x) ((B.port .chan).wr d x s).2 where
  weight k h1 h2 := hB.other x (h.channel d hd).1 (.inl (by decide)) (h.weight k h1 h2)
  spectrum k h1 h2 := hB.other x (h.channel d hd).1 (.inl (by decide)) (h.spectrum k h1 h2)
  channel c hc := by
    by_cases e : c = d
    · rw [e, Function.update_self]
      exact hB.same x s (h.channel d hd).1
    · rw [Function.update_of_ne e]
      exact hB.other x (h.channel d hd).1 (.inr e) (h.channel c hc)

/-! ### The accumulation -/

theorem giveShare_data {guard : Prop} [Decidable guard] (h : MelData B nb len wgt spec v s) (g : F → F) {k d : Nat}
    (low : 1 ≤ k) (high : k < len) (hd : d < nb + 2) : MelData B nb len wgt spec
      (fun c => withShare N guard d (N.mul (g (wgt k)) (spec k)) c (v c))
      ((if guard then giveShare N B.melPorts g k d else pure ()) s).2 := by
  by_cases hg : guard
  · rw [if_pos hg]
    simp only [giveShare, Bank.melPorts_chan, Bank.melPorts_wgt, Bank.melPorts_spec]
    rw [(h.channel d hd).rd_bind, (h.weight k low high).rd_bind, (h.spectrum k low high).rd_bind]
    refine (h.put hB hd _).congr fun c _ => ?_
    by_cases e : c = d
    · rw [e, withShare, if_pos ⟨hg, rfl⟩, Function.update_self]
    · rw [withShare, if_neg (fun hc => e hc.2.symm), Function.update_of_ne e]
  · rw [if_neg hg]
    exact h.congr fun c _ => if_neg fun hc => hg hc.1

/-- A round of R212 whose bin passed the check of R211. -/
theorem accumulateRound_data (h : MelData B nb len wgt spec v s) {k f : Nat} (low : 1 ≤ k) (high : k < len)
    (legal : f ≤ nb) : MelData B nb len wgt spec
      (fun c => withShare N (f ≤ len) (f + 1) (N.mul (N.sub N.one (wgt k)) (spec k)) c
        (withShare N (f > 0) f (N.mul (wgt k) (spec k)) c (v c)))
      (accumulateRound N B.melPorts len k f s).2 := by
  rw [accumulateRound_eq]
  have lower := giveShare_data (N := N) (guard := f > 0) hB h id low high (d := f) (by omega)
  exact giveShare_data hB lower (N.sub N.one) low high (Nat.add_lt_add_right (Nat.lt_succ_of_le legal) 1)

/-- The accumulation of R212 over a table that the check of R211 lets pass. -/
theorem accumulate_data {fnum : Nat → Nat} (legal : ∀ k, 1 ≤ k → k < len → fnum k ≤ nb)
    (h : MelData B nb len wgt spec (fun _ => N.zero) s) :
    MelData B nb len wgt spec (fun c => channelTotal N len fnum wgt spec c (len - 1))
      (accumulate N B.melPorts len ((List.range' 1 (len - 1)).map fnum) s).2 := by
  have rounds := loop_invariant (a := 1) (k := len - 1)
    (I := fun k s => MelData B nb len wgt spec (fun c => channelTotal N len fnum wgt spec c (k - 1)) s)
    (f := fun k => accumulateRound N B.melPorts len k (fnum k))
    (fun k s low high hs => by
      refine (accumulateRound_data hB hs low (by omega) (legal k low (by omega))).congr fun c _ => ?_
      obtain ⟨K, rfl⟩ : ∃ K, k = K + 1 := ⟨k - 1, by omega⟩
      exact channelTotal_succ N len fnum wgt spec c K)
    h
  rw [accumulate, loopList_map_range']
  rwa [Nat.add_sub_cancel_left] at rounds

/-- The clearing of R212. -/
theorem clearChannels_data (weight : ∀ k, 1 ≤ k → k < len → B.At .wgt k (wgt k) s)
    (spectrum : ∀ k, 1 ≤ k → k < len → B.At .spec k (spec k) s)
    (implemented : ∀ c, c < nb + 2 → B.implemented .chan c) :
    MelData B nb len wgt spec (fun _ => N.zero) (clearChannels N B.melPorts nb s).2 := by
  have kept : ∀ (b : Buffer) i, b ≠ .chan → B.Kept b i s (clearChannels N B.melPorts nb s).2 := fun b i hb =>
    keeps_loop (Bank.Kept.refl b i) (Bank.Kept.trans b i)
      (fun c _ hc _ _ h => hB.other _ (implemented c (by omega)) (.inl hb) h) s
  exact {
    weight := fun k h1 h2 => kept .wgt k (by decide) _ (weight k h1 h2)
    spectrum := fun k h1 h2 => kept .spec k (by decide) _ (spectrum k h1 h2)
    channel := fun c hc => loop_establishes (k := nb + 2) (p := fun c => B.At .chan c N.zero)
      (fun d t hd => hB.same _ t (implemented d (by omega)))
      (fun d e t hde he => hB.other _ (implemented e (by omega)) (.inr hde.ne)) s (Nat.zero_le c) (by omega) }

/-- The floor and logarithm of R214. -/
theorem floorLn_data (floor : F) (h : MelData B nb len wgt spec v s) :
    MelData B nb len wgt spec (fun c => if 1 ≤ c ∧ c ≤ nb then flooredLn N floor (v c) else v c)
      (floorLn N B.melPorts floor nb s).2 := by
  have rounds := loop_invariant (a := 1) (k := nb)
    (I := fun i s => MelData B nb len wgt spec (fun c => if 1 ≤ c ∧ c < i then flooredLn N floor (v c) else v c) s)
    (f := fun c => do
      let x ← B.melPorts.chan.rd c
      B.melPorts.chan.wr c (N.ln (if N.lt x floor then floor else x)))
    (fun i s low high hs => by
      have own := hs.channel i (by omega)
      rw [if_neg (by omega)] at own
      simp only [Bank.melPorts_chan]
      rw [own.rd_bind]
      refine (hs.put hB (by omega) _).congr fun c _ => ?_
      by_cases e : c = i
      · rw [e, Function.update_self, if_pos (by omega)]
        rfl
      · rw [Function.update_of_ne e]
        exact if_congr (by omega) rfl rfl)
    (h.congr fun c _ => if_neg (by omega))
  exact rounds.congr fun c _ => if_congr (by omega) rfl rfl

/-- The effect of MEL.ACC after the table check (R210). -/
theorem melCore_data (floor : F) {fnum : Nat → Nat} (legal : ∀ k, 1 ≤ k → k < len → fnum k ≤ nb)
    (weight : ∀ k, 1 ≤ k → k < len → B.At .wgt k (wgt k) s)
    (spectrum : ∀ k, 1 ≤ k → k < len → B.At .spec k (spec k) s)
    (implemented : ∀ c, c < nb + 2 → B.implemented .chan c) :
    MelData B nb len wgt spec (channelValue N nb len floor fnum wgt spec)
      (melCore N B.melPorts floor nb len ((List.range' 1 (len - 1)).map fnum) s).2 :=
  floorLn_data hB floor (accumulate_data hB legal (clearChannels_data hB weight spectrum implemented))

end Kernel

/-! ### MEL.MAG and MEL.ACC on the machine -/

theorem machineBank_melPorts (c : Config) : (machineBank c).melPorts = melPorts := rfl

/-- The sizes of a constructed MEL unit (R201). -/
theorem State.Inv.melSizes {s : State} (h : s.Inv) (constructed : s.melLength ≠ 0) :
    s.melChannels ≤ s.cfg.nbmax ∧ s.melLength ≤ s.cfg.mmax / 2 := by
  obtain ⟨-, ⟨-, -, -, -, sizes⟩, -⟩ := h
  obtain ⟨-, channels, -, length⟩ := sizes.resolve_left fun unconstructed => constructed unconstructed.2
  exact ⟨channels, length⟩

theorem State.Written.bankAt {s : State} {b : Buffer} {lo hi i : Nat} (h : s.Written b lo hi)
    (fits : hi ≤ b.elements s.cfg) (low : lo ≤ i) (high : i < hi) : (machineBank s.cfg).At b i (s.elem b i) s :=
  machineBank_at.mpr ⟨high.trans_le fits, h.elem? low high⟩

/-- Settles O30: the kernel by `magnitude_data`, completion and frame by `transformsCompleteOnAnyData`. -/
theorem melMagComputesMagnitude : Obligations.MelMagComputesMagnitude := by
  intro s h good constructed real imag
  obtain ⟨-, fits⟩ := h.melSizes constructed
  have bins : s.melLength + 1 ≤ s.cfg.mmax := by omega
  have output := magnitude_data (machineBank_lawful h.1) (N := binary32)
    (z := fun k => (s.elem .real k, s.elem .imag k)) (fun k _ hk => Nat.lt_succ_of_le (hk.trans fits))
    { re := fun k low high => real.bankAt bins low (Nat.lt_succ_of_le high)
      im := fun k low high => imag.bankAt bins low (Nat.lt_succ_of_le high)
      spec := fun k h1 h2 => absurd h1 (not_le.mpr h2) }
  rw [machineBank_melPorts] at output
  obtain ⟨-, -, -, completes⟩ := transformsCompleteOnAnyData s
  obtain ⟨t, run, ok, registers, kept⟩ := completes good constructed
  obtain rfl := Host.Outcome.next.inj ((exec_melMag_ok good constructed).symm.trans run)
  exact ⟨_, run, ok, registers, kept, fun k low high =>
    (machineBank_at.mp (output.spec k low (by omega))).2⟩

/-- Settles O31: the kernel by `melCore_data`, completion and frame by `melAcc_ok_frame`. -/
theorem melAccComputesChannels : Obligations.MelAccComputesChannels := by
  intro s h good constructed bins weights spectrum legal
  obtain ⟨channels, length⟩ := h.melSizes constructed
  have passes : ∀ f ∈ (readBins s.melLength s).1, f ≤ s.melChannels :=
    readBins_le_of_loaded fun k low high => ⟨_, bins.elem? low high, legal k low high⟩
  obtain ⟨t, run, ok, registers, kept⟩ := melAcc_ok_frame good constructed passes
  have output := melCore_data (machineBank_lawful h.1) (N := binary32) s.melFloor legal
    (fun k => weights.bankAt length) (fun k => spectrum.bankAt (length.trans (Nat.le_succ _)))
    fun c hc => hc.trans_le (Nat.add_le_add_right channels 2)
  rw [machineBank_melPorts] at output
  have kernel := exec_melAcc_of_legal good constructed passes
  rw [readBins_of_written bins] at kernel
  obtain rfl := Host.Outcome.next.inj (kernel.symm.trans run)
  have value : ∀ c, c < s.melChannels + 2 → _ := fun c hc => (machineBank_at.mp (output.channel c hc)).2
  refine ⟨_, run, ok, registers, kept, ?_, fun c hc => value c (by omega)⟩
  refine (value 0 (by omega)).trans (congrArg some ?_)
  rw [channelValue, if_neg (by omega)]
  exact channelTotal_zero ..

end Sys2Proof.Machine

namespace Sys2Proof.Ideal

open Sys2Proof.Machine
open Sys2Proof.Reference (channelTotal)

theorem bank_melPorts : bank.melPorts = melPorts := rfl

/-- With real numbers each bin adds its weighted share to a channel from 1 on (R216). -/
theorem channelTotal_eq_sum (len : Nat) (fnum : Nat → Nat) (wgt spec : Nat → ℝ) {c : Nat} (hc : 1 ≤ c) (K : Nat) :
    channelTotal numerics len fnum wgt spec c K =
      ∑ k ∈ Finset.Ico 1 (K + 1), melWeight len fnum wgt c k * spec k := by
  induction K with
  | zero => rfl
  | succ K ih =>
    rw [Finset.sum_Ico_succ_top (by omega), ← ih]
    simp only [channelTotal, melWeight]
    by_cases lower : fnum (K + 1) = c
    · rw [if_pos ⟨by omega, lower⟩, if_pos lower]
      rfl
    · rw [if_neg (lower ·.2), if_neg lower]
      by_cases upper : fnum (K + 1) + 1 = c ∧ fnum (K + 1) ≤ len
      · rw [if_pos upper.symm, if_pos upper]
        rfl
      · rw [if_neg (upper ·.symm), if_neg upper, zero_mul, add_zero]

/-- Settles O60: the kernel gives the totals (`accumulate_data`), which are the sums (`channelTotal_eq_sum`). -/
theorem idealMelIsWeightedSum : Obligations.IdealMelIsWeightedSum := by
  intro s nb len fnum legal t c low high
  have bins : (List.range (len - 1)).map (fun j => fnum (j + 1)) = (List.range' 1 (len - 1)).map fnum := by
    rw [List.range'_eq_map_range, List.map_map]
    exact List.map_congr_left fun j _ => congrArg fnum (Nat.add_comm j 1)
  have output := accumulate_data bank_lawful legal (clearChannels_data (N := numerics) (s := s) (wgt := s .wgt)
    (spec := s .spec) bank_lawful (fun _ _ _ => bank_at.mpr rfl) (fun _ _ _ => bank_at.mpr rfl)
    fun _ _ => trivial)
  rw [bank_melPorts, ← bins] at output
  have indices : Finset.Ico 1 (len - 1 + 1) = Finset.Ico 1 len := by
    ext k
    simp only [Finset.mem_Ico]
    omega
  rw [← indices, ← channelTotal_eq_sum len fnum _ _ low]
  exact bank_at.mp (output.channel c (by omega))

end Sys2Proof.Ideal
end

section
/-!
PROOFS for 43_system.md R230: the words of SYS.RESET and the state it leaves.
-/
namespace Sys2Proof

open Sys2Proof.Laws (opOf)

theorem eq_sysReset_of_opOf {i : Instr} (h : opOf i = 0x01) : i = .sysReset := by
  cases i with
  | sysReset => rfl
  | fftInit | fft | fftr | dctInit | dctApply | melInit | melMag | melAcc => simp [opOf] at h

theorem decode_eq_sysReset_iff {w : Word} : decode w = .ok .sysReset ↔ w = 0x04000000#32 := by
  have word : encode .sysReset = 0x04000000#32 := by decide
  have fits : Instr.sysReset.WellFormed := rfl
  rw [decode_eq_ok_iff_encode, word, and_iff_right fits, eq_comm]

/-- A word with the OP value of SYS.RESET decodes to SYS.RESET or not at all (R107, R230). -/
theorem exists_decode_error_of_fieldOp_sysReset {w : Word} (op : fieldOp w = 0x01) (ne : w ≠ 0x04000000#32) :
    ∃ e, decode w = .error e := by
  cases result : decode w with
  | error e => exact ⟨e, rfl⟩
  | ok i =>
    obtain ⟨opI, -, -⟩ := decode_eq_ok_iff.mp result
    obtain rfl := eq_sysReset_of_opOf (opI.symm.trans op)
    exact absurd (decode_eq_sysReset_iff.mp result) ne

end Sys2Proof

namespace Sys2Proof.Machine

/-- The table of an unconstructed unit is unspecified (10_state.md R55, R62). -/
theorem elemSpecified_table_of_unconstructed {s : State} (fft : s.fftSize = 0) (dct : s.dctSize = 0) :
    ∀ b ∈ [Buffer.sintab, .dctwr, .dctwi], ∀ i, s.elemSpecified b i = false := by
  have dctEntry : ∀ i, decide (i < s.dctSize) = false := fun i => by simp [dct]
  simp only [List.forall_mem_cons]
  exact ⟨fun i => by simp [State.elemSpecified, fft], dctEntry, dctEntry, List.forall_mem_nil _⟩

/-- Settles O12: the command is `State.resetRegisters` and Ok, which leaves the four sizes 0; its word by
`decode_eq_sysReset_iff`. -/
theorem sysResetCompletes : Obligations.SysResetCompletes := by
  refine ⟨fun s => rfl, fun s t run => ?_, fun w => decode_eq_sysReset_iff,
    fun w => exists_decode_error_of_fieldOp_sysReset⟩
  obtain rfl : s.resetRegisters.returnOk = t := Host.Outcome.next.inj run
  exact ⟨rfl, rfl, rfl, rfl, elemSpecified_table_of_unconstructed rfl rfl⟩

end Sys2Proof.Machine
end

section
/-!
PROOFS for 60_exceptions.md R243, R247 to R249, R261: a command that fails, and what a command of one unit can
change of the others.
-/
namespace Sys2Proof.Machine

/-! ### Every step answers -/

theorem exec_answers (i : Instr) (s : State) : ∃ t, exec i s = .next t := by
  cases i <;> exact ⟨_, rfl⟩

theorem command_answers (w : Word) (s : State) : ∃ t, command w s = .next t := by
  cases word : decode w with
  | ok i =>
    rw [command_of_decode word]
    exact exec_answers i _
  | error e => exact ⟨_, command_of_decode_error word s⟩

theorem perform_answers (e : HostEvent) (s : State) : ∃ t, perform e s = .next t := by
  cases e with
  | read off size => exact ⟨_, rfl⟩
  | hardwareReset => exact ⟨_, rfl⟩
  | write off size v =>
    rw [perform]
    split
    · exact command_answers v s
    · exact ⟨_, rfl⟩

theorem step_of_idle {s : State} (idle : s.host = []) : step s = .next s := by simp only [step, idle]

theorem step_of_event {s : State} {e : HostEvent} {rest : List HostEvent} (event : s.host = e :: rest) :
    step s = perform e (s.withHost rest) := by simp only [step, event]

/-- Settles O8, by the host events to come. -/
theorem stepAlwaysAnswers : Obligations.StepAlwaysAnswers := by
  refine ⟨fun s => ?_, fun s => step_of_idle⟩
  cases event : s.host with
  | nil => exact ⟨s, step_of_idle event⟩
  | cons e rest =>
    rw [step_of_event event]
    exact perform_answers e _

/-! ### Checks come before effects -/

/-- What a command's rule answers in `s`: an error, when it has written nothing and at most used up free values, or
no error. The two other kinds of error are raised by the dispatch (30_encoding.md R114, 60_exceptions.md R248). -/
inductive Checked (s : State) : Option ErrorKind × State → Prop
  | lengths : Checked s (some .dataSizeMismatch, s)
  | size : Checked s (some .invalidSize, s)
  | table (d : Nat) : Checked s (some .badTable, { s with draws := d })
  | passed (t : State) : Checked s (none, t)

section Rules

variable (s : State)

theorem fftInitBody_checked (m : Nat) : Checked s (fftInitBody m s) := by
  unfold fftInitBody
  split_ifs
  · exact .size
  · exact .passed _

theorem fftBody_checked (rlen ilen : Nat) : Checked s (fftBody rlen ilen s) := by
  unfold fftBody
  split_ifs
  · exact .lengths
  · exact .size
  · exact .passed _

theorem fftrBody_checked (rlen ilen : Nat) : Checked s (fftrBody rlen ilen s) := by
  unfold fftrBody
  split_ifs
  · exact .lengths
  · exact .size
  · exact .passed _

theorem dctInitBody_checked (n : Nat) : Checked s (dctInitBody n s) := by
  unfold dctInitBody
  split_ifs
  · exact .size
  · exact .passed _

theorem dctApplyBody_checked (dlen : Nat) : Checked s (dctApplyBody dlen s) := by
  unfold dctApplyBody
  split_ifs
  · exact .size
  · exact .passed _

theorem melInitBody_checked (nb len : Nat) : Checked s (melInitBody nb len s) := by
  unfold melInitBody
  split_ifs
  · exact .size
  · exact .size
  · exact .passed _

theorem melMagBody_checked : Checked s (melMagBody s) := by
  unfold melMagBody
  split_ifs
  · exact .size
  · exact .passed _

/-- The table check of R211 reads BIN and writes nothing. -/
theorem melAccBody_checked : Checked s (melAccBody s) := by
  unfold melAccBody
  dsimp only
  split_ifs
  · exact .size
  · rw [readBins_frame]
    exact .table _
  · exact .passed _

end Rules

/-- A command of a unit other than INIT is its rule behind the BadState test (30_encoding.md R114 step 3). -/
theorem exec_of_commandUnit {i : Instr} {u : EngineUnit} (unit : commandUnit i = some u) :
    ∃ body : CommandBody, ∀ s, exec i s = .next (runCommand u body s) ∧ Checked s (body s) := by
  cases i <;> cases unit
  case fft rlen ilen => exact ⟨fftBody rlen ilen, fun s => ⟨rfl, fftBody_checked s rlen ilen⟩⟩
  case fftr rlen ilen => exact ⟨fftrBody rlen ilen, fun s => ⟨rfl, fftrBody_checked s rlen ilen⟩⟩
  case dctApply dlen => exact ⟨dctApplyBody dlen, fun s => ⟨rfl, dctApplyBody_checked s dlen⟩⟩
  case melMag => exact ⟨melMagBody, fun s => ⟨rfl, melMagBody_checked s⟩⟩
  case melAcc => exact ⟨melAccBody, fun s => ⟨rfl, melAccBody_checked s⟩⟩

/-- An INIT command is its rule after the old construction is discarded (30_encoding.md R114 step 4). -/
theorem exec_of_initUnit {i : Instr} {u : EngineUnit} (unit : initUnit i = some u) :
    ∃ body : CommandBody, ∀ s, exec i s = .next (runInit u body s) ∧ Checked (s.discard u) (body (s.discard u)) := by
  cases i <;> cases unit
  case fftInit m => exact ⟨fftInitBody m, fun s => ⟨rfl, fftInitBody_checked _ m⟩⟩
  case dctInit n => exact ⟨dctInitBody n, fun s => ⟨rfl, dctInitBody_checked _ n⟩⟩
  case melInit nb len => exact ⟨melInitBody nb len, fun s => ⟨rfl, melInitBody_checked _ nb len⟩⟩

/-! ### Commands of a bad unit -/

theorem runCommand_of_isBad {u : EngineUnit} {s : State} (bad : s.isBad u = true) (body : CommandBody) :
    runCommand u body s = { s with result := 3#32 } := by
  rw [runCommand, if_pos bad]
  rfl

/-- Settles O9: the BadState test comes before the command's rule. -/
theorem badUnitAnswersBadState : Obligations.BadUnitAnswersBadState := by
  intro s u i unit bad
  obtain ⟨body, run⟩ := exec_of_commandUnit unit
  rw [(run s).1, runCommand_of_isBad bad]

/-! ### Commands that fail -/

/-- The state `t` is `s` after a failed command of unit `u`: a code in RESULT, the unit's flag set, free values
used up. -/
def Failed (u : EngineUnit) (s t : State) : Prop :=
  ∃ (r : Word) (d : Nat), t = { s with result := r, status := s.status ||| u.badBit, draws := d }

/-- A bit that is set is not changed by setting it again. -/
theorem or_badBit_of_isBad {s : State} {u : EngineUnit} (bad : s.isBad u = true) :
    s.status ||| u.badBit = s.status := by
  obtain ⟨k, one⟩ : ∃ k, u.badBit = BitVec.twoPow 32 k := by
    cases u with
    | fft => exact ⟨0, rfl⟩
    | dct => exact ⟨1, rfl⟩
    | mel => exact ⟨2, rfl⟩
  have set : s.status.getLsbD k = true := by
    rw [isBad_iff, one, BitVec.and_twoPow] at bad
    by_contra clear
    exact bad (if_neg clear)
  rw [one]
  ext j hj
  rw [BitVec.getElem_or, BitVec.getElem_twoPow]
  by_cases own : j = k
  · subst own
    simpa [BitVec.getLsbD_eq_getElem hj] using set
  · simp [own]

theorem runBody_failed {u : EngineUnit} {body : CommandBody} {s : State} (checked : Checked s (body s))
    (failed : (runBody u body s).result ≠ 0#32) : Failed u s (runBody u body s) := by
  unfold runBody at failed ⊢
  generalize body s = answer at checked failed ⊢
  cases checked with
  | lengths => exact ⟨_, s.draws, rfl⟩
  | size => exact ⟨_, s.draws, rfl⟩
  | table d => exact ⟨_, d, rfl⟩
  | passed t => exact absurd rfl failed

theorem runCommand_failed {u : EngineUnit} {body : CommandBody} {s : State} (checked : Checked s (body s))
    (failed : (runCommand u body s).result ≠ 0#32) : Failed u s (runCommand u body s) := by
  by_cases bad : s.isBad u = true
  · rw [runCommand_of_isBad bad]
    exact ⟨3#32, s.draws, by rw [or_badBit_of_isBad bad]⟩
  · rw [runCommand, if_neg bad] at failed ⊢
    exact runBody_failed checked failed

/-- The flag that the discard of the old construction clears is set again. -/
theorem Failed.of_discard {u : EngineUnit} {s t : State} (h : Failed u (s.discard u) t) :
    Failed u (s.clearSizes u) t := by
  obtain ⟨r, d, rfl⟩ := h
  refine ⟨r, d, ?_⟩
  rw [State.clearSizes_status, ← clear_or_set s.status]
  cases u <;> rfl

/-- The cases of a command that fails: one of a unit other than INIT, or an INIT command. SYS.RESET never fails. -/
theorem exec_failed {i : Instr} {s t : State} (run : exec i s = .next t) (failed : t.result ≠ 0#32) :
    (∃ u, commandUnit i = some u ∧ Failed u s t) ∨ ∃ u, initUnit i = some u ∧ Failed u (s.clearSizes u) t := by
  obtain ⟨-, rfl⟩ | ⟨u, unit, -⟩ | ⟨u, unit, -⟩ := exec_cases run
  · exact absurd rfl failed
  · obtain ⟨body, rule⟩ := exec_of_commandUnit unit
    obtain ⟨run', checked⟩ := rule s
    obtain rfl := Host.Outcome.next.inj (run'.symm.trans run)
    exact .inl ⟨u, unit, runCommand_failed checked failed⟩
  · obtain ⟨body, rule⟩ := exec_of_initUnit unit
    obtain ⟨run', checked⟩ := rule s
    obtain rfl := Host.Outcome.next.inj (run'.symm.trans run)
    have afterDiscard : Failed u (s.discard u) (runInit u body s) := runBody_failed checked failed
    exact .inr ⟨u, unit, afterDiscard.of_discard⟩

theorem initUnit_of_commandUnit {i : Instr} {u : EngineUnit} (unit : commandUnit i = some u) : initUnit i = none := by
  cases i with
  | fft | fftr | dctApply | melMag | melAcc => rfl
  | sysReset | fftInit | dctInit | melInit => cases unit

/-- Settles O17: the state after a failed command is that of `Failed`, for an INIT command after its unit's sizes
are cleared. -/
theorem failingCommandsChangeNoData : Obligations.FailingCommandsChangeNoData := by
  intro i s t run failed
  obtain ⟨u, unit, r, d, rfl⟩ | ⟨u, unit, r, d, rfl⟩ := exec_failed run failed
  · refine ⟨⟨rfl, rfl, rfl, rfl, rfl⟩, fun v other => ?_, fun v other => ?_⟩
    · obtain rfl := Option.some.inj (unit.symm.trans other)
      exact ⟨rfl, rfl, rfl, rfl, rfl⟩
    · exact absurd (other.symm.trans (initUnit_of_commandUnit unit)) (Option.some_ne_none v)
  · refine ⟨by simp, fun v other => ?_, fun v other => ?_⟩
    · exact absurd (unit.symm.trans (initUnit_of_commandUnit other)) (Option.some_ne_none u)
    · obtain rfl := Option.some.inj (unit.symm.trans other)
      exact ⟨rfl, rfl, rfl, rfl, by simp⟩

/-! ### What a command of one unit can change of the others -/

/-- The flags of STATUS other than the unit's own, MEL_FLOOR and the sizes of the other units are as before
(10_state.md R32, R45 to R49). -/
structure KeptOutside (u : EngineUnit) (s t : State) : Prop where
  flags : t.status &&& ~~~u.badBit = s.status &&& ~~~u.badBit
  floor : t.melFloor = s.melFloor
  fft : u ≠ .fft → t.fftM = s.fftM
  dct : u ≠ .dct → t.dctN = s.dctN
  mel : u ≠ .mel → t.melNb = s.melNb ∧ t.melLen = s.melLen

namespace KeptOutside

variable {u : EngineUnit} {s t r : State}

theorem refl (u : EngineUnit) (s : State) : KeptOutside u s s :=
  ⟨rfl, rfl, fun _ => rfl, fun _ => rfl, fun _ => ⟨rfl, rfl⟩⟩

theorem trans (h : KeptOutside u s r) (h' : KeptOutside u r t) : KeptOutside u s t where
  flags := h'.flags.trans h.flags
  floor := h'.floor.trans h.floor
  fft other := (h'.fft other).trans (h.fft other)
  dct other := (h'.dct other).trans (h.dct other)
  mel other := ⟨(h'.mel other).1.trans (h.mel other).1, (h'.mel other).2.trans (h.mel other).2⟩

/-- A flag that is not the unit's own. -/
theorem flag (h : KeptOutside u s t) {b : Word} (other : ~~~u.badBit &&& b = b) :
    t.status &&& b = s.status &&& b := by
  rw [← other, ← BitVec.and_assoc, h.flags, BitVec.and_assoc]

end KeptOutside

section Parts

variable {u : EngineUnit} {s t : State}

theorem EngineEffect.keptOutside {A : Buffer → Nat → Prop} (h : EngineEffect A s t) (u : EngineUnit) :
    KeptOutside u s t := by
  obtain ⟨-, -, status, fftM, dctN, melNb, melLen, melFloor, -, -⟩ := h.registers
  exact ⟨by rw [status], melFloor, fun _ => fftM, fun _ => dctN, fun _ => ⟨melNb, melLen⟩⟩

theorem keptOutside_clearBad (u : EngineUnit) (s : State) : KeptOutside u s (s.clearBad u) :=
  ⟨by simp [BitVec.and_assoc], rfl, fun _ => rfl, fun _ => rfl, fun _ => ⟨rfl, rfl⟩⟩

theorem keptOutside_returnOk (u : EngineUnit) (s : State) : KeptOutside u s s.returnOk :=
  ⟨rfl, rfl, fun _ => rfl, fun _ => rfl, fun _ => ⟨rfl, rfl⟩⟩

theorem Failed.keptOutside (h : Failed u s t) : KeptOutside u s t := by
  obtain ⟨r, d, rfl⟩ := h
  exact ⟨by simp [BitVec.and_or_distrib_right], rfl, fun _ => rfl, fun _ => rfl, fun _ => ⟨rfl, rfl⟩⟩

theorem keptOutside_fftM (s : State) (m : Word) : KeptOutside .fft s { s with fftM := m } :=
  ⟨rfl, rfl, absurd rfl, fun _ => rfl, fun _ => ⟨rfl, rfl⟩⟩

theorem keptOutside_dctN (s : State) (n : Word) : KeptOutside .dct s { s with dctN := n } :=
  ⟨rfl, rfl, fun _ => rfl, absurd rfl, fun _ => ⟨rfl, rfl⟩⟩

theorem keptOutside_melSizes (s : State) (nb len : Word) :
    KeptOutside .mel s { s with melNb := nb, melLen := len } :=
  ⟨rfl, rfl, fun _ => rfl, fun _ => rfl, absurd rfl⟩

theorem keptOutside_clearSizes (u : EngineUnit) (s : State) : KeptOutside u s (s.clearSizes u) := by
  cases u with
  | fft => exact keptOutside_fftM s _
  | dct => exact keptOutside_dctN s _
  | mel => exact keptOutside_melSizes s _ _

theorem InitEffect.keptOutside {i : Instr} (unit : initUnit i = some u) (h : InitEffect s i t) :
    KeptOutside u s t := by
  cases h with
  | refused => exact .refl u s
  | @fft m =>
    obtain rfl := Option.some.inj unit
    exact ((buildSineTable_effect m s).keptOutside .fft).trans (keptOutside_fftM _ _)
  | @dct n low =>
    obtain rfl := Option.some.inj unit
    exact ((buildTwiddle_effect low s).keptOutside .dct).trans (keptOutside_dctN _ _)
  | mel =>
    obtain rfl := Option.some.inj unit
    exact keptOutside_melSizes s _ _

/-- The end of a command that did not fail. -/
theorem Ended.eq_returnOk (h : Ended u s t) (ok : t.result = 0#32) : t = s.returnOk := by
  obtain e | ⟨k, rfl⟩ := h
  · exact e
  · rw [State.raise_result] at ok
    cases k <;> simp [ErrorKind.code] at ok

end Parts

/-- A command is of one unit only. -/
theorem unit_unique {i : Instr} {u v : EngineUnit} (h : commandUnit i = some u ∨ initUnit i = some u)
    (h' : commandUnit i = some v ∨ initUnit i = some v) : u = v := by
  cases i with
  | sysReset => simp [commandUnit, initUnit] at h
  | fftInit | fft | fftr | dctInit | dctApply | melInit | melMag | melAcc =>
    simp only [commandUnit, initUnit, Option.some.injEq, reduceCtorEq, or_false, false_or] at h h'
    exact h.symm.trans h'

/-- A command that fails is that of `exec_failed`; one that returns Ok ran its rule to the end. -/
theorem exec_keptOutside {i : Instr} {s t : State} {u : EngineUnit} (run : exec i s = .next t)
    (unit : commandUnit i = some u ∨ initUnit i = some u) : KeptOutside u s t := by
  by_cases ok : t.result = 0#32
  · obtain ⟨rfl, -⟩ | ⟨v, other, r, written, ended⟩ | ⟨v, other, r, built, ended⟩ := exec_cases run
    · simp [commandUnit, initUnit] at unit
    · obtain rfl := unit_unique unit (.inl other)
      rw [ended.eq_returnOk ok]
      exact (written.keptOutside u).trans (keptOutside_returnOk u r)
    · obtain rfl := unit_unique unit (.inr other)
      have discarded : KeptOutside u s (s.discard u) :=
        (keptOutside_clearBad u s).trans (keptOutside_clearSizes u _)
      rw [ended.eq_returnOk ok]
      exact discarded.trans ((built.keptOutside other).trans (keptOutside_returnOk u r))
  · obtain ⟨v, other, failed⟩ | ⟨v, other, failed⟩ := exec_failed run ok
    · obtain rfl := unit_unique unit (.inl other)
      exact failed.keptOutside
    · obtain rfl := unit_unique unit (.inr other)
      exact (keptOutside_clearSizes u s).trans failed.keptOutside

theorem not_badBit_and_badBit {u v : EngineUnit} (other : v ≠ u) : ~~~u.badBit &&& v.badBit = v.badBit := by
  revert other
  cases u <;> cases v <;> decide

/-- Settles O46: the four flags are different bits. -/
theorem unitsAreIndependent : Obligations.UnitsAreIndependent := by
  intro i s t u run unit
  have kept := exec_keptOutside run unit
  have ill : ~~~u.badBit &&& illBit = illBit := by cases u <;> rfl
  refine ⟨fun v other => ?_, ?_, kept.floor, kept.fft, kept.dct, kept.mel⟩
  · rw [State.isBad, State.isBad, kept.flag (not_badBit_and_badBit other)]
  · rw [State.isIll, State.isIll, kept.flag ill]

end Sys2Proof.Machine
end

section
/-!
PROOFS for 70_reset_and_hazards.md R280 to R283: what the two resets leave.
-/
namespace Sys2Proof.Machine

theorem step_of_hardwareReset {s : State} {rest : List HostEvent} (event : s.host = .hardwareReset :: rest) :
    step s = .next (s.withHost rest).hardwareReset := by
  rw [step_of_event event, perform]

theorem hardwareReset_withHost (s : State) (rest : List HostEvent) :
    (s.withHost rest).hardwareReset = { State.resetWith s.cfg with draws := s.draws, host := rest } := rfl

theorem elem?_eq_none_of_mem_eq_nil {s : State} (empty : s.mem = []) (b : Buffer) (i : Nat) : s.elem? b i = none := by
  rw [State.elem?, empty]
  rfl

/-- Settles O11: hardware reset is `State.resetWith`, which lists no byte. -/
theorem hardwareResetForgetsBuffers : Obligations.HardwareResetForgetsBuffers := by
  intro s rest event
  refine ⟨?_, elem?_eq_none_of_mem_eq_nil rfl⟩
  rw [step_of_hardwareReset event, hardwareReset_withHost]

/-- `State.resetRegisters` writes every register that a host read gives, but the constant ones. -/
theorem resetValues_resetRegisters (s : State) : resetValues s.cfg s.resetRegisters = true := by
  simp [resetValues, State.register?]

/-- A state whose registers `State.resetRegisters` would not change reads as after a reset. -/
theorem resetValues_of_resetRegisters_eq {s : State} (fixed : s.resetRegisters = s) : resetValues s.cfg s = true := by
  have values := resetValues_resetRegisters s
  rwa [fixed] at values

/-- Settles O10: each reset leaves a state that `State.resetRegisters` would not change. -/
theorem resetRegisterValues : Obligations.ResetRegisterValues := by
  refine ⟨fun c => ?_, fun s rest event => ?_, fun s => ?_⟩
  · exact resetValues_of_resetRegisters_eq (s := State.resetWith c) rfl
  · exact ⟨_, step_of_hardwareReset event,
      resetValues_of_resetRegisters_eq (s := (s.withHost rest).hardwareReset) rfl⟩
  · exact ⟨_, sysResetCompletes.1 s, resetValues_of_resetRegisters_eq rfl⟩

end Sys2Proof.Machine
end
